-- ==== Sys2Proof/Word.lean ====
section
/-! DEFINITION. The two word types of the register interface and of shared memory (spec/00_scope.md R8, R11). -/

namespace Sys2Proof

/-- A register of the block: 32 bits (R8). -/
abbrev Word := BitVec 32

/-- One byte of shared linear memory (20_memory.md R60). -/
abbrev Byte := BitVec 8

end Sys2Proof
end

