-- ==== Sys2Proof/Config.lean ====
section
/-! DEFINITION. What an implementation fixes (spec/00_scope.md R8, the OPEN parameters) and the free values: opaque
constants without a body, so that no proof can see a value of one. -/

namespace Sys2Proof

/-- The OPEN implementation parameters (R8), each in a type that admits exactly the range R8 gives it. They stand in
`State`, and no step changes them, so that a statement over all states holds for every parameter (log 1). -/
structure Params where
  /-- BASE is 64 times this: "any 64-byte-aligned address". -/
  baseBlock : Nat
  /-- MEM_SIZE − 1, the last address of shared memory: 1 ≤ MEM_SIZE ≤ 2^32. -/
  memTop : BitVec 32
  /-- MAX_WIDTH − 1: 1 ≤ MAX_WIDTH ≤ 2^31 − 1. -/
  maxWidthLessOne : Fin 2147483647
  /-- MAX_HEIGHT − 1: 1 ≤ MAX_HEIGHT ≤ 2^31 − 1. -/
  maxHeightLessOne : Fin 2147483647
  deriving DecidableEq, Repr, Inhabited

/-- BASE: byte address of register offset 0x00 on the host bus (R8). -/
def Params.base (p : Params) : Nat := 64 * p.baseBlock

/-- MEM_SIZE: bytes of shared linear memory (R8). -/
def Params.memSize (p : Params) : Nat := p.memTop.toNat + 1

/-- MAX_WIDTH (R8). -/
def Params.maxWidth (p : Params) : Nat := p.maxWidthLessOne.val + 1

/-- MAX_HEIGHT (R8). -/
def Params.maxHeight (p : Params) : Nat := p.maxHeightLessOne.val + 1

/-- The parameters of the machine right after reset (log 1): no body, so every admitted value. -/
opaque Config.params : Params

/-- The byte an address holds that nothing has written since power-on (70_reset_and_hazards.md R251): a free value per
address (log 4). -/
opaque Config.powerOnByte : Nat → Byte

/-- The unspecified byte at an address, fresh for every draw number: scratch after completion (20_memory.md R63), buffer
and scratch after a hazard or a reset while busy (70 R252, R256), a host load while busy or before the end is observed
(R67, R257), input under unperformed stores (R258). Log 5. -/
opaque Config.freeByte : Nat → Nat → Byte

/-- Which of the remaining stages a read of STATUS while busy returns (10_state.md R36), fresh for every draw number.
Log 7. -/
opaque Config.freeStage : Nat → Nat

/-- The value a misaligned register read returns (10_state.md R41), fresh for every draw number. Log 10. -/
opaque Config.freeWord : Nat → Word

end Sys2Proof
end

