-- ==== Sys2Proof/Syntax.lean ====
section
/-! DEFINITION. The command set FE-CMD version 1 (spec/30_encoding.md), its operand names, and the assembler's commands
and pseudo-instructions (R92, R93). -/

namespace Sys2Proof

/-- The STRENGTH field of a CANNY command (R85): a preset, or `legacy`, resolved from SIGMA. -/
inductive StrengthField
  | low | medium | high | legacy
  deriving DecidableEq, Repr

/-- A strength preset (44_canny.md R181, R182). -/
inductive Strength
  | low | medium | high
  deriving DecidableEq, Repr

/-- A stroke preset (44_canny.md R191). -/
inductive Stroke
  | thin | medium | thick
  deriving DecidableEq, Repr

/-- An entry of the kernel ROM (41_convolution.md R121). -/
inductive KernelSel
  | gauss25 | bin7 | bin5 | bin3
  deriving DecidableEq, Repr

/-- One constructor per row of the opcode table: the twelve commands of R90 and the four reserved encodings of R91.
A field that a command does not read is ignored (R87), so it is no part of the instruction (log 23). -/
inductive Instr
  | grayW
  | grayI
  | sepia
  | blurG25
  | blurB7
  | blurB5
  | blurB3
  | sobelP
  | sobelF
  | cannyThin (strength : StrengthField)
  | cannyMedium (strength : StrengthField)
  | cannyThick (strength : StrengthField)
  | reservedOp0
  | reservedOp6_7
  | reservedOp8_F
  | reservedCannyStroke3
  deriving DecidableEq, Repr

/-- An assembler command (R92): a mnemonic and its register operands as name=value pairs, each optional. -/
structure AsmCommand where
  instr    : Instr
  pct      : Option Nat := none
  thr      : Option Nat := none
  sigma100 : Option Nat := none
  deriving DecidableEq, Repr

/-- The RS calls that the pseudo-instructions of R93 spell. A legacy sigma of `none` is NaN (log 21). -/
inductive RsCall
  | grayscale
  | sepia
  | blur
  | sobelEdges (percentile : Rat)
  | sobelFixed (threshold : Nat)
  | canny (strength : Strength := .medium) (stroke : Stroke := .medium)
  | cannyLegacy (sigma : Option Rat)
  deriving DecidableEq, Repr

/-- Why the assembler refuses a command or a call (R92, R93). -/
inductive AsmError
  | reservedEncoding       -- a reserved row has no assembler spelling
  | operandNotTaken        -- an operand the command's spelling does not have
  | pctRange               -- pct outside 0..16383
  | thrRange               -- thr outside 0..4294967295
  | sigmaRange             -- sigma100 outside 0..65535
  | percentileNotInSteps   -- p not a multiple of 1/10000 in [0, 1.6383]
  | sigmaIsNaN             -- "A NaN σ is refused by the assembler"
  deriving DecidableEq, Repr

end Sys2Proof
end

