-- ==== Sys2Proof/WellFormed.lean ====
section
/-! DEFINITION. Which instructions are commands (spec/30_encoding.md R90) and which are reserved encodings (R91), and
which assembler commands the grammar of R92 admits. -/

namespace Sys2Proof

/-- The reserved encodings of R91, which the table says are "not an instruction". -/
def Instr.isReserved : Instr → Bool
  | .grayW | .grayI | .sepia => false
  | .blurG25 | .blurB7 | .blurB5 | .blurB3 => false
  | .sobelP | .sobelF => false
  | .cannyThin _ | .cannyMedium _ | .cannyThick _ => false
  | .reservedOp0 | .reservedOp6_7 | .reservedOp8_F | .reservedCannyStroke3 => true

/-- A well-formed instruction is one of the twelve commands of R90. Its STRENGTH field admits all four values (R85). -/
def Instr.wellFormed (i : Instr) : Bool := !i.isReserved

/-- The CANNY rows of R92, which take `sigma100=`. -/
def Instr.isCanny : Instr → Bool
  | .cannyThin _ | .cannyMedium _ | .cannyThick _ => true
  | .grayW | .grayI | .sepia | .blurG25 | .blurB7 | .blurB5 | .blurB3 | .sobelP | .sobelF => false
  | .reservedOp0 | .reservedOp6_7 | .reservedOp8_F | .reservedCannyStroke3 => false

/-- The first rule of R92's grammar that an assembler command breaks, if any. -/
def AsmCommand.error (a : AsmCommand) : Option AsmError :=
  if a.instr.isReserved then some .reservedEncoding
  else if (a.pct.isSome && a.instr != .sobelP) || (a.thr.isSome && a.instr != .sobelF)
      || (a.sigma100.isSome && !a.instr.isCanny) then some .operandNotTaken
  else if a.pct.any (16383 < ·) then some .pctRange
  else if a.thr.any (4294967295 < ·) then some .thrRange
  else if a.sigma100.any (65535 < ·) then some .sigmaRange
  else none

/-- An assembler command that R92's grammar admits. -/
def AsmCommand.wellFormed (a : AsmCommand) : Bool := a.error.isNone

end Sys2Proof
end

