-- ==== Sys2Proof/Decode.lean ====
section
/-! DEFINITION. The command word (spec/30_encoding.md): the opcode table's rows, the decoder of R89, the encoder, and the
host's access to the decoder by table words. -/

namespace Sys2Proof

/-- The twelve bits of CMD that exist: bits 31:12 are RAZ/WI (10_state.md R24), so the engine always sees them as 0. -/
abbrev CmdWord := BitVec 12

/-- OP, bits 3:0 (R80, R81). -/
def CmdWord.op (w : CmdWord) : BitVec 4 := w.extractLsb' 0 4
/-- LUMA, bit 4 (R82). -/
def CmdWord.luma (w : CmdWord) : BitVec 1 := w.extractLsb' 4 1
/-- SMODE, bit 5 (R83). -/
def CmdWord.smode (w : CmdWord) : BitVec 1 := w.extractLsb' 5 1
/-- KSEL, bits 7:6 (R84). -/
def CmdWord.ksel (w : CmdWord) : BitVec 2 := w.extractLsb' 6 2
/-- STRENGTH, bits 9:8 (R85). -/
def CmdWord.strength (w : CmdWord) : BitVec 2 := w.extractLsb' 8 2
/-- STROKE, bits 11:10 (R86). -/
def CmdWord.stroke (w : CmdWord) : BitVec 2 := w.extractLsb' 10 2

/-- STRENGTH: 0 = low, 1 = medium, 2 = high, 3 = legacy (R85). -/
def StrengthField.decode (b : BitVec 2) : StrengthField :=
  match b.toNat with
  | 0 => .low
  | 1 => .medium
  | 2 => .high
  | _ => .legacy

/-- The bits of a STRENGTH value (R85). -/
def StrengthField.encode : StrengthField → BitVec 2
  | .low => 0#2
  | .medium => 1#2
  | .high => 2#2
  | .legacy => 3#2

/-- The decoder of R89. It is total: every word is one row of R90 or one reserved encoding of R91, and a reserved
encoding is rejected under its own name (`Instr.isReserved`), never read as a neighbour. -/
def decode (w : CmdWord) : Instr :=
  match w.op.toNat with
  | 0 => .reservedOp0
  | 1 => if w.luma = 0#1 then .grayW else .grayI
  | 2 => .sepia
  | 3 =>
    match w.ksel.toNat with
    | 0 => .blurG25
    | 1 => .blurB7
    | 2 => .blurB5
    | _ => .blurB3
  | 4 => if w.smode = 0#1 then .sobelP else .sobelF
  | 5 =>
    match w.stroke.toNat with
    | 0 => .cannyThin (StrengthField.decode w.strength)
    | 1 => .cannyMedium (StrengthField.decode w.strength)
    | 2 => .cannyThick (StrengthField.decode w.strength)
    | _ => .reservedCannyStroke3
  | 6 => .reservedOp6_7
  | 7 => .reservedOp6_7
  | _ => .reservedOp8_F

/-- R89's answer `Command | ConfigError`: the command, or the reserved encoding that makes it a ConfigError. -/
def decodeCommand (w : CmdWord) : Except Instr Instr :=
  if (decode w).isReserved then .error (decode w) else .ok (decode w)

/-- A row of the opcode table: a word belongs to it when the word's bits under `mask` are `pattern`. -/
structure OpcodeRow where
  mnemonic : String
  pattern  : CmdWord
  mask     : CmdWord
  deriving DecidableEq, Repr

/-- The row an instruction is encoded in (R90, R91). -/
def Instr.row : Instr → OpcodeRow
  | .grayW => { mnemonic := "GRAY.W", pattern := 0x001#12, mask := 0x01F#12 }
  | .grayI => { mnemonic := "GRAY.I", pattern := 0x011#12, mask := 0x01F#12 }
  | .sepia => { mnemonic := "SEPIA", pattern := 0x002#12, mask := 0x00F#12 }
  | .blurG25 => { mnemonic := "BLUR.G25", pattern := 0x003#12, mask := 0x0CF#12 }
  | .blurB7 => { mnemonic := "BLUR.B7", pattern := 0x043#12, mask := 0x0CF#12 }
  | .blurB5 => { mnemonic := "BLUR.B5", pattern := 0x083#12, mask := 0x0CF#12 }
  | .blurB3 => { mnemonic := "BLUR.B3", pattern := 0x0C3#12, mask := 0x0CF#12 }
  | .sobelP => { mnemonic := "SOBEL.P", pattern := 0x004#12, mask := 0x02F#12 }
  | .sobelF => { mnemonic := "SOBEL.F", pattern := 0x024#12, mask := 0x02F#12 }
  | .cannyThin _ => { mnemonic := "CANNY.THIN", pattern := 0x005#12, mask := 0xC0F#12 }
  | .cannyMedium _ => { mnemonic := "CANNY.MEDIUM", pattern := 0x405#12, mask := 0xC0F#12 }
  | .cannyThick _ => { mnemonic := "CANNY.THICK", pattern := 0x805#12, mask := 0xC0F#12 }
  | .reservedOp0 => { mnemonic := "RESERVED.OP0", pattern := 0x000#12, mask := 0x00F#12 }
  | .reservedOp6_7 => { mnemonic := "RESERVED.OP6_7", pattern := 0x006#12, mask := 0x00E#12 }
  | .reservedOp8_F => { mnemonic := "RESERVED.OP8_F", pattern := 0x008#12, mask := 0x008#12 }
  | .reservedCannyStroke3 => { mnemonic := "RESERVED.CANNY_STROKE3", pattern := 0xC05#12, mask := 0xC0F#12 }

/-- The sixteen rows of the opcode table, in its order (R90, R91). -/
def opcodeTable : List OpcodeRow :=
  [ Instr.grayW, .grayI, .sepia, .blurG25, .blurB7, .blurB5, .blurB3, .sobelP, .sobelF,
    .cannyThin .low, .cannyMedium .low, .cannyThick .low,
    .reservedOp0, .reservedOp6_7, .reservedOp8_F, .reservedCannyStroke3 ].map Instr.row

/-- A word belongs to a row (R90). -/
def OpcodeRow.matches (r : OpcodeRow) (w : CmdWord) : Bool := w &&& r.mask == r.pattern

/-- The word of an instruction: its fields in their places (R80), the fields it does not read 0. -/
def encode : Instr → CmdWord
  | .grayW => 0x001#12
  | .grayI => 0x001#12 ||| (1#12 <<< 4)
  | .sepia => 0x002#12
  | .blurG25 => 0x003#12 ||| (0#12 <<< 6)
  | .blurB7 => 0x003#12 ||| (1#12 <<< 6)
  | .blurB5 => 0x003#12 ||| (2#12 <<< 6)
  | .blurB3 => 0x003#12 ||| (3#12 <<< 6)
  | .sobelP => 0x004#12 ||| (0#12 <<< 5)
  | .sobelF => 0x004#12 ||| (1#12 <<< 5)
  | .cannyThin s => 0x005#12 ||| (s.encode.setWidth 12 <<< 8) ||| (0#12 <<< 10)
  | .cannyMedium s => 0x005#12 ||| (s.encode.setWidth 12 <<< 8) ||| (1#12 <<< 10)
  | .cannyThick s => 0x005#12 ||| (s.encode.setWidth 12 <<< 8) ||| (2#12 <<< 10)
  | .reservedOp0 => 0x000#12
  | .reservedOp6_7 => 0x006#12
  | .reservedOp8_F => 0x008#12
  | .reservedCannyStroke3 => 0x005#12 ||| (3#12 <<< 10)

/-- The bits of CMD that an instruction's decoding reads: its row's mask, and for CANNY the STRENGTH field (R85, R87). -/
def Instr.readMask : Instr → CmdWord
  | .cannyThin _ | .cannyMedium _ | .cannyThick _ => 0xF0F#12
  | .grayW => 0x01F#12
  | .grayI => 0x01F#12
  | .sepia => 0x00F#12
  | .blurG25 | .blurB7 | .blurB5 | .blurB3 => 0x0CF#12
  | .sobelP | .sobelF => 0x02F#12
  | .reservedOp0 => 0x00F#12
  | .reservedOp6_7 => 0x00E#12
  | .reservedOp8_F => 0x008#12
  | .reservedCannyStroke3 => 0xC0F#12

/-- The word of an instruction with the bits it does not read taken from `fill` (R87: "any value in it gives the same
command"). -/
def encodeWith (i : Instr) (fill : CmdWord) : CmdWord := encode i ||| (fill &&& ~~~i.readMask)

/-- The twelve bits that a table word of `nbits` bits leaves in CMD: bits 31:12 are RAZ/WI (10_state.md R24). -/
def cmdOfTableWord (nbits w : Nat) : CmdWord := BitVec.ofNat 12 (w % 2 ^ nbits)

/-- The instruction the decoder reads from a table word. The decoder refuses no word (R91). -/
def decodeTableWord (nbits w : Nat) : Option Instr := some (decode (cmdOfTableWord nbits w))

end Sys2Proof
end

