-- ==== Sys2Proof/Machine/State.lean ====
section
/-! DEFINITION. The machine's state as plain data (spec/10_state.md, 20_memory.md R60), the host's events, the reasons a
step can stop, and the state right after reset. -/

namespace Sys2Proof.Machine

open Sys2Proof

/-- Why a step stops with a fault. -/
inductive Fault
  /-- Raised by the `busError` event while a command runs: a platform bus error on a DMA access to an in-range address,
  for which the engine has no error code (60_exceptions.md R231, 93_implementation_defined.md I9 "fault"). Safe: the
  machine stops where the platform leaves the spec. -/
  | busError
  /-- Raised by a host load or store of a shared-memory address outside 0 .. MEM_SIZE−1, which does not exist
  (20_memory.md R60). Safe (log 12). -/
  | memoryAddress (addr : Nat)
  deriving DecidableEq, Repr

/-- Why a step is refused. -/
inductive Refusal
  /-- An instruction that has no meaning yet; no arm of `exec` raises it any more. Safe. -/
  | notModelled (mnemonic : String)
  /-- Raised by a host bus access outside the engine's 64-byte block BASE .. BASE+63: another device, which the spec does
  not describe (60_exceptions.md R239). Safe (log 11). -/
  | otherDevice (addr : Nat)
  deriving DecidableEq, Repr

/-- The error codes of 60_exceptions.md R221. Codes 7 .. 15 are never reported. -/
inductive ErrCode
  | none | config | contract | size | range | scratch | overlap
  deriving DecidableEq, Repr

/-- The sequencer's stages (10_state.md R36). Codes 12 .. 15 are never reported. -/
inductive Stage
  | idle | check | point | blurH | blurV | grad | select | nms | thresh | hyst | dilate | write
  deriving DecidableEq, Repr

/-- The registers of the block, in the order of their offsets (10_state.md, register map). -/
inductive Reg
  | id | ctrl | status | cmd | bufAddr | bufLen | width | height
  | scrAddr | scrLen | pct | fthr | sigma | result | reserved38 | reserved3C
  deriving DecidableEq, Repr

/-- The width of a host access to the register block (10_state.md R41): 8, 16 or 32 bits. -/
inductive AccessWidth
  | byte | half | word
  deriving DecidableEq, Repr

/-- Shared memory: (address, byte) pairs at strictly rising addresses. An unlisted address has no written byte
(70_reset_and_hazards.md R251, log 4). -/
abbrev Memory := List Host.Cell

/-- The configuration registers, the ten that an accepted START latches (10_state.md R36). Reserved bits are RAZ/WI and
have no storage. -/
structure ConfigRegs where
  cmd     : CmdWord      -- R24, bits 11:0
  bufAddr : Word         -- R25
  bufLen  : Word         -- R26
  width   : Word         -- R27
  height  : Word         -- R28
  scrAddr : Word         -- R29
  scrLen  : Word         -- R30
  pct     : BitVec 14    -- R31, PCT.P
  fthr    : Word         -- R32
  sigma   : BitVec 16    -- R33, SIGMA.S100
  deriving DecidableEq, Repr

/-- What happens next outside the engine's datapath, in the order the platform serialises it (60_exceptions.md R236;
log 2). The host primitives are those of 30_encoding.md R92. -/
inductive Event
  /-- The engine moves: its step, if it is busy (70_reset_and_hazards.md R262). -/
  | engine
  /-- A host write of the register block at a bus address. -/
  | regWrite (addr : Nat) (width : AccessWidth) (value : Word)
  /-- A host read of the register block at a bus address. -/
  | regRead (addr : Nat) (width : AccessWidth)
  /-- MEMW: a performed host store of bytes at increasing addresses of shared memory. -/
  | memWrite (addr : Nat) (bytes : List Byte)
  /-- MEMR: a host load of `count` bytes. -/
  | memRead (addr : Nat) (count : Nat)
  /-- A host store issued and not yet performed (70_reset_and_hazards.md R258; log 13). -/
  | memPost (addr : Nat) (bytes : List Byte)
  /-- The `index`-th outstanding byte store is performed (log 13). -/
  | memPerform (index : Nat)
  /-- WAIT: `RD reg` again and again until bits hi:lo equal `value`; `polls` failed reads go by before the engine moves
  (log 16). -/
  | wait (reg : Reg) (hi lo : Nat) (value : Nat) (polls : Nat)
  /-- Wait for the interrupt line (95_test_vectors.md P3; log 16). -/
  | waitIrq
  /-- The platform's reset input (70_reset_and_hazards.md R250). -/
  | reset
  /-- The platform answers a DMA access with a bus error (93_implementation_defined.md I9). -/
  | busError
  deriving DecidableEq, Repr

/-- A command that has ended and whose end the host has not observed yet (70_reset_and_hazards.md R257; log 26): the
configuration it ran on, and whether it completed or failed its checks. -/
structure EndedCommand where
  regs      : ConfigRegs
  completed : Bool
  deriving DecidableEq, Repr

/-- What the last host read returned (log 18). -/
inductive Reply
  | none
  | value (v : Word)
  | bytes (bs : List Byte)
  deriving DecidableEq, Repr

/-- The machine: registers, sequencer, shared memory, the OPEN parameters, and the model's own bookkeeping of the
platform (INVENTORY.md, State). -/
structure State where
  /-- BASE, MEM_SIZE, MAX_WIDTH, MAX_HEIGHT (00_scope.md R8); no step changes them. -/
  params : Params
  /-- CTRL.IRQ_EN (10_state.md R22). -/
  irqEn : Bool
  /-- STATUS.BUSY, and the sequencer's `busy` (R23, R36). -/
  busy : Bool
  /-- STATUS.DONE (R23). -/
  done : Bool
  /-- STATUS.ERR (R23). -/
  err : Bool
  /-- STATUS.ERRCODE (R23). -/
  errCode : ErrCode
  /-- STATUS.STAGE, and the sequencer's `stage` (R23, R36). -/
  stage : Stage
  /-- The configuration registers (R24 to R33). -/
  regs : ConfigRegs
  /-- RESULT (R34). -/
  result : Word
  /-- `cmd_latched` (R36). -/
  latched : ConfigRegs
  /-- Shared memory as it stood at the accepted START: the input planes' bytes (70_reset_and_hazards.md R255). -/
  input : Memory
  /-- The draw number of the input bytes when the host broke R258; none when the input is what `input` holds. -/
  inputDraw : Option Nat
  /-- Shared linear memory (20_memory.md R60). -/
  mem : Memory
  /-- The host has written a buffer or scratch byte while BUSY = 1 (70_reset_and_hazards.md R256). -/
  touched : Bool
  /-- The commands that have ended since the host last observed an end, latest first (R257). -/
  unseen : List EndedCommand
  /-- Host stores issued and not yet performed, oldest first (R258). -/
  posted : List Host.Cell
  /-- The platform's events still to come (log 2). -/
  events : List Event
  /-- What the last host read returned. -/
  reply : Reply
  /-- How many times a free value has been drawn (log 5). -/
  draws : Nat
  deriving DecidableEq, Repr

/-- Which agent moves next, and from which state: the engine, or the host, the platform or nobody, whose move is already
made. -/
inductive Move
  | engine (s : State)
  | other (o : Host.Outcome State Fault Refusal)

/-- The reset values of the configuration registers (10_state.md register map, R42). -/
def ConfigRegs.reset : ConfigRegs :=
  { cmd := 0x500#12, bufAddr := 0#32, bufLen := 0#32, width := 0#32, height := 0#32, scrAddr := 0#32, scrLen := 0#32,
    pct := 8500#14, fthr := 4000#32, sigma := 100#16 }

/-- The machine right after reset (10_state.md R42, 70_reset_and_hazards.md R250): every register at its reset value, the
sequencer IDLE, no byte of memory written, nothing yet to come. The fields the spec gives no value are those of log 1,
2, 5, 8, 9, 13, 14, 18 and 26. -/
def State.reset : State :=
  { params := Config.params, irqEn := false, busy := false, done := false, err := false, errCode := .none, stage := .idle,
    regs := ConfigRegs.reset, result := 0#32, latched := ConfigRegs.reset, input := [], inputDraw := none, mem := [],
    touched := false, unseen := [], posted := [], events := [], reply := .none, draws := 0 }

end Sys2Proof.Machine
end

