-- ==== Sys2Proof/Machine/Ops.lean ====
section
/-! DEFINITION. The shared operations: the arithmetic of spec/00_scope.md R10, shared memory, the ranges a command owns,
the checks (60_exceptions.md R223), the failure (R226) and the completion (R229) of a command, the accepted START
(70_reset_and_hazards.md R255) and reset (R250, R252). -/

namespace Sys2Proof

/-- Scratch bytes per pixel (R61); a reserved encoding has no requirement (log 15). -/
def Instr.scratchPerPixel : Instr → Nat
  | .grayW | .grayI | .sepia => 0
  | .blurG25 | .blurB7 | .blurB5 | .blurB3 => 4
  | .sobelP | .sobelF => 5
  | .cannyThin _ | .cannyMedium _ | .cannyThick _ => 16
  | .reservedOp0 | .reservedOp6_7 | .reservedOp8_F | .reservedCannyStroke3 => 0

/-- The part of `n` bytes from `base` that lies in shared memory. -/
def Params.clip (p : Params) (base n : Nat) : Nat := min n (p.memSize - base)

end Sys2Proof

namespace Sys2Proof.Machine

open Sys2Proof

/-- a/b rounded to the nearest integer, an exact half up (R10). -/
def rdiv (a b : Nat) : Nat := (2 * a + b) / (2 * b)

/-- lo if v < lo, hi if v > hi, else v (R10). -/
def clamp (v lo hi : Int) : Int := if v < lo then lo else if v > hi then hi else v

/-! ## Shared memory (20_memory.md) -/

/-- The byte written at an address, if any was. -/
def Memory.written (m : Memory) (a : Nat) : Option Byte :=
  match m with
  | [] => none
  | c :: rest => if c.1 = a then some c.2 else Memory.written rest a

/-- `MemRead(a, 1)`: the byte at an address; where nothing has been written since power-on, a free byte (R64, 70 R251). -/
def Memory.byteAt (m : Memory) (a : Nat) : Byte := (Memory.written m a).getD (Config.powerOnByte a)

/-- The bytes at addresses a .. a+n−1 replaced by f of their addresses; every other byte kept. -/
def Memory.fill (m : Memory) (a n : Nat) (f : Nat → Byte) : Memory :=
  m.filter (fun c => c.1 < a) ++ (List.range n).map (fun k => (a + k, f (a + k))) ++ m.filter (fun c => a + n ≤ c.1)

/-- Bytes stored at increasing addresses from a. -/
def Memory.store (m : Memory) (a : Nat) (bs : List Byte) : Memory :=
  Memory.fill m a bs.length (fun x => bs.getD (x - a) 0#8)

/-- The canonical form: addresses strictly rising, so no address twice. -/
abbrev Memory.wf (m : Memory) : Prop := m.Pairwise (fun c d => c.1 < d.1)

/-- Every listed address lies below `n`. -/
abbrev Memory.within (m : Memory) (n : Nat) : Prop := ∀ c ∈ m, c.1 < n

/-! ## The operands of the checks (20_memory.md R61, R62) -/

/-- W = s32(WIDTH) (10_state.md R27). -/
def ConfigRegs.w (l : ConfigRegs) : Int := l.width.toInt

/-- H = s32(HEIGHT) (10_state.md R28). -/
def ConfigRegs.h (l : ConfigRegs) : Int := l.height.toInt

/-- N = W × H, 0 where a side is not positive (log 15). -/
def ConfigRegs.pixels (l : ConfigRegs) : Nat := l.w.toNat * l.h.toNat

/-- The length 4·W·H of the pixel buffer (R62). -/
def ConfigRegs.bufBytes (l : ConfigRegs) : Nat := 4 * l.pixels

/-- REQ, the command's scratch requirement in bytes (R61). -/
def req (i : Instr) (l : ConfigRegs) : Nat := i.scratchPerPixel * l.pixels

/-- The instruction the sequencer runs: the latched CMD word, decoded (30_encoding.md R89). -/
def State.running (s : State) : Instr := decode s.latched.cmd

/-- Address `a` lies in the `n` bytes from `base`. -/
def inRange (a base n : Nat) : Bool := base ≤ a && a < base + n

/-- A byte of the buffer or of the scratch range that a configuration names for its command (R61, R62; log 15). -/
def ConfigRegs.owns (l : ConfigRegs) (a : Nat) : Bool :=
  inRange a l.bufAddr.toNat l.bufBytes || inRange a l.scrAddr.toNat (req (decode l.cmd) l)

/-- A byte of the running command's buffer or scratch range (R61, R62). -/
def State.owns (s : State) (a : Nat) : Bool := s.latched.owns a

/-- One of the n bytes from `addr` is a buffer or scratch byte of a configuration. -/
def ConfigRegs.ownsSome (l : ConfigRegs) (addr n : Nat) : Bool := (List.range n).any fun k => l.owns (addr + k)

/-- A byte of the ranges of a command whose end the host has not observed (70_reset_and_hazards.md R257; log 26). -/
def State.ownsUnseen (s : State) (a : Nat) : Bool := s.unseen.any fun e => e.regs.owns a

/-- Every byte of a configuration's buffer and scratch range that lies in shared memory, free under one draw number. -/
def Memory.freeRanges (m : Memory) (p : Params) (l : ConfigRegs) (draw : Nat) : Memory :=
  Memory.fill
    (Memory.fill m l.bufAddr.toNat (p.clip l.bufAddr.toNat l.bufBytes) (Config.freeByte draw))
    l.scrAddr.toNat (p.clip l.scrAddr.toNat (req (decode l.cmd) l)) (Config.freeByte draw)

/-! ## The checks (60_exceptions.md R223) -/

/-- The code of the first check that fails, in the order of R223; `none` when all pass. -/
def check (i : Instr) (p : Params) (l : ConfigRegs) : ErrCode :=
  if i.isReserved then .config
  else if l.w ≤ 0 ∨ l.h ≤ 0 then .contract
  else if (l.bufLen.toNat : Int) ≠ 4 * l.w * l.h then .contract
  else if l.w > p.maxWidth ∨ l.h > p.maxHeight then .size
  else if l.bufAddr.toNat + l.bufLen.toNat > p.memSize then .range
  else if req i l > 0 ∧ l.scrAddr.toNat + req i l > p.memSize then .range
  else if req i l > l.scrLen.toNat then .scratch
  else if req i l > 0 ∧ l.bufAddr.toNat < l.scrAddr.toNat + req i l
      ∧ l.scrAddr.toNat < l.bufAddr.toNat + l.bufLen.toNat then .overlap
  else .none

/-! ## The end of a command -/

/-- The failure effect of `raise CmdError(code)` (R226), the one shared operation that takes an error: the registers,
RESULT and memory stay; the input planes exist no longer (10_state.md R40). -/
def State.fail (s : State) (code : ErrCode) : State :=
  { s with busy := false, stage := .idle, done := true, err := true, errCode := code,
           input := [], inputDraw := none, touched := false, unseen := ⟨s.latched, false⟩ :: s.unseen }

/-- Memory after a successful command (20_memory.md R63): `out k` is the byte at BUF_ADDR + k, the scratch range is free,
and after a hazard (70_reset_and_hazards.md R256) the buffer is free as well. -/
def State.writeBack (s : State) (i : Instr) (out : Nat → Byte) : Memory :=
  Memory.fill
    (Memory.fill s.mem s.latched.bufAddr.toNat s.latched.bufBytes
      (fun a => if s.touched then Config.freeByte s.draws a else out (a - s.latched.bufAddr.toNat)))
    s.latched.scrAddr.toNat (req i s.latched) (Config.freeByte s.draws)

/-- The completion effect of `complete(result)` (R229) after the memory effect of 20_memory.md R63. -/
def State.complete (s : State) (i : Instr) (out : Nat → Byte) (result : Nat) : State :=
  { s with mem := s.writeBack i out, result := BitVec.ofNat 32 result, busy := false, stage := .idle, done := true,
           input := [], inputDraw := none, touched := false, unseen := ⟨s.latched, true⟩ :: s.unseen,
           draws := s.draws + 1 }

/-! ## START and reset (70_reset_and_hazards.md) -/

/-- The host broke R258: a store of the input image (the buffer) or of scratch initialisation (the scratch range) is issued
and not yet performed (log 13). -/
def State.inputUnperformed (s : State) : Bool := s.posted.any (fun c => s.regs.owns c.1)

/-- An accepted START that writes IRQ_EN (R255). -/
def State.acceptStart (s : State) (irqEn : Bool) : State :=
  { s with irqEn := irqEn, done := false, err := false, errCode := .none, busy := true, stage := .check,
           latched := s.regs, input := s.mem, inputDraw := if s.inputUnperformed then some s.draws else none,
           touched := false, draws := s.draws + 1 }

/-- Shared memory after a reset: unchanged when idle (R251); when busy, every byte of the buffer and of the scratch range
is free (R252). -/
def State.memAfterReset (s : State) : Memory :=
  if s.busy then s.mem.freeRanges s.params s.latched s.draws else s.mem

/-- The platform's reset input (R250): every register and the sequencer take their reset values; what belongs to the
platform stays (log 17). -/
def State.platformReset (s : State) : State :=
  { State.reset with
    params := s.params, mem := s.memAfterReset, unseen := s.unseen, posted := s.posted, events := s.events,
    reply := s.reply, draws := s.draws + 1 }

end Sys2Proof.Machine
end

