-- ==== Sys2Proof/Machine/Operands.lean ====
section
/-! DEFINITION. The operands of a command: planes and pixels (spec/00_scope.md R13, 20_memory.md R62), the input planes,
and the resolved strength preset (44_canny.md R181, R182). -/

namespace Sys2Proof.Machine

open Sys2Proof

/-- A pixel: one byte per channel, in the order R, G, B, A (20_memory.md R62). -/
structure Pixel where
  r : Byte
  g : Byte
  b : Byte
  a : Byte
  deriving DecidableEq, Repr, Inhabited

/-- The byte of channel c: 0 = R, 1 = G, 2 = B, 3 = A (R62). -/
def Pixel.channel (p : Pixel) (c : Nat) : Byte :=
  match c with
  | 0 => p.r
  | 1 => p.g
  | 2 => p.b
  | _ => p.a

/-- A pixel from its four channel values, each in 0 .. 255. -/
def Pixel.ofNats (r g b a : Nat) : Pixel :=
  { r := BitVec.ofNat 8 r, g := BitVec.ofNat 8 g, b := BitVec.ofNat 8 b, a := BitVec.ofNat 8 a }

/-- Opaque white. -/
def Pixel.white : Pixel := Pixel.ofNats 255 255 255 255
/-- Opaque black. -/
def Pixel.black : Pixel := Pixel.ofNats 0 0 0 255
/-- Transparent black. -/
def Pixel.clear : Pixel := Pixel.ofNats 0 0 0 0

/-- A plane (R13): rows, top row first; `P[y][x]`. It exists only inside one engine step (10_state.md R40). -/
abbrev Plane (α : Type) := List (List α)

/-- P[y][x]. -/
def Plane.get {α : Type} [Inhabited α] (p : Plane α) (y x : Nat) : α := (List.getD p y []).getD x default

/-- The W×H plane whose element at row y, column x is f y x. -/
def Plane.tabulate {α : Type} (W H : Nat) (f : Nat → Nat → α) : Plane α :=
  (List.range H).map fun y => (List.range W).map fun x => f y x

/-- P[y][x] <- v. -/
def Plane.put {α : Type} (p : Plane α) (y x : Nat) (v : α) : Plane α := List.set p y ((List.getD p y []).set x v)

/-- An interior pixel: 1 ≤ x ≤ W−2 and 1 ≤ y ≤ H−2 (R13). -/
def interior (W H y x : Nat) : Bool := 1 ≤ x && x + 2 ≤ W && 1 ≤ y && y + 2 ≤ H

/-- The byte of the input at an address: as it stood at the accepted START (20_memory.md R62), or a free byte after the
host broke 70_reset_and_hazards.md R258. -/
def State.inputByte (s : State) (a : Nat) : Byte :=
  match s.inputDraw with
  | some d => Config.freeByte d a
  | none => s.input.byteAt a

/-- addr(x, y, 0) (20_memory.md R62). -/
def ConfigRegs.pixelAddr (l : ConfigRegs) (y x : Nat) : Nat := l.bufAddr.toNat + 4 * (y * l.w.toNat + x)

/-- In(0..3)[y][x] (20_memory.md R62). -/
def State.inputPixel (s : State) (y x : Nat) : Pixel :=
  let a := s.latched.pixelAddr y x
  { r := s.inputByte a, g := s.inputByte (a + 1), b := s.inputByte (a + 2), a := s.inputByte (a + 3) }

/-- The four input planes, read together (20_memory.md R62). -/
def State.inputPlane (s : State) : Plane Pixel :=
  Plane.tabulate s.latched.w.toNat s.latched.h.toNat s.inputPixel

/-- The byte at offset k of the buffer that holds an image of width W (20_memory.md R62, R63). -/
def imageByte (W : Nat) (out : Plane Pixel) (k : Nat) : Byte := (Plane.get out (k / 4 / W) (k / 4 % W)).channel (k % 4)

/-- A channel of an image as a plane of numbers. -/
def channelPlane (W H : Nat) (img : Plane Pixel) (c : Nat) : Plane Nat :=
  Plane.tabulate W H fun y x => ((Plane.get img y x).channel c).toNat

/-- The strength preset: STRENGTH, or for `legacy` the sigma shim on SIGMA.S100 (44_canny.md R181). -/
def resolveStrength (f : StrengthField) (s100 : Nat) : Strength :=
  match f with
  | .low => .low
  | .medium => .medium
  | .high => .high
  | .legacy => if s100 ≥ 180 then .low else if s100 < 100 then .high else .medium

end Sys2Proof.Machine
end

