-- ==== Sys2Proof/Machine/Command.lean ====
section
/-! DEFINITION. The shape every command shares (spec/70_reset_and_hazards.md R262): the checks, then either the failure or
the output written over the buffer and the completion. -/

namespace Sys2Proof.Machine

open Sys2Proof

/-- What a command computes from its input (20_memory.md R62): the output image and the value for RESULT. -/
structure Work where
  out    : Plane Pixel
  result : Nat
  deriving DecidableEq, Repr

/-- The engine step of R262 for the command `i`, whose rule is `f`: a function of W, H and the input planes. -/
def runCommand (i : Instr) (s : State) (f : Nat → Nat → Plane Pixel → Work) : Host.Outcome State Fault Refusal :=
  match check i s.params s.latched with
  | .none =>
    let W := s.latched.w.toNat
    let work := f W s.latched.h.toNat s.inputPlane
    .next (s.complete i (imageByte W work.out) work.result)
  | code => .next (s.fail code)

end Sys2Proof.Machine
end

