-- ==== Sys2Proof/Machine/Convolution.lean ====
section
/-! DEFINITION. The FIR unit (spec/41_convolution.md): the kernel ROM, the two passes, BLUR.G25, BLUR.B7, BLUR.B5,
BLUR.B3. -/

namespace Sys2Proof.Machine

open Sys2Proof

/-- A kernel (R120): the taps t[−r..r] and the norm. -/
structure Kernel where
  taps : List Nat
  norm : Nat
  deriving DecidableEq, Repr

/-- r = (n − 1)/2 (R120). -/
def Kernel.radius (K : Kernel) : Nat := (K.taps.length - 1) / 2

/-- The kernel ROM (R121, R124). -/
def kernelRom : KernelSel → Kernel
  | .gauss25 =>
    { taps := [1613, 1810, 2010, 2210, 2407, 2594, 2768, 2925, 3059, 3168, 3249, 3298] ++ [3314]
        ++ [3298, 3249, 3168, 3059, 2925, 2768, 2594, 2407, 2210, 2010, 1810, 1613],
      norm := 65536 }
  | .bin7 => { taps := [1, 6, 15, 20, 15, 6, 1], norm := 64 }
  | .bin5 => { taps := [1, 4, 6, 4, 1], norm := 16 }
  | .bin3 => { taps := [1, 2, 1], norm := 4 }

/-- Σ_{k=−r..r} t[k] × sample k (R125). -/
def Kernel.accumulate (K : Kernel) (sample : Int → Nat) : Nat :=
  (K.taps.zipIdx.map fun tj => tj.1 * sample ((tj.2 : Int) - K.radius)).sum

/-- clamp(v, 0, n−1): clamp-to-edge of a sample coordinate (R125). -/
def clampIndex (v : Int) (n : Nat) : Nat := (clamp v 0 ((n : Int) - 1)).toNat

/-- The horizontal pass (R125). -/
def passH (K : Kernel) (W H : Nat) (P : Plane Nat) : Plane Nat :=
  Plane.tabulate W H fun y x => rdiv (K.accumulate fun k => Plane.get P y (clampIndex (x + k) W)) K.norm

/-- The vertical pass (R126). -/
def passV (K : Kernel) (W H : Nat) (P : Plane Nat) : Plane Nat :=
  Plane.tabulate W H fun y x => rdiv (K.accumulate fun k => Plane.get P (clampIndex (y + k) H) x) K.norm

/-- blur2d(P, K) = passV(passH(P, K), K): horizontal first (R126). -/
def blur2d (K : Kernel) (W H : Nat) (P : Plane Nat) : Plane Nat := passV K W H (passH K W H P)

/-- BLUR per channel, alpha included; it reports 0 (R127). -/
def blurImage (K : Kernel) (W H : Nat) (img : Plane Pixel) : Work :=
  let r := blur2d K W H (channelPlane W H img 0)
  let g := blur2d K W H (channelPlane W H img 1)
  let b := blur2d K W H (channelPlane W H img 2)
  let a := blur2d K W H (channelPlane W H img 3)
  { out := Plane.tabulate W H fun y x =>
      Pixel.ofNats (Plane.get r y x) (Plane.get g y x) (Plane.get b y x) (Plane.get a y x),
    result := 0 }

/-- BLUR.G25 (R127). -/
def execBlurG25 (s : State) : Host.Outcome State Fault Refusal := runCommand .blurG25 s (blurImage (kernelRom .gauss25))

/-- BLUR.B7 (R128). -/
def execBlurB7 (s : State) : Host.Outcome State Fault Refusal := runCommand .blurB7 s (blurImage (kernelRom .bin7))

/-- BLUR.B5 (R129). -/
def execBlurB5 (s : State) : Host.Outcome State Fault Refusal := runCommand .blurB5 s (blurImage (kernelRom .bin5))

/-- BLUR.B3 (R130). -/
def execBlurB3 (s : State) : Host.Outcome State Fault Refusal := runCommand .blurB3 s (blurImage (kernelRom .bin3))

end Sys2Proof.Machine
end

