-- ==== Sys2Proof/Machine/Gradient.lean ====
section
/-! DEFINITION. The Sobel gradient unit (spec/42_gradient.md): a stage of SOBEL and CANNY. -/

namespace Sys2Proof.Machine

open Sys2Proof

/-- A direction class, in degrees (R145). -/
inductive Direction
  | d0 | d45 | d90 | d135
  deriving DecidableEq, Repr, Inhabited

/-- The gradient field at a pixel (R140): Gx and Gy (s12), the squared magnitude S (u21), the direction class D. -/
structure GradCell where
  gx : Int
  gy : Int
  s  : Nat
  d  : Direction
  deriving DecidableEq, Repr, Inhabited

/-- Gx from the neighbourhood p1 .. p9 (R142): right column minus left column. -/
def sobelX (p1 p3 p4 p6 p7 p9 : Int) : Int := (p3 + 2 * p6 + p9) - (p1 + 2 * p4 + p7)

/-- Gy from the neighbourhood p1 .. p9 (R142): bottom row minus top row. -/
def sobelY (p1 p2 p3 p7 p8 p9 : Int) : Int := (p7 + 2 * p8 + p9) - (p1 + 2 * p2 + p3)

/-- S = Gx² + Gy² (R143). -/
def squaredMagnitude (gx gy : Int) : Nat := (gx * gx + gy * gy).toNat

/-- The direction quantizer, exact in integers (R145). -/
def qdir (gx gy : Int) : Direction :=
  let ax : Int := gx.natAbs
  let ay : Int := gy.natAbs
  if ax = 0 ∧ ay = 0 then .d0
  else if (ax + ay) ^ 2 < 2 * ax ^ 2 then .d0
  else if ay ≥ ax ∧ (ay - ax) ^ 2 ≥ 2 * ax ^ 2 then .d90
  else if gx * gy > 0 then .d45
  else .d135

/-- The gradient at a border pixel: all zero (R140). -/
def GradCell.border : GradCell := { gx := 0, gy := 0, s := 0, d := .d0 }

/-- The gradient at an interior pixel, from its 3×3 neighbourhood (R141). -/
def gradInterior (Q : Plane Nat) (y x : Nat) : GradCell :=
  let p (v u : Nat) : Int := (Plane.get Q v u : Nat)
  let p1 := p (y - 1) (x - 1); let p2 := p (y - 1) x; let p3 := p (y - 1) (x + 1)
  let p4 := p y (x - 1); let p6 := p y (x + 1)
  let p7 := p (y + 1) (x - 1); let p8 := p (y + 1) x; let p9 := p (y + 1) (x + 1)
  let gx := sobelX p1 p3 p4 p6 p7 p9
  let gy := sobelY p1 p2 p3 p7 p8 p9
  { gx := gx, gy := gy, s := squaredMagnitude gx gy, d := qdir gx gy }

/-- The gradient field of a plane (R140). -/
def gradient (W H : Nat) (Q : Plane Nat) : Plane GradCell :=
  Plane.tabulate W H fun y x => if interior W H y x then gradInterior Q y x else GradCell.border

/-- The S plane of a gradient field. -/
def magnitudePlane (W H : Nat) (G : Plane GradCell) : Plane Nat := Plane.tabulate W H fun y x => (Plane.get G y x).s

end Sys2Proof.Machine
end

