-- ==== Sys2Proof/Machine/Pointwise.lean ====
section
/-! DEFINITION. Pointwise colour transforms (spec/40_pointwise.md): GRAY.W, GRAY.I, SEPIA, and the luma function of the
gradient path. -/

namespace Sys2Proof.Machine

open Sys2Proof

/-- The weighted luma, an exact half up (R101). -/
def lumaW (R G B : Nat) : Nat := rdiv (21 * R + 72 * G + 7 * B) 100

/-- The integer luma, a truncating shift (R102, R103). -/
def lumaI (R G B : Nat) : Nat := (77 * R + 150 * G + 29 * B) >>> 8

/-- R = G = B = the luma, alpha kept (R101, R102). -/
def grayPixel (luma : Nat → Nat → Nat → Nat) (p : Pixel) : Pixel :=
  let l := BitVec.ofNat 8 (luma p.r.toNat p.g.toNat p.b.toNat)
  { r := l, g := l, b := l, a := p.a }

/-- One channel of the sepia matrix: rounded half up, clamped to 255 (R104). -/
def sepiaChannel (cr cg cb : Nat) (p : Pixel) : Byte :=
  BitVec.ofNat 8 (min 255 (rdiv (cr * p.r.toNat + cg * p.g.toNat + cb * p.b.toNat) 1000))

/-- The sepia matrix on a pixel, alpha kept (R104). -/
def sepiaPixel (p : Pixel) : Pixel :=
  { r := sepiaChannel 393 769 189 p, g := sepiaChannel 349 686 168 p, b := sepiaChannel 272 534 131 p, a := p.a }

/-- A pointwise transform of an image (R100); it reports 0 (10_state.md R34). -/
def pointwise (f : Pixel → Pixel) (W H : Nat) (img : Plane Pixel) : Work :=
  { out := Plane.tabulate W H fun y x => f (Plane.get img y x), result := 0 }

/-- The luma plane of SOBEL and CANNY (R103); alpha is ignored. -/
def lumaPlane (W H : Nat) (img : Plane Pixel) : Plane Nat :=
  Plane.tabulate W H fun y x =>
    let p := Plane.get img y x
    lumaI p.r.toNat p.g.toNat p.b.toNat

/-- GRAY.W (R101). -/
def execGrayW (s : State) : Host.Outcome State Fault Refusal := runCommand .grayW s (pointwise (grayPixel lumaW))

/-- GRAY.I (R102). -/
def execGrayI (s : State) : Host.Outcome State Fault Refusal := runCommand .grayI s (pointwise (grayPixel lumaI))

/-- SEPIA (R104). -/
def execSepia (s : State) : Host.Outcome State Fault Refusal := runCommand .sepia s (pointwise sepiaPixel)

end Sys2Proof.Machine
end

