-- ==== Sys2Proof/Machine/Canny.lean ====
section
/-! DEFINITION. The Canny pipeline (spec/44_canny.md): NMS comparator, double threshold, hysteresis state machine,
dilation, and CANNY.THIN, CANNY.MEDIUM, CANNY.THICK. -/

namespace Sys2Proof.Machine

open Sys2Proof

/-- A strength preset: kernel, high fraction and low fraction as exact rationals num/den (R182). -/
structure Preset where
  kernel  : KernelSel
  highNum : Nat
  highDen : Nat
  lowNum  : Nat
  lowDen  : Nat
  deriving DecidableEq, Repr

/-- The preset table (R182). -/
def presetTable : Strength → Preset
  | .low => { kernel := .bin7, highNum := 1, highDen := 4, lowNum := 1, lowDen := 10 }
  | .medium => { kernel := .bin5, highNum := 1, highDen := 5, lowNum := 2, lowDen := 25 }
  | .high => { kernel := .bin3, highNum := 3, highDen := 20, lowNum := 3, lowDen := 50 }

/-- The two neighbours (y, x) along a direction at an interior pixel, y downwards (R185). -/
def nmsNeighbours (d : Direction) (y x : Nat) : (Nat × Nat) × (Nat × Nat) :=
  match d with
  | .d0 => ((y, x - 1), (y, x + 1))
  | .d90 => ((y - 1, x), (y + 1, x))
  | .d45 => ((y + 1, x + 1), (y - 1, x - 1))
  | .d135 => ((y + 1, x - 1), (y - 1, x + 1))

/-- The NMS comparator at a pixel: S where it is ≥ both neighbours, else 0; ties keep the pixel (R185). -/
def nmsAt (G : Plane GradCell) (y x : Nat) : Nat :=
  let c := Plane.get G y x
  let n := nmsNeighbours c.d y x
  if (Plane.get G n.1.1 n.1.2).s ≤ c.s ∧ (Plane.get G n.2.1 n.2.2).s ≤ c.s then c.s else 0

/-- The plane N (R185). -/
def nms (W H : Nat) (G : Plane GradCell) : Plane Nat :=
  Plane.tabulate W H fun y x => if interior W H y x then nmsAt G y x else 0

/-- Smax, the largest value of N over all pixels (R186). -/
def planeMax (N : Plane Nat) : Nat := N.foldl (fun m row => row.foldl max m) 0

/-- A pixel's tri-state (R187). -/
inductive EdgeState
  | none | weak | strong
  deriving DecidableEq, Repr, Inhabited

/-- m ≥ (num/den) × m_max, evaluated exactly on squares (R187). -/
def reaches (num den v smax : Nat) : Bool := num * num * smax ≤ v * (den * den)

/-- The double threshold of one value (R187). -/
def classify (p : Preset) (smax v : Nat) : EdgeState :=
  if v = 0 then .none
  else if reaches p.highNum p.highDen v smax then .strong
  else if reaches p.lowNum p.lowDen v smax then .weak
  else .none

/-- The plane E before hysteresis (R187). -/
def doubleThreshold (W H : Nat) (p : Preset) (smax : Nat) (N : Plane Nat) : Plane EdgeState :=
  Plane.tabulate W H fun y x => classify p smax (Plane.get N y x)

/-- The positions (v, u) of a W×H image with |v − y| ≤ r and |u − x| ≤ r; those outside the image are skipped (R188,
R191). -/
def window (r W H y x : Nat) : List (Nat × Nat) :=
  (List.range (2 * r + 1)).flatMap fun dy =>
    (List.range (2 * r + 1)).filterMap fun dx =>
      let v : Int := (y : Int) + dy - r
      let u : Int := (x : Int) + dx - r
      if 0 ≤ v ∧ v < H ∧ 0 ≤ u ∧ u < W then some (v.toNat, u.toNat) else none

/-- The 8 neighbours of a pixel inside the image (R188). -/
def neighbours8 (W H y x : Nat) : List (Nat × Nat) := (window 1 W H y x).filter (· != (y, x))

/-- The hysteresis state machine's data: E and the worklist of pixel positions (y, x) (R188). -/
structure Hysteresis where
  edges    : Plane EdgeState
  worklist : List (Nat × Nat)
  deriving DecidableEq, Repr

/-- SEED: every strong pixel (R188). -/
def hystSeed (W H : Nat) (E : Plane EdgeState) : Hysteresis :=
  { edges := E,
    worklist := (List.range H).flatMap fun y =>
      ((List.range W).filter fun x => Plane.get E y x = .strong).map fun x => (y, x) }

/-- One neighbour of VISIT: a weak pixel becomes strong and enters the worklist (R188). -/
def hystPromote (h : Hysteresis) (n : Nat × Nat) : Hysteresis :=
  if Plane.get h.edges n.1 n.2 = .weak then
    { edges := Plane.put h.edges n.1 n.2 .strong, worklist := n :: h.worklist }
  else h

/-- VISIT of the pixel at (y, x) (R188). -/
def hystVisit (W H : Nat) (h : Hysteresis) (y x : Nat) : Hysteresis := (neighbours8 W H y x).foldl hystPromote h

/-- POP and VISIT until the worklist is empty; `fuel` bounds the visits (R188: "at most W·H visits"; log 20). -/
def hystRun (W H : Nat) : Nat → Hysteresis → Plane EdgeState
  | 0, h => h.edges
  | fuel + 1, h =>
    match h.worklist with
    | [] => h.edges
    | p :: rest => hystRun W H fuel (hystVisit W H { h with worklist := rest } p.1 p.2)

/-- E after hysteresis (R188, R189). -/
def hysteresis (W H : Nat) (E : Plane EdgeState) : Plane EdgeState := hystRun W H (W * H) (hystSeed W H E)

/-- M0 = (E = STRONG) (R190). -/
def edgeMask (W H : Nat) (E : Plane EdgeState) : Plane Bool := Plane.tabulate W H fun y x => Plane.get E y x = .strong

/-- The dilation radius of a stroke (R191). -/
def strokeRadius : Stroke → Nat
  | .thin => 0
  | .medium => 1
  | .thick => 2

/-- One iteration of binary dilation by a square window (R191). -/
def dilate (r W H : Nat) (M : Plane Bool) : Plane Bool :=
  Plane.tabulate W H fun y x => (window r W H y x).any fun n => Plane.get M n.1 n.2

/-- The output image of a mask (R192). -/
def cannyRender (W H : Nat) (M : Plane Bool) : Plane Pixel :=
  Plane.tabulate W H fun y x => if Plane.get M y x then Pixel.white else Pixel.black

/-- The plane N of an image at a strength: luma, blur, gradient, NMS (R183 to R185). -/
def cannyNms (st : Strength) (W H : Nat) (img : Plane Pixel) : Plane Nat :=
  nms W H (gradient W H (blur2d (kernelRom (presetTable st).kernel) W H (lumaPlane W H img)))

/-- The edge mask before thickening, from N (R186 to R190). -/
def cannyMask (st : Strength) (W H : Nat) (N : Plane Nat) : Plane Bool :=
  edgeMask W H (hysteresis W H (doubleThreshold W H (presetTable st) (planeMax N) N))

/-- The Canny pipeline (R180, R193): RESULT = Smax. -/
def canny (st : Strength) (k : Stroke) (W H : Nat) (img : Plane Pixel) : Work :=
  let N := cannyNms st W H img
  { out := cannyRender W H (dilate (strokeRadius k) W H (cannyMask st W H N)), result := planeMax N }

/-- CANNY.THIN (R193). -/
def execCannyThin (strength : StrengthField) (s : State) : Host.Outcome State Fault Refusal :=
  runCommand (.cannyThin strength) s (canny (resolveStrength strength s.latched.sigma.toNat) .thin)

/-- CANNY.MEDIUM (R194). -/
def execCannyMedium (strength : StrengthField) (s : State) : Host.Outcome State Fault Refusal :=
  runCommand (.cannyMedium strength) s (canny (resolveStrength strength s.latched.sigma.toNat) .medium)

/-- CANNY.THICK (R195). -/
def execCannyThick (strength : StrengthField) (s : State) : Host.Outcome State Fault Refusal :=
  runCommand (.cannyThick strength) s (canny (resolveStrength strength s.latched.sigma.toNat) .thick)

end Sys2Proof.Machine
end

