-- ==== Sys2Proof/Machine/Reserved.lean ====
section
/-! DEFINITION. The reserved encodings (spec/30_encoding.md R91): each fails with ERR_CONFIG and writes no memory
(60_exceptions.md R222). -/

namespace Sys2Proof.Machine

open Sys2Proof

/-- A command word that decodes to ConfigError fails in CHECK (R222, R226); no rule computes anything. -/
def configError (s : State) : Host.Outcome State Fault Refusal := .next (s.fail .config)

/-- OP = 0x0. -/
def execReservedOp0 (s : State) : Host.Outcome State Fault Refusal := configError s

/-- OP = 0x6 or 0x7. -/
def execReservedOp6_7 (s : State) : Host.Outcome State Fault Refusal := configError s

/-- OP = 0x8 .. 0xF. -/
def execReservedOp8_F (s : State) : Host.Outcome State Fault Refusal := configError s

/-- CANNY with STROKE = 3. -/
def execReservedCannyStroke3 (s : State) : Host.Outcome State Fault Refusal := configError s

end Sys2Proof.Machine
end

