-- ==== Sys2Proof/Machine/Sobel.lean ====
section
/-! DEFINITION. The Sobel edge detector (spec/43_sobel.md): SOBEL.P and SOBEL.F. -/

namespace Sys2Proof.Machine

open Sys2Proof

/-- The S plane of an image: integer luma, no blur, gradient (R160). -/
def sobelMagnitudes (W H : Nat) (img : Plane Pixel) : Plane Nat :=
  magnitudePlane W H (gradient W H (lumaPlane W H img))

/-- `mags`: S over all interior pixels, with multiplicity (R162). -/
def interiorMagnitudes (W H : Nat) (S : Plane Nat) : List Nat :=
  (List.range H).flatMap fun y =>
    ((List.range W).filter fun x => interior W H y x).map fun x => Plane.get S y x

/-- The adaptive threshold of SOBEL.P (R162): `p` is PCT.P. -/
def percentileThreshold (mags : List Nat) (p : Nat) : Nat :=
  if mags.length = 0 then 0
  else (mags.insertionSort (· ≤ ·)).getD (min (mags.length * p / 10000) (mags.length - 1)) 0

/-- The edge test of both modes at an interior pixel (R161). -/
def isEdge (thr S : Nat) : Bool := 0 < S && thr ≤ S

/-- The output image of a Sobel mode (R163, R164): the modes differ in the border pixel alone. -/
def sobelRender (W H : Nat) (borderPixel : Pixel) (thr : Nat) (S : Plane Nat) : Plane Pixel :=
  Plane.tabulate W H fun y x =>
    if interior W H y x then (if isEdge thr (Plane.get S y x) then Pixel.white else Pixel.black) else borderPixel

/-- SOBEL.P's work (R163): opaque black border, RESULT = thr. -/
def sobelPercentile (pct W H : Nat) (img : Plane Pixel) : Work :=
  let S := sobelMagnitudes W H img
  let thr := percentileThreshold (interiorMagnitudes W H S) pct
  { out := sobelRender W H Pixel.black thr S, result := thr }

/-- SOBEL.F's work (R164): transparent border, RESULT = FTHR. -/
def sobelFixed (fthr W H : Nat) (img : Plane Pixel) : Work :=
  { out := sobelRender W H Pixel.clear fthr (sobelMagnitudes W H img), result := fthr }

/-- SOBEL.P (R163). -/
def execSobelP (s : State) : Host.Outcome State Fault Refusal :=
  runCommand .sobelP s (sobelPercentile s.latched.pct.toNat)

/-- SOBEL.F (R164). -/
def execSobelF (s : State) : Host.Outcome State Fault Refusal :=
  runCommand .sobelF s (sobelFixed s.latched.fthr.toNat)

end Sys2Proof.Machine
end

