-- ==== Sys2Proof/Machine/Dispatch.lean ====
section
/-! DEFINITION. One arm per row of the opcode table (spec/30_encoding.md R90, R91). -/

namespace Sys2Proof.Machine

open Sys2Proof

def exec (i : Instr) (s : State) : Host.Outcome State Fault Refusal :=
  match i with
  | .grayW => Sys2Proof.Machine.execGrayW s
  | .grayI => Sys2Proof.Machine.execGrayI s
  | .sepia => Sys2Proof.Machine.execSepia s
  | .blurG25 => Sys2Proof.Machine.execBlurG25 s
  | .blurB7 => Sys2Proof.Machine.execBlurB7 s
  | .blurB5 => Sys2Proof.Machine.execBlurB5 s
  | .blurB3 => Sys2Proof.Machine.execBlurB3 s
  | .sobelP => Sys2Proof.Machine.execSobelP s
  | .sobelF => Sys2Proof.Machine.execSobelF s
  | .cannyThin strength => Sys2Proof.Machine.execCannyThin strength s
  | .cannyMedium strength => Sys2Proof.Machine.execCannyMedium strength s
  | .cannyThick strength => Sys2Proof.Machine.execCannyThick strength s
  | .reservedOp0 => Sys2Proof.Machine.execReservedOp0 s
  | .reservedOp6_7 => Sys2Proof.Machine.execReservedOp6_7 s
  | .reservedOp8_F => Sys2Proof.Machine.execReservedOp8_F s
  | .reservedCannyStroke3 => Sys2Proof.Machine.execReservedCannyStroke3 s

end Sys2Proof.Machine
end

