-- ==== Sys2Proof/Machine/Flags.lean ====
section
/-! DEFINITION. STATUS as a word and its write-one-to-clear bits (spec/10_state.md R23, R38), the stage sequences (R36),
and the interrupt line (60_exceptions.md R235). -/

namespace Sys2Proof

/-- The stages a command runs when its checks pass (10_state.md R36). -/
def Instr.stages : Instr → List Machine.Stage
  | .grayW | .grayI | .sepia => [.check, .point, .write]
  | .blurG25 | .blurB7 | .blurB5 | .blurB3 => [.check, .blurH, .blurV, .write]
  | .sobelP | .sobelF => [.check, .point, .grad, .select, .write]
  | .cannyThin _ | .cannyMedium _ | .cannyThick _ =>
    [.check, .point, .blurH, .blurV, .grad, .nms, .thresh, .hyst, .dilate, .write]
  | .reservedOp0 | .reservedOp6_7 | .reservedOp8_F | .reservedCannyStroke3 => [.check]

end Sys2Proof

namespace Sys2Proof.Machine

open Sys2Proof

/-- The code of an error (60_exceptions.md R221). -/
def ErrCode.code : ErrCode → Nat
  | .none => 0
  | .config => 1
  | .contract => 2
  | .size => 3
  | .range => 4
  | .scratch => 5
  | .overlap => 6

/-- The code of a stage (10_state.md R36). -/
def Stage.code : Stage → Nat
  | .idle => 0
  | .check => 1
  | .point => 2
  | .blurH => 3
  | .blurV => 4
  | .grad => 5
  | .select => 6
  | .nms => 7
  | .thresh => 8
  | .hyst => 9
  | .dilate => 10
  | .write => 11

/-- A bit as a number. -/
def bit (b : Bool) : Nat := if b then 1 else 0

/-- The STATUS word: BUSY 0, DONE 1, ERR 2, ERRCODE 7:4, STAGE 11:8, every other bit 0 (R23). -/
def statusWord (busy done err : Bool) (code : ErrCode) (stage : Stage) : Word :=
  BitVec.ofNat 32 (bit busy + 2 * bit done + 4 * bit err + 16 * code.code + 256 * stage.code)

/-- The interrupt line (60_exceptions.md R235): irq = DONE AND IRQ_EN. -/
def State.irq (s : State) : Bool := s.done && s.irqEn

/-- A write of STATUS: DONE (bit 1) and ERR (bit 2) are W1C, ERRCODE is cleared with ERR, every other bit is read only
(R23). -/
def State.writeStatus (s : State) (v : Word) : State :=
  { s with done := s.done && !v.getLsbD 1, err := s.err && !v.getLsbD 2,
           errCode := if v.getLsbD 2 then .none else s.errCode }

/-- The running command's stage sequence: CHECK alone when a check fails (R36). -/
def State.stageSequence (s : State) : List Stage :=
  if check s.running s.params s.latched = .none then s.running.stages else [.check]

/-- The stages a read may still return: those of the sequence from the last one shown on (R36, monotone; log 7). -/
def State.stagesLeft (s : State) : List Stage := s.stageSequence.dropWhile (· != s.stage)

/-- The stage a read of STATUS returns while BUSY = 1: drawn from the stages left (R36). -/
def State.drawStage (s : State) : Stage :=
  s.stagesLeft.getD (Config.freeStage s.draws % s.stagesLeft.length) s.stage

end Sys2Proof.Machine
end

