-- ==== Sys2Proof/Machine/HostPort.lean ====
section
/-! DEFINITION. The host's and the platform's moves: the register block (spec/10_state.md R20 to R41), shared memory
(20_memory.md R67, R70), waiting (30_encoding.md R92), reset and bus error; and which agent moves next. -/

namespace Sys2Proof

/-- A bus address lies in the engine's block BASE .. BASE+63 (20_memory.md R60). -/
def Params.inBlock (p : Params) (addr : Nat) : Bool := Machine.inRange addr p.base 64

/-- The last address of n bytes lies in shared memory; no byte at all needs no address. -/
def Params.reaches (p : Params) (addr n : Nat) : Bool := n = 0 || addr + n ≤ p.memSize

end Sys2Proof

namespace Sys2Proof.Machine

open Sys2Proof

/-! ## The register block -/

/-- ID, constant: the tag FE, revision 7, engine revision 0 (10_state.md R21). -/
def idWord : Word := 0x46450700#32

/-- The register at a byte offset of the block: the one whose four bytes hold it (register map). -/
def regOfOffset (off : Nat) : Reg :=
  match off / 4 with
  | 0 => .id
  | 1 => .ctrl
  | 2 => .status
  | 3 => .cmd
  | 4 => .bufAddr
  | 5 => .bufLen
  | 6 => .width
  | 7 => .height
  | 8 => .scrAddr
  | 9 => .scrLen
  | 10 => .pct
  | 11 => .fthr
  | 12 => .sigma
  | 13 => .result
  | 14 => .reserved38
  | _ => .reserved3C

/-- The byte offset of a register (register map). -/
def Reg.offset : Reg → Nat
  | .id => 0x00
  | .ctrl => 0x04
  | .status => 0x08
  | .cmd => 0x0C
  | .bufAddr => 0x10
  | .bufLen => 0x14
  | .width => 0x18
  | .height => 0x1C
  | .scrAddr => 0x20
  | .scrLen => 0x24
  | .pct => 0x28
  | .fthr => 0x2C
  | .sigma => 0x30
  | .result => 0x34
  | .reserved38 => 0x38
  | .reserved3C => 0x3C

/-- The 32-bit word a register reads as (R21 to R35): write-only and reserved bits read 0. -/
def State.regWord (s : State) : Reg → Word
  | .id => idWord
  | .ctrl => BitVec.ofNat 32 (2 * bit s.irqEn)
  | .status => statusWord s.busy s.done s.err s.errCode s.stage
  | .cmd => s.regs.cmd.setWidth 32
  | .bufAddr => s.regs.bufAddr
  | .bufLen => s.regs.bufLen
  | .width => s.regs.width
  | .height => s.regs.height
  | .scrAddr => s.regs.scrAddr
  | .scrLen => s.regs.scrLen
  | .pct => s.regs.pct.setWidth 32
  | .fthr => s.regs.fthr
  | .sigma => s.regs.sigma.setWidth 32
  | .result => s.result
  | .reserved38 => 0#32
  | .reserved3C => 0#32

/-- A read of STATUS while BUSY = 1 shows a drawn stage, never an earlier one than a read before it (R36, log 7). No
other read changes anything. -/
def State.beforeRead (s : State) (r : Reg) : State :=
  if r = .status ∧ s.busy = true then { s with stage := s.drawStage, draws := s.draws + 1 } else s

/-- The host has observed the end of every command that has ended (70_reset_and_hazards.md R257; log 26). -/
def State.observeEnd (s : State) : State := { s with unseen := [] }

/-- A read of STATUS that returned BUSY = 0 observes the end (R257, 20_memory.md R70): one of any width that takes in
bits 1:0 (log 26). -/
def State.afterRead (s : State) (off : Nat) : State :=
  if off = Reg.status.offset ∧ s.busy = false then s.observeEnd else s

/-- A configuration register's new contents: its RW bits of the word written (R24 to R33). -/
def ConfigRegs.write (c : ConfigRegs) (r : Reg) (v : Word) : ConfigRegs :=
  match r with
  | .cmd => { c with cmd := v.setWidth 12 }
  | .bufAddr => { c with bufAddr := v }
  | .bufLen => { c with bufLen := v }
  | .width => { c with width := v }
  | .height => { c with height := v }
  | .scrAddr => { c with scrAddr := v }
  | .scrLen => { c with scrLen := v }
  | .pct => { c with pct := v.setWidth 14 }
  | .fthr => { c with fthr := v }
  | .sigma => { c with sigma := v.setWidth 16 }
  | .id | .ctrl | .status | .result | .reserved38 | .reserved3C => c

/-- A write of CTRL (R22, R255): IRQ_EN takes bit 1, and bit 0 launches the command unless BUSY = 1, when the start
request is dropped. -/
def State.writeCtrl (s : State) (v : Word) : State :=
  if v.getLsbD 0 && !s.busy then s.acceptStart (v.getLsbD 1) else { s with irqEn := v.getLsbD 1 }

/-- A 32-bit aligned write of a register. Configuration registers are kept while BUSY = 1 (R37); read-only and reserved
registers ignore it. -/
def State.writeReg (s : State) (r : Reg) (v : Word) : State :=
  match r with
  | .ctrl => s.writeCtrl v
  | .status => s.writeStatus v
  | .id | .result | .reserved38 | .reserved3C => s
  | .cmd | .bufAddr | .bufLen | .width | .height | .scrAddr | .scrLen | .pct | .fthr | .sigma =>
    if s.busy then s else { s with regs := ConfigRegs.write s.regs r v }

/-- Bytes of an access. -/
def AccessWidth.bytes : AccessWidth → Nat
  | .byte => 1
  | .half => 2
  | .word => 4

/-- An access is aligned when its offset is a multiple of its width (R41; log 10). -/
def aligned (off : Nat) (w : AccessWidth) : Bool := off % w.bytes = 0

/-- The addressed byte lanes of a register, little-endian: offset off+k holds bits 8k+7 .. 8k (R41). -/
def byteLanes (v : Word) (off : Nat) (w : AccessWidth) : Word :=
  (v >>> (8 * (off % 4))) &&& BitVec.ofNat 32 (2 ^ (8 * w.bytes) - 1)

/-- A read of the block at a byte offset (R41): the byte lanes, or for a misaligned read a free word. -/
def State.readBlock (s : State) (off : Nat) (w : AccessWidth) : State :=
  if aligned off w then
    let r := regOfOffset off
    let t := s.beforeRead r
    { t with reply := .value (byteLanes (t.regWord r) off w) }.afterRead off
  else { s with reply := .value (Config.freeWord s.draws), draws := s.draws + 1 }

/-- A write of the block at a byte offset (R41): narrower than 32 bits or misaligned, it is ignored. -/
def State.writeBlock (s : State) (off : Nat) (w : AccessWidth) (v : Word) : State :=
  if w = .word ∧ aligned off w = true then s.writeReg (regOfOffset off) v else s

/-! ## Shared memory, as the host reaches it -/

/-- A host load of one byte: a free byte where the byte is in the ranges of the running command (R67) or of one whose end
the host has not observed (R70, R71, 70_reset_and_hazards.md R257; log 26), or has an outstanding store of the host's own
(log 13); else the byte in memory. -/
def State.hostByte (s : State) (a : Nat) : Byte :=
  if (s.busy && s.owns a) || s.ownsUnseen a || s.posted.any (fun c => c.1 = a) then Config.freeByte s.draws a else s.mem.byteAt a

/-- MEMR of n bytes. -/
def State.hostLoad (s : State) (addr n : Nat) : State :=
  { s with reply := .bytes ((List.range n).map fun k => s.hostByte (addr + k)), draws := s.draws + 1 }

/-- Memory after a performed host store: the bytes stored, and where one of them is in the ranges of a completed command
whose end the host has not observed, every byte of that command's ranges free (R67 up to the observation of R70, R71;
log 26). -/
def State.memAfterStore (s : State) (addr : Nat) (bs : List Byte) : Memory :=
  (s.unseen.filter fun e => e.completed && e.regs.ownsSome addr bs.length).foldl
    (fun m e => m.freeRanges s.params e.regs s.draws) (Memory.store s.mem addr bs)

/-- A performed host store. A byte of the buffer or scratch range while BUSY = 1 is the hazard of
70_reset_and_hazards.md R256 (log 14). -/
def State.hostStore (s : State) (addr : Nat) (bs : List Byte) : State :=
  { s with mem := s.memAfterStore addr bs, touched := s.touched || (s.busy && s.latched.ownsSome addr bs.length),
           draws := s.draws + 1 }

/-- A host store issued and not yet performed (R258), byte by byte (log 13). Issued while BUSY = 1, to a buffer or scratch
byte, it is no write of 20_memory.md R67 yet: that it counts when it is performed is the model's choice (log 27). -/
def State.hostPost (s : State) (addr : Nat) (bs : List Byte) : State :=
  { s with posted := s.posted ++ bs.zipIdx.map fun bk => (addr + bk.2, bk.1) }

/-! ## Moves -/

/-- WAIT's condition (30_encoding.md R92): bits hi:lo of the word read. -/
def fieldEquals (v : Word) (hi lo value : Nat) : Bool := v.toNat / 2 ^ lo % 2 ^ (hi + 1 - lo) = value

/-- A WAIT's next move (log 16): one read; if the field does not hold the value, the host reads again while polls are
left, and otherwise the busy engine moves. -/
def State.waitMove (s : State) (rest : List Event) (r : Reg) (hi lo value polls : Nat) : Move :=
  let t := s.readBlock r.offset .word
  if fieldEquals ((s.beforeRead r).regWord r) hi lo value then .other (.next { t with events := rest })
  else
    match polls with
    | n + 1 => .other (.next { t with events := .wait r hi lo value n :: rest })
    | 0 => if s.busy then .engine t else .other (.next t)

/-- The move of the event at the head of the list, `rest` being the events after it. -/
def State.eventMove (s : State) (e : Event) (rest : List Event) : Move :=
  let t := { s with events := rest }
  match e with
  | .engine => if s.busy then .engine t else .other (.next t)
  | .regWrite addr w v =>
    if s.params.inBlock addr then .other (.next (t.writeBlock (addr - s.params.base) w v))
    else .other (.refused (.otherDevice addr))
  | .regRead addr w =>
    if s.params.inBlock addr then .other (.next (t.readBlock (addr - s.params.base) w))
    else .other (.refused (.otherDevice addr))
  | .memWrite addr bs =>
    if s.params.reaches addr bs.length then .other (.next (t.hostStore addr bs)) else .other (.fault (.memoryAddress addr))
  | .memRead addr n =>
    if s.params.reaches addr n then .other (.next (t.hostLoad addr n)) else .other (.fault (.memoryAddress addr))
  | .memPost addr bs =>
    if s.params.reaches addr bs.length then .other (.next (t.hostPost addr bs)) else .other (.fault (.memoryAddress addr))
  | .memPerform k =>
    match s.posted[k]? with
    | none => .other (.next t)
    | some c =>
      if c.1 < s.params.memSize then .other (.next ({ t with posted := s.posted.eraseIdx k }.hostStore c.1 [c.2]))
      else .other (.fault (.memoryAddress c.1))
  | .wait r hi lo value polls => s.waitMove rest r hi lo value polls
  | .waitIrq => if s.irq then .other (.next t.observeEnd) else if s.busy then .engine s else .other (.next s)
  | .reset => .other (.next t.platformReset)
  | .busError => if s.busy then .other (.fault .busError) else .other (.next t)

/-- Which agent moves next (log 2): the head of the event list says; with no event left a busy engine takes its step
(70_reset_and_hazards.md R261), and an idle machine stays as it is (60_exceptions.md R242). -/
def State.nextMove (s : State) : Move :=
  match s.events with
  | [] => if s.busy then .engine s else .other (.next s)
  | e :: rest => s.eventMove e rest

/-- The instruction the engine's step runs: the latched command word, decoded (30_encoding.md R89). -/
def fetch (s : State) : Instr := s.running

/-- The command word of `nbits` bits launched as an accepted START launches it, with the engine to move next (log 3). -/
def State.launchWord (s : State) (nbits w : Nat) : State :=
  let t := { s with regs := { s.regs with cmd := cmdOfTableWord nbits w } }
  { t.acceptStart s.irqEn with events := .engine :: s.events }

end Sys2Proof.Machine
end

