-- ==== Sys2Proof/Machine/Step.lean ====
section
/-! DEFINITION. One step of the machine (spec/00_scope.md R15, 70_reset_and_hazards.md R262): the engine runs the latched
command, or the host or the platform makes its move. -/

namespace Sys2Proof.Machine

open Sys2Proof

/-- One step: where the engine moves, it runs the instruction it fetches; any other move is already made. -/
def step (s : State) : Host.Outcome State Fault Refusal :=
  match s.nextMove with
  | .engine t => exec (fetch t) t
  | .other o => o

/-- The state whose very next step runs the command word (log 3). -/
def State.withFetchWord (s : State) (nbits w : Nat) : State := s.launchWord nbits w

end Sys2Proof.Machine
end

