-- ==== Sys2Proof/Machine/Assembler.lean ====
section
/-! DEFINITION. The assembler (spec/30_encoding.md R92, R93): commands and RS calls as the host events they expand to, and
the canonical sequence of one command (70_reset_and_hazards.md R254). -/

namespace Sys2Proof.Machine

open Sys2Proof

/-- `WR reg, value`: a 32-bit write at BASE + offset (R92). -/
def wr (p : Params) (r : Reg) (v : Word) : Event := .regWrite (p.base + r.offset) .word v

/-- `RD reg`: a 32-bit read at BASE + offset (R92). -/
def rd (p : Params) (r : Reg) : Event := .regRead (p.base + r.offset) .word

/-- word(c): the 32-bit CMD word of a command (R93). -/
def commandWord (i : Instr) : Word := (encode i).setWidth 32

/-- 1 | (IRQ_EN << 1): the CTRL word of a START (R93). -/
def startWord (irqEn : Bool) : Word := BitVec.ofNat 32 (1 + 2 * bit irqEn)

/-- `LAUNCH c` (R93): WR CMD; WR CTRL; WAIT STATUS.BUSY == 0, with `polls` failed reads (log 16). -/
def launch (p : Params) (i : Instr) (irqEn : Bool) (polls : Nat) : List Event :=
  [wr p .cmd (commandWord i), wr p .ctrl (startWord irqEn), .wait .status 0 0 0 polls]

/-- A register operand given as name=value is written before the launch (R92, log 21); one not given leaves its register
as it is. -/
def operandWrite (p : Params) (r : Reg) (v : Option Nat) : List Event :=
  match v with
  | none => []
  | some n => [wr p r (BitVec.ofNat 32 n)]

end Sys2Proof.Machine

namespace Sys2Proof

/-- The events of an assembler command, or the rule of the grammar it breaks (R92). -/
def AsmCommand.expand (p : Params) (a : AsmCommand) (irqEn : Bool) (polls : Nat) :
    Except AsmError (List Machine.Event) :=
  match a.error with
  | some e => .error e
  | none =>
    .ok (Machine.operandWrite p .pct a.pct ++ Machine.operandWrite p .fthr a.thr
      ++ Machine.operandWrite p .sigma a.sigma100 ++ Machine.launch p a.instr irqEn polls)

/-- The CANNY row of a stroke (R86, R90). -/
def Stroke.instr (k : Stroke) (f : StrengthField) : Instr :=
  match k with
  | .thin => .cannyThin f
  | .medium => .cannyMedium f
  | .thick => .cannyThick f

/-- The STRENGTH field of a preset (R85). -/
def Strength.field : Strength → StrengthField
  | .low => .low
  | .medium => .medium
  | .high => .high

/-- PCT for a percentile p: 10000·p, where p is a multiple of 1/10000 in [0, 1.6383] (R93). -/
def percentileUnits (p : Rat) : Option Nat :=
  let q := p * 10000
  if q.den = 1 ∧ 0 ≤ q.num ∧ q.num ≤ 16383 then some q.num.toNat else none

/-- SIGMA for a legacy sigma: clamp(floor(100·σ), 0, 65535) (R93). -/
def sigmaUnits (σ : Rat) : Nat := (Machine.clamp (100 * σ).floor 0 65535).toNat

/-- The assembler command of an RS call (R93), or why the assembler refuses it. -/
def RsCall.command : RsCall → Except AsmError AsmCommand
  | .grayscale => .ok { instr := .grayW }
  | .sepia => .ok { instr := .sepia }
  | .blur => .ok { instr := .blurG25 }
  | .sobelEdges p =>
    match percentileUnits p with
    | some n => .ok { instr := .sobelP, pct := some n }
    | none => .error .percentileNotInSteps
  | .sobelFixed t => .ok { instr := .sobelF, thr := some t }
  | .canny s k => .ok { instr := k.instr s.field }
  | .cannyLegacy (some σ) => .ok { instr := .cannyMedium .legacy, sigma100 := some (sigmaUnits σ) }
  | .cannyLegacy none => .error .sigmaIsNaN

/-- The events of an RS call (R93). -/
def RsCall.expand (p : Params) (c : RsCall) (irqEn : Bool) (polls : Nat) : Except AsmError (List Machine.Event) :=
  match c.command with
  | .error e => .error e
  | .ok a => a.expand p irqEn polls

end Sys2Proof

namespace Sys2Proof.Machine

open Sys2Proof

/-- The canonical sequence of one command (70_reset_and_hazards.md R254): the image stored, the registers written (the
scratch registers when REQ > 0), the launch, STATUS read, the result loaded. -/
def canonicalSequence (p : Params) (i : Instr) (image : List Byte) (width height bufAddr scrAddr scrLen : Word)
    (irqEn : Bool) (polls : Nat) : List Event :=
  [.memWrite bufAddr.toNat image, wr p .width width, wr p .height height, wr p .bufAddr bufAddr,
    wr p .bufLen (BitVec.ofNat 32 image.length)]
  ++ (if i.scratchPerPixel = 0 then [] else [wr p .scrAddr scrAddr, wr p .scrLen scrLen])
  ++ launch p i irqEn polls
  ++ [rd p .status, .memRead bufAddr.toNat image.length]

end Sys2Proof.Machine
end

