-- ==== Sys2Proof/Safety.lean ====
section
/-! DEFINITION. What counts as a legal state and a safe run: the invariants the spec states of the registers and of shared
memory (spec/10_state.md R23, R36, R37; 20_memory.md R60). -/

namespace Sys2Proof.Machine

open Sys2Proof

/-- The legal states: shared memory in canonical form inside 0 .. MEM_SIZE−1, and the invariants of STATUS and of the
sequencer. -/
structure State.Inv (s : State) : Prop where
  /-- Memory lists each address once, rising. -/
  memCanonical : Memory.wf s.mem
  /-- No byte outside 0 .. MEM_SIZE−1 (20_memory.md R60). -/
  memInside : Memory.within s.mem s.params.memSize
  /-- "ERR = 0 if and only if ERRCODE = 0" (10_state.md R23). -/
  errIff : s.err = false ↔ s.errCode = .none
  /-- "BUSY = 1 implies DONE = 0 and ERR = 0" (R23). -/
  busyClean : s.busy = true → s.done = false ∧ s.err = false
  /-- STAGE "is 0 whenever BUSY = 0" (R23). -/
  idleStage : s.busy = false → s.stage = .idle
  /-- "cmd_latched always equals the current register values while busy" (R37). -/
  latchedIsRegs : s.busy = true → s.latched = s.regs
  /-- The stage shown is one of the running command's sequence (R36). -/
  stageInSequence : s.busy = true → s.stage ∈ s.stageSequence

/-- An outcome that is a next state. -/
def isNext (o : Host.Outcome State Fault Refusal) : Bool :=
  match o with
  | .next _ => true
  | .fault _ => false
  | .refused _ => false

/-- A run of `k` steps that no fault and no refusal ends. -/
def State.safeFor (s : State) (k : Nat) : Bool := isNext (core.run k s)

end Sys2Proof.Machine
end

