-- ==== Sys2Proof/Certificates/Slice0/Reference.lean ====
section
/-! DEFINITION. The rules of spec/40_pointwise.md to 44_canny.md read a second time, point by point over whole planes as
functions of the position, without the model's lists, folds or worklist. The statements hold the machine against them. -/

namespace Sys2Proof.Ref

open Sys2Proof Sys2Proof.Machine

/-- A plane as a function of row y and column x. -/
abbrev Img := Nat → Nat → Nat

/-- In(c)[y][x] as a number (20_memory.md R62): the input byte at addr(x, y, c). -/
def input (s : State) (c : Nat) : Img :=
  fun y x => (s.inputByte (s.latched.bufAddr.toNat + 4 * (y * s.latched.w.toNat + x) + c)).toNat

/-- The byte at addr(x, y, c) of the buffer of `s`, read in the memory of `t`, as a number (20_memory.md R63). -/
def output (s t : State) (c : Nat) : Img :=
  fun y x => (Memory.byteAt t.mem (s.latched.bufAddr.toNat + 4 * (y * s.latched.w.toNat + x) + c)).toNat

/-- The four bytes of an output pixel. -/
def outputIs (s t : State) (y x r g b a : Nat) : Prop :=
  output s t 0 y x = r ∧ output s t 1 y x = g ∧ output s t 2 y x = b ∧ output s t 3 y x = a

/-- (x, y) lies in the image of the latched command (00_scope.md R13). -/
def inImage (s : State) (y x : Nat) : Prop := y < s.latched.h.toNat ∧ x < s.latched.w.toNat

/-- The nearest coordinate inside 0 .. n−1 (41_convolution.md R125). -/
def edge (v : Int) (n : Nat) : Nat := (max 0 (min v ((n : Int) - 1))).toNat

/-- r (41_convolution.md R121). -/
def radius : KernelSel → Nat
  | .gauss25 => 12
  | .bin7 => 3
  | .bin5 => 2
  | .bin3 => 1

/-- The norm (R121). -/
def norm : KernelSel → Nat
  | .gauss25 => 65536
  | .bin7 => 64
  | .bin5 => 16
  | .bin3 => 4

/-- GAUSS25 by distance from the centre: t[0], t[±1], …, t[±12] (R124). -/
def gaussHalf : List Nat := [3314, 3298, 3249, 3168, 3059, 2925, 2768, 2594, 2407, 2210, 2010, 1810, 1613]

/-- t[j − r], j = 0 .. 2r (R121, R124): the binomial kernels are rows of Pascal's triangle. -/
def tap (k : KernelSel) (j : Nat) : Nat :=
  match k with
  | .gauss25 => gaussHalf.getD ((j : Int) - 12).natAbs 0
  | .bin7 => Nat.choose 6 j
  | .bin5 => Nat.choose 4 j
  | .bin3 => Nat.choose 2 j

/-- One FIR pass over a line of n samples, at position x (R125): the quotient rounded, an exact half up. -/
def fir (k : KernelSel) (n : Nat) (line : Nat → Nat) (x : Nat) : Nat :=
  (2 * (∑ j ∈ Finset.range (2 * radius k + 1), tap k j * line (edge ((x : Int) + j - radius k) n)) + norm k)
    / (2 * norm k)

/-- The separable blur (R126): along the rows first, then along the columns. -/
def blur (k : KernelSel) (W H : Nat) (P : Img) : Img :=
  fun y x => fir k H (fun v => fir k W (fun u => P v u) x) y

/-- The integer luma of the input (40_pointwise.md R103). -/
def luma (s : State) : Img := fun y x => (77 * input s 0 y x + 150 * input s 1 y x + 29 * input s 2 y x) / 256

/-- Interior pixels (00_scope.md R13). -/
def isInterior (W H y x : Nat) : Prop := 1 ≤ x ∧ x + 2 ≤ W ∧ 1 ≤ y ∧ y + 2 ≤ H

/-- Gx at an interior pixel (42_gradient.md R141, R142). -/
def gx (Q : Img) (y x : Nat) : Int :=
  (Q (y - 1) (x + 1) + 2 * Q y (x + 1) + Q (y + 1) (x + 1) : Int)
    - (Q (y - 1) (x - 1) + 2 * Q y (x - 1) + Q (y + 1) (x - 1))

/-- Gy at an interior pixel (R141, R142). -/
def gy (Q : Img) (y x : Nat) : Int :=
  (Q (y + 1) (x - 1) + 2 * Q (y + 1) x + Q (y + 1) (x + 1) : Int)
    - (Q (y - 1) (x - 1) + 2 * Q (y - 1) x + Q (y - 1) (x + 1))

open Classical in
/-- The squared magnitude: Gx² + Gy² inside, 0 at the border (R140, R143). -/
noncomputable def mag (W H : Nat) (Q : Img) : Img :=
  fun y x => if isInterior W H y x then (gx Q y x).natAbs ^ 2 + (gy Q y x).natAbs ^ 2 else 0

/-- `P` holds of both neighbours of (y, x) along a direction (44_canny.md R185). -/
def alongDirection (d : Direction) (y x : Nat) (P : Nat → Nat → Prop) : Prop :=
  match d with
  | .d0 => P y (x - 1) ∧ P y (x + 1)
  | .d90 => P (y - 1) x ∧ P (y + 1) x
  | .d45 => P (y + 1) (x + 1) ∧ P (y - 1) (x - 1)
  | .d135 => P (y + 1) (x - 1) ∧ P (y - 1) (x + 1)

open Classical in
/-- N (R185): an interior pixel keeps S where it is at least that of both neighbours along its direction. -/
noncomputable def nmsPlane (W H : Nat) (Q : Img) : Img :=
  fun y x =>
    if isInterior W H y x ∧ alongDirection (qdir (gx Q y x) (gy Q y x)) y x
        (fun v u => mag W H Q v u ≤ mag W H Q y x) then mag W H Q y x else 0

/-- `m` is the largest value of a plane, 0 for a plane of zeros (R186). -/
def isMax (W H : Nat) (P : Img) (m : Nat) : Prop :=
  (∀ y x, y < H → x < W → P y x ≤ m) ∧ (m = 0 ∨ ∃ y x, y < H ∧ x < W ∧ P y x = m)

/-- The strong test of R187's table. -/
def strong (st : Strength) (smax v : Nat) : Prop :=
  0 < v ∧ match st with
    | .low => smax ≤ 16 * v
    | .medium => smax ≤ 25 * v
    | .high => 9 * smax ≤ 400 * v

/-- The weak test of R187's table. -/
def weak (st : Strength) (smax v : Nat) : Prop :=
  0 < v ∧ ¬strong st smax v ∧ match st with
    | .low => smax ≤ 100 * v
    | .medium => 4 * smax ≤ 625 * v
    | .high => 9 * smax ≤ 2500 * v

/-- Two different pixels at most one row and one column apart (R188). -/
def adjacent (y x v u : Nat) : Prop :=
  (y, x) ≠ (v, u) ∧ v ≤ y + 1 ∧ y ≤ v + 1 ∧ u ≤ x + 1 ∧ x ≤ u + 1

/-- R189's set: the strong pixels of the image, and the weak pixels joined to one by an 8-connected path of weak or strong
pixels. -/
inductive Linked (W H : Nat) (isStrong isWeak : Nat → Nat → Prop) : Nat → Nat → Prop
  | seed (y x : Nat) (hy : y < H) (hx : x < W) (h : isStrong y x) : Linked W H isStrong isWeak y x
  | grow (y x v u : Nat) (h : Linked W H isStrong isWeak y x) (hv : v < H) (hu : u < W) (ha : adjacent y x v u)
      (hw : isWeak v u) : Linked W H isStrong isWeak v u

/-- The edge mask after thickening (R190, R191): a pixel of M0 lies in the square window of radius r. -/
def dilated (W H r : Nat) (M0 : Nat → Nat → Prop) (y x : Nat) : Prop :=
  ∃ v u, v < H ∧ u < W ∧ v ≤ y + r ∧ y ≤ v + r ∧ u ≤ x + r ∧ x ≤ u + r ∧ M0 v u

/-- The radius of a stroke (R191). -/
def reach : Stroke → Nat
  | .thin => 0
  | .medium => 1
  | .thick => 2

/-- The kernel of a preset (R182). -/
def presetKernel : Strength → KernelSel
  | .low => .bin7
  | .medium => .bin5
  | .high => .bin3

/-- N of the latched command's input at a strength (R183 to R185). -/
noncomputable def cannyN (s : State) (st : Strength) : Img :=
  nmsPlane s.latched.w.toNat s.latched.h.toNat
    (blur (presetKernel st) s.latched.w.toNat s.latched.h.toNat (luma s))

/-- A Canny edge pixel of the latched command's input (R186 to R191). -/
def cannyEdge (s : State) (st : Strength) (k : Stroke) (smax y x : Nat) : Prop :=
  dilated s.latched.w.toNat s.latched.h.toNat (reach k)
    (Linked s.latched.w.toNat s.latched.h.toNat (fun v u => strong st smax (cannyN s st v u))
      (fun v u => weak st smax (cannyN s st v u))) y x

/-! ## What a command leaves unchanged -/

/-- An address of the latched command's pixel buffer (20_memory.md R62). -/
def inBuffer (s : State) (a : Nat) : Prop :=
  s.latched.bufAddr.toNat ≤ a ∧ a < s.latched.bufAddr.toNat + 4 * (s.latched.w.toNat * s.latched.h.toNat)

/-- REQ / N of R61's table. -/
def scratchFactor : Instr → Nat
  | .grayW | .grayI | .sepia => 0
  | .blurG25 | .blurB7 | .blurB5 | .blurB3 => 4
  | .sobelP | .sobelF => 5
  | .cannyThin _ | .cannyMedium _ | .cannyThick _ => 16
  | .reservedOp0 | .reservedOp6_7 | .reservedOp8_F | .reservedCannyStroke3 => 0

/-- An address of the scratch range [SCR_ADDR, SCR_ADDR+REQ) of an instruction (R61). -/
def inScratch (i : Instr) (s : State) (a : Nat) : Prop :=
  s.latched.scrAddr.toNat ≤ a
    ∧ a < s.latched.scrAddr.toNat + scratchFactor i * (s.latched.w.toNat * s.latched.h.toNat)

/-- A byte of the buffer or of the scratch range that a configuration names for its command (R61, R62). -/
def ownedBy (l : ConfigRegs) (a : Nat) : Prop :=
  (l.bufAddr.toNat ≤ a ∧ a < l.bufAddr.toNat + 4 * (l.w.toNat * l.h.toNat))
    ∨ (l.scrAddr.toNat ≤ a ∧ a < l.scrAddr.toNat + scratchFactor (decode l.cmd) * (l.w.toNat * l.h.toNat))

/-- The host cannot rely on a byte: it is in the ranges of the running command (20_memory.md R67) or of one whose end the
host has not observed (70_reset_and_hazards.md R257; log 26). -/
def unsettled (s : State) (a : Nat) : Prop :=
  (s.busy = true ∧ ownedBy s.latched a) ∨ ∃ e ∈ s.unseen, ownedBy e.regs a

/-- A host store of `n` bytes from `addr` hits the ranges of a completed command whose end the host has not observed, and
`a` is a byte of those ranges (log 26). -/
def disturbs (s : State) (addr n a : Nat) : Prop :=
  ∃ e ∈ s.unseen, e.completed = true ∧ ownedBy e.regs a ∧ ∃ hit, addr ≤ hit ∧ hit < addr + n ∧ ownedBy e.regs hit

/-- The fields that neither the end of a command nor a host move on STATUS touches: the parameters, IRQ_EN, the
configuration registers, `cmd_latched`, and the platform's bookkeeping. -/
def sameSetup (s t : State) : Prop :=
  t.params = s.params ∧ t.irqEn = s.irqEn ∧ t.regs = s.regs ∧ t.latched = s.latched ∧ t.posted = s.posted
    ∧ t.events = s.events ∧ t.reply = s.reply

/-- The completion effect on registers and the frame (60_exceptions.md R229, 20_memory.md R63): RESULT is `result`, STATUS
says done, ERR and ERRCODE stay, the setup stays, and no byte outside the buffer and the scratch range changes. -/
def completed (i : Instr) (s t : State) (result : Nat) : Prop :=
  t.result.toNat = result ∧ t.busy = false ∧ t.stage = .idle ∧ t.done = true ∧ t.err = s.err ∧ t.errCode = s.errCode
    ∧ sameSetup s t
    ∧ ∀ a, ¬inBuffer s a → ¬inScratch i s a → Memory.byteAt t.mem a = Memory.byteAt s.mem a

/-- The command's checks pass (60_exceptions.md R223), and the host has kept off its ranges (70_reset_and_hazards.md
R256). -/
def runs (i : Instr) (s : State) : Prop := check i s.params s.latched = .none ∧ s.touched = false

/-- A CANNY command whose STRENGTH is legacy, the one that reads SIGMA (30_encoding.md R88). -/
def readsSigma : Instr → Bool
  | .cannyThin f | .cannyMedium f | .cannyThick f => f == .legacy
  | .grayW | .grayI | .sepia | .blurG25 | .blurB7 | .blurB5 | .blurB3 | .sobelP | .sobelF | .reservedOp0
  | .reservedOp6_7 | .reservedOp8_F | .reservedCannyStroke3 => false

/-- Two configurations agree on the registers that an instruction reads (R88's table). -/
def sameOperands (i : Instr) (l l' : ConfigRegs) : Prop :=
  l'.bufAddr = l.bufAddr ∧ l'.bufLen = l.bufLen ∧ l'.width = l.width ∧ l'.height = l.height
    ∧ (0 < scratchFactor i → l'.scrAddr = l.scrAddr ∧ l'.scrLen = l.scrLen)
    ∧ (i = .sobelP → l'.pct = l.pct) ∧ (i = .sobelF → l'.fthr = l.fthr)
    ∧ (readsSigma i = true → l'.sigma = l.sigma)

/-! ## The register block -/

/-- The RW bits of a configuration register (10_state.md R24 to R33); none of any other register. -/
def rwMask : Reg → Word
  | .cmd => 0x00000FFF#32
  | .bufAddr | .bufLen | .width | .height | .scrAddr | .scrLen | .fthr => 0xFFFFFFFF#32
  | .pct => 0x00003FFF#32
  | .sigma => 0x0000FFFF#32
  | .id | .ctrl | .status | .result | .reserved38 | .reserved3C => 0#32

/-- The ten configuration registers (10_state.md R36). -/
def isConfig : Reg → Bool
  | .cmd | .bufAddr | .bufLen | .width | .height | .scrAddr | .scrLen | .pct | .fthr | .sigma => true
  | .id | .ctrl | .status | .result | .reserved38 | .reserved3C => false

/-- The number of an error code (60_exceptions.md R221). -/
def errNumber : ErrCode → Nat
  | .none => 0
  | .config => 1
  | .contract => 2
  | .size => 3
  | .range => 4
  | .scratch => 5
  | .overlap => 6

/-- The number of a stage (10_state.md R36). -/
def stageNumber : Stage → Nat
  | .idle => 0
  | .check => 1
  | .point => 2
  | .blurH => 3
  | .blurV => 4
  | .grad => 5
  | .select => 6
  | .nms => 7
  | .thresh => 8
  | .hyst => 9
  | .dilate => 10
  | .write => 11

/-- The stages of a command whose checks pass, by number (R36's table). -/
def stageNumbers : Instr → List Nat
  | .grayW | .grayI | .sepia => [1, 2, 11]
  | .blurG25 | .blurB7 | .blurB5 | .blurB3 => [1, 3, 4, 11]
  | .sobelP | .sobelF => [1, 2, 5, 6, 11]
  | .cannyThin _ | .cannyMedium _ | .cannyThick _ => [1, 2, 3, 4, 5, 7, 8, 9, 10, 11]
  | .reservedOp0 | .reservedOp6_7 | .reservedOp8_F | .reservedCannyStroke3 => [1]

/-- The stages that the running command of a busy state goes through, by number: CHECK alone on a failed check (R36). -/
def runningStages (s : State) : List Nat :=
  if check (decode s.latched.cmd) s.params s.latched = .none then stageNumbers (decode s.latched.cmd) else [1]

/-- The byte lanes of a word that an access of `w` at byte `k` addresses, little-endian (R41). -/
def lanesAre (v word : Word) (k : Nat) (w : AccessWidth) : Prop :=
  ∀ b, b < 32 → v.getLsbD b = (decide (b < 8 * w.bytes) && word.getLsbD (8 * k + b))

/-- The reset value of a register (10_state.md, register map). -/
def resetWord : Reg → Word
  | .id => 0x46450700#32
  | .cmd => 0x00000500#32
  | .pct => 0x00002134#32
  | .fthr => 0x00000FA0#32
  | .sigma => 0x00000064#32
  | .ctrl | .status | .bufAddr | .bufLen | .width | .height | .scrAddr | .scrLen | .result | .reserved38
  | .reserved3C => 0#32

end Sys2Proof.Ref
end

