-- ==== Sys2Proof/Certificates/Slice0/Obligations.lean ====
section
/-! DEFINITION. The statements for the provers, in the order of the spec's files: encoding, the step, reset, the register
block, shared memory, the checks, the end of a command, the twelve commands, their units, and rules of the whole machine. -/

open Sys2Proof Sys2Proof.Machine

/-! ## Encoding (spec/30_encoding.md) -/

/-- R87: any value in a field that the selected OP does not read gives the same command; so decode undoes encode with
every unread bit at every value. -/
def Obligations.DecodeUndoesEncode : Prop :=
  ∀ (i : Instr) (fill : CmdWord), decode (encodeWith i fill) = i

/-- 30_encoding.md §4: every CMD word is exactly one row of the opcode table, the row of what it decodes to; and encoding
what it decodes to, with its unread bits kept, gives the word back. -/
def Obligations.EveryWordIsOneTableRow : Prop :=
  ∀ w : CmdWord, opcodeTable.filter (fun r => r.matches w) = [(decode w).row] ∧ encodeWith (decode w) w = w

/-- 30_encoding.md §3 and 95_test_vectors.md V-PW-2, V-CAN-3 to V-CAN-9, V-ERR-1: words written out from the table, one of
each family. -/
def Obligations.SampleWordsDecode : Prop :=
  decode 0x001#12 = .grayW ∧ decode 0x011#12 = .grayI ∧ decode 0xFF2#12 = .sepia ∧ decode 0x0C1#12 = .grayW
    ∧ decode 0x0C3#12 = .blurB3 ∧ decode 0x024#12 = .sobelF ∧ decode 0x105#12 = .cannyThin .medium
    ∧ decode 0x705#12 = .cannyMedium .legacy ∧ decode 0x805#12 = .cannyThick .low ∧ decode 0x000#12 = .reservedOp0
    ∧ decode 0x007#12 = .reservedOp6_7 ∧ decode 0x00F#12 = .reservedOp8_F ∧ decode 0xC05#12 = .reservedCannyStroke3

/-! ## The step (spec/70_reset_and_hazards.md §4) -/

/-- 70_reset_and_hazards.md §4 (the engine step), with the model's event list (log 2, 16): where the engine moves, the
step is exec of the instruction the latched CMD word decodes to. The engine moves when the list is empty, at `engine`, at
a wait for the interrupt that is low, and at a WAIT whose read fails and that has no poll left. -/
def Obligations.EngineStepRunsDecodedCommand : Prop :=
  ∀ (s : State) (i : Instr), s.busy = true → decode s.latched.cmd = i →
    (s.events = [] → step s = exec i s)
    ∧ (∀ rest, s.events = .engine :: rest → step s = exec i { s with events := rest })
    ∧ (∀ rest, s.events = .waitIrq :: rest → s.irq = false → step s = exec i s)
    ∧ (∀ r hi lo v rest, s.events = .wait r hi lo v 0 :: rest →
        fieldEquals ((s.beforeRead r).regWord r) hi lo v = false → step s = exec i (s.readBlock r.offset .word))

/-- Log 3 (the model's choice): a word launched by withFetchWord is what the very next step runs, on the launched state
with the events of before. -/
def Obligations.LaunchedWordRunsNext : Prop :=
  ∀ (s : State) (nbits w : Nat),
    step (s.withFetchWord nbits w)
      = exec (decode (BitVec.ofNat 12 (w % 2 ^ nbits))) { s.withFetchWord nbits w with events := s.events }

/-- 60_exceptions.md §5 (power): an idle engine has no step; the machine stays as it is, and an `engine` event passes. -/
def Obligations.IdleMachineStays : Prop :=
  ∀ s : State, s.busy = false →
    (s.events = [] → step s = .next s) ∧ (∀ rest, s.events = .engine :: rest → step s = .next { s with events := rest })

/-- The invariants of 10_state.md §2, §3 and 20_memory.md §1 hold right after reset. -/
def Obligations.ResetStateIsLegal : Prop := State.reset.Inv

/-- The invariants of 10_state.md §2, §3 and 20_memory.md §1 are kept by every step from every state that has them: STATUS
is consistent, STAGE is of the running command's sequence, `cmd_latched` equals the registers while busy, memory is
canonical and inside 0 .. MEM_SIZE−1. -/
def Obligations.StepKeepsLegalStates : Prop :=
  ∀ s t : State, s.Inv → step s = .next t → t.Inv

/-- 00_scope.md §3: no step changes an implementation parameter. -/
def Obligations.StepKeepsParameters : Prop :=
  ∀ s t : State, step s = .next t → t.params = s.params

/-! ## Reset (spec/70_reset_and_hazards.md §1) -/

/-- 10_state.md §2, §7: the reset values of the register map, at State.reset and after the platform's reset in any state;
the sequencer IDLE, the interrupt line low, and what is the platform's kept (log 17). -/
def Obligations.ResetValuesOfRegisters : Prop :=
  (∀ r, State.reset.regWord r = Ref.resetWord r)
  ∧ ∀ (s : State) (rest : List Event), s.events = .reset :: rest →
      ∃ t, step s = .next t ∧ (∀ r, t.regWord r = Ref.resetWord r) ∧ t.busy = false ∧ t.stage = .idle ∧ t.irq = false
        ∧ t.params = s.params ∧ t.unseen = s.unseen ∧ t.posted = s.posted ∧ t.events = rest ∧ t.reply = s.reply

/-- 70_reset_and_hazards.md §1: reset while busy abandons the command, leaves every byte of the buffer and of the scratch
range that is in memory free, changes no other byte, and does not set DONE. Which bytes those are for a command whose
checks would fail (a side not positive, a reserved encoding) is the model's choice (log 15). -/
def Obligations.ResetWhileBusyFreesRanges : Prop :=
  ∀ (s : State) (rest : List Event), s.busy = true → s.events = .reset :: rest →
    ∃ t, step s = .next t ∧ t.busy = false ∧ t.done = false ∧ t.result = 0#32
      ∧ (∀ a, a < s.params.memSize →
          Ref.inBuffer s a ∨ Ref.inScratch (decode s.latched.cmd) s a →
            Memory.byteAt t.mem a = Config.freeByte s.draws a)
      ∧ (∀ a, ¬Ref.inBuffer s a → ¬Ref.inScratch (decode s.latched.cmd) s a →
          Memory.byteAt t.mem a = Memory.byteAt s.mem a)

/-- 70_reset_and_hazards.md §1: reset of an idle engine changes no memory. -/
def Obligations.ResetWhileIdleKeepsMemory : Prop :=
  ∀ (s : State) (rest : List Event), s.busy = false → s.events = .reset :: rest →
    ∃ t, step s = .next t ∧ t.mem = s.mem

/-! ## The register block (spec/10_state.md) -/

/-- R259: an idle engine's configuration register reads back the word written, masked to its RW bits, at once; no other
register reads differently, memory and everything else stay. A busy engine ignores the write. -/
def Obligations.ConfigWriteReadsBack : Prop :=
  ∀ (s : State) (r : Reg) (v : Word) (rest : List Event), Ref.isConfig r = true → s.events = wr s.params r v :: rest →
    (s.busy = false →
      ∃ t, step s = .next t ∧ t.regWord r = v &&& Ref.rwMask r ∧ (∀ q, q ≠ r → t.regWord q = s.regWord q)
        ∧ t.mem = s.mem ∧ t.busy = false ∧ t.latched = s.latched ∧ t.events = rest ∧ t.reply = s.reply
        ∧ t.unseen = s.unseen ∧ t.posted = s.posted ∧ t.params = s.params)
    ∧ (s.busy = true → step s = .next { s with events := rest })

/-- R21, R35, and RESULT's RO of R34: a write of ID, RESULT or a reserved offset is ignored, idle or busy; ID and the reserved offsets read
their constants. -/
def Obligations.ReadOnlyRegistersIgnoreWrites : Prop :=
  ∀ (s : State) (r : Reg) (v : Word) (rest : List Event),
    r = .id ∨ r = .result ∨ r = .reserved38 ∨ r = .reserved3C → s.events = wr s.params r v :: rest →
      step s = .next { s with events := rest }
        ∧ s.regWord .id = 0x46450700#32 ∧ s.regWord .reserved38 = 0#32 ∧ s.regWord .reserved3C = 0#32

/-- R37: while busy, a write of a configuration register leaves every field as it was; a write of CTRL with START acts on
IRQ_EN alone; the W1C bits of STATUS act as when idle; and in a legal state `cmd_latched` equals the registers. -/
def Obligations.BusyKeepsConfiguration : Prop :=
  ∀ (s : State) (v : Word) (rest : List Event), s.busy = true →
    (∀ r, Ref.isConfig r = true → s.events = wr s.params r v :: rest → step s = .next { s with events := rest })
    ∧ (s.events = wr s.params .ctrl v :: rest →
        step s = .next { s with irqEn := v.getLsbD 1, events := rest })
    ∧ (s.events = wr s.params .status v :: rest →
        step s = .next { s with
          done := s.done && !v.getLsbD 1, err := s.err && !v.getLsbD 2,
          errCode := if v.getLsbD 2 then .none else s.errCode, events := rest })
    ∧ (s.Inv → s.latched = s.regs)

/-- 70_reset_and_hazards.md §2 (the accepted START): an accepted START, in one step; In is the memory as it stands, STATUS
reads 0x101, and nothing else changes. While busy, the write updates IRQ_EN only. In is so said where the host has no store
outstanding, or for a command whose checks pass none to the buffer or the scratch range; that stores outstanding to other
bytes leave In exact is the model's choice (log 13), not the spec's. -/
def Obligations.AcceptedStartLaunches : Prop :=
  ∀ (s : State) (v : Word) (rest : List Event), v.getLsbD 0 = true → s.events = wr s.params .ctrl v :: rest →
    (s.busy = false →
      ∃ t, step s = .next t ∧ t.irqEn = v.getLsbD 1 ∧ t.done = false ∧ t.err = false ∧ t.errCode = .none ∧ t.busy = true
        ∧ t.stage = .check ∧ t.regWord .status = 0x101#32 ∧ t.latched = s.regs
        ∧ (s.posted = [] ∨ (check (decode t.latched.cmd) t.params t.latched = .none
              ∧ ∀ c ∈ s.posted, ¬Ref.inBuffer t c.1 ∧ ¬Ref.inScratch (decode t.latched.cmd) t c.1) →
            ∀ a, t.inputByte a = Memory.byteAt s.mem a)
        ∧ t.regs = s.regs ∧ t.mem = s.mem ∧ t.result = s.result ∧ t.params = s.params ∧ t.unseen = s.unseen
        ∧ t.posted = s.posted ∧ t.events = rest ∧ t.reply = s.reply)
    ∧ (s.busy = true → step s = .next { s with irqEn := v.getLsbD 1, events := rest })

/-- 10_state.md §2, CTRL: a write with START = 0 changes IRQ_EN alone; START and the reserved bits read 0. -/
def Obligations.CtrlWriteWithoutStart : Prop :=
  ∀ (s : State) (v : Word) (rest : List Event), v.getLsbD 0 = false → s.events = wr s.params .ctrl v :: rest →
    ∃ t, step s = .next t ∧ t = { s with irqEn := v.getLsbD 1, events := rest } ∧ t.regWord .ctrl = v &&& 0x2#32

/-- 10_state.md §2, STATUS: DONE and ERR are W1C, ERRCODE is cleared with ERR, nothing else changes, idle or busy. -/
def Obligations.StatusWriteClearsBits : Prop :=
  ∀ (s : State) (v : Word) (rest : List Event), s.events = wr s.params .status v :: rest →
    ∃ t, step s = .next t ∧ t.done = (s.done && !v.getLsbD 1) ∧ t.err = (s.err && !v.getLsbD 2)
      ∧ (v.getLsbD 2 = true → t.errCode = .none) ∧ (v.getLsbD 2 = false → t.errCode = s.errCode)
      ∧ t.busy = s.busy ∧ t.stage = s.stage ∧ t.mem = s.mem ∧ t.result = s.result ∧ t.unseen = s.unseen
      ∧ Ref.sameSetup { s with events := rest } t

/-- 10_state.md §2, STATUS: each field stands at its bits, every other bit reads 0. ERRCODE is the number that
60_exceptions.md §1 gives the code, STAGE the number that 10_state.md §3 gives the stage. -/
def Obligations.StatusWordFields : Prop :=
  ∀ s : State,
    let w := s.regWord .status
    w.getLsbD 0 = s.busy ∧ w.getLsbD 1 = s.done ∧ w.getLsbD 2 = s.err ∧ w.getLsbD 3 = false
      ∧ (w.extractLsb' 4 4).toNat = Ref.errNumber s.errCode ∧ (w.extractLsb' 8 4).toNat = Ref.stageNumber s.stage
      ∧ w.extractLsb' 12 20 = 0#20

/-- 10_state.md §3: a read of STATUS while busy, in a legal state, shows a stage of the running command's sequence (the
sequences written out by number; CHECK alone on a failed check), never an earlier one than the one shown before; apart from
the reply and the draw counter nothing else changes. That `stage` holds the stage last shown is log 7. -/
def Obligations.StatusReadShowsLaterStage : Prop :=
  ∀ (s : State) (rest : List Event), s.Inv → s.busy = true → s.events = rd s.params .status :: rest →
    ∃ t, step s = .next t ∧ Ref.stageNumber t.stage ∈ Ref.runningStages s
      ∧ (Ref.runningStages s).idxOf (Ref.stageNumber s.stage) ≤ (Ref.runningStages s).idxOf (Ref.stageNumber t.stage)
      ∧ t = { s with stage := t.stage, draws := s.draws + 1, reply := .value (t.regWord .status), events := rest }

/-- 10_state.md §6 (access widths): an aligned read of any width returns the addressed byte lanes of the register,
little-endian, and changes no register; a write narrower than 32 bits or misaligned is ignored; a misaligned read returns a
free word. The model's choices: misaligned means an offset that is no multiple of the width, and such a read shows no stage
(log 10); an aligned STATUS read of any width while busy shows a stage (log 7); one that takes in bits 1:0 of an idle
engine's STATUS observes the end of every command before it (70_reset_and_hazards.md §3; log 26). -/
def Obligations.RegisterAccessWidths : Prop :=
  ∀ (s : State) (r : Reg) (k : Nat) (w : AccessWidth) (rest : List Event), k < 4 →
    (k % w.bytes = 0 → s.events = .regRead (s.params.base + r.offset + k) w :: rest →
      (¬(r = .status ∧ s.busy = true) →
        ∃ v, step s = .next { s with
            reply := .value v, unseen := if r = .status ∧ k = 0 then [] else s.unseen, events := rest }
          ∧ Ref.lanesAre v (s.regWord r) k w)
      ∧ (r = .status → s.busy = true →
        ∃ g v, let t : State := { s with stage := g, draws := s.draws + 1, reply := .value v, events := rest }
          step s = .next t ∧ Ref.lanesAre v (t.regWord .status) k w
            ∧ (s.Inv → Ref.stageNumber g ∈ Ref.runningStages s)))
    ∧ (k % w.bytes ≠ 0 → s.events = .regRead (s.params.base + r.offset + k) w :: rest →
        step s = .next { s with reply := .value (Config.freeWord s.draws), draws := s.draws + 1, events := rest })
    ∧ (∀ v, w ≠ .word ∨ k ≠ 0 → s.events = .regWrite (s.params.base + r.offset + k) w v :: rest →
        step s = .next { s with events := rest })

/-- 60_exceptions.md §4: the line is DONE AND IRQ_EN; it falls at a W1C write of 1 to DONE, at an accepted START, at a
write of IRQ_EN = 0, and at reset. -/
def Obligations.InterruptLineFalls : Prop :=
  ∀ s : State,
    (s.irq = true ↔ s.done = true ∧ s.irqEn = true)
    ∧ (∀ v : Word, v.getLsbD 1 = true → (s.writeReg .status v).irq = false)
    ∧ (∀ v : Word, v.getLsbD 0 = true → s.busy = false → (s.writeReg .ctrl v).irq = false)
    ∧ (∀ v : Word, v.getLsbD 1 = false → (s.writeReg .ctrl v).irq = false)
    ∧ s.platformReset.irq = false

/-! ## Shared memory (spec/20_memory.md) -/

/-- 20_memory.md §2, §5: a performed host store of an idle engine, inside memory, replaces the bytes it names and no other;
a load of the range returns them, and keeps memory. The bytes are in no range of a command whose end the host has yet to
observe (log 26); HazardStoreFreesRanges and HostLoadUntilEndIsSeen speak of those. -/
def Obligations.HostStoreThenLoad : Prop :=
  ∀ (s : State) (addr : Nat) (bs : List Byte) (rest : List Event), s.busy = false → s.posted = [] →
    addr + bs.length ≤ s.params.memSize → (∀ a, addr ≤ a → a < addr + bs.length → ¬Ref.unsettled s a) →
    s.events = .memWrite addr bs :: .memRead addr bs.length :: rest →
    ∃ t u, step s = .next t ∧ step t = .next u ∧ u.reply = .bytes bs ∧ u.mem = t.mem ∧ u.events = rest
      ∧ (∀ a, a < addr ∨ addr + bs.length ≤ a → Memory.byteAt u.mem a = Memory.byteAt s.mem a)
      ∧ (∀ k, k < bs.length → Memory.byteAt u.mem (addr + k) = bs.getD k 0#8)
      ∧ u.regs = s.regs ∧ u.result = s.result ∧ u.busy = false ∧ u.done = s.done ∧ u.err = s.err
      ∧ u.errCode = s.errCode ∧ u.stage = s.stage ∧ u.irqEn = s.irqEn ∧ u.latched = s.latched ∧ u.posted = s.posted
      ∧ u.unseen = s.unseen ∧ u.params = s.params

/-- 20_memory.md §3, §5 and 70_reset_and_hazards.md §3 (the result before the end is observed): a host load of a byte of
the running command's ranges, or of the ranges of a command whose end the host has not observed, returns a free byte, of any
other byte the byte in memory; it changes no memory and no register. And an ended command stays unobserved at every step but
a read of an idle engine's STATUS, by itself or in a WAIT, or a wait that sees the interrupt. What counts as an observation,
and that a failed command's ranges count too, is log 26; which bytes the ranges of a command are whose checks fail (a side
not positive, a reserved encoding), log 15. -/
def Obligations.HostLoadUntilEndIsSeen : Prop :=
  (∀ (s : State) (addr : Nat) (rest : List Event), s.posted = [] → addr < s.params.memSize →
    s.events = .memRead addr 1 :: rest →
    ∃ t b, step s = .next t ∧ t = { s with reply := .bytes [b], draws := s.draws + 1, events := rest }
      ∧ (¬Ref.unsettled s addr → b = Memory.byteAt s.mem addr)
      ∧ (Ref.unsettled s addr → b = Config.freeByte s.draws addr))
  ∧ ∀ s t : State, step s = .next t → (∃ e ∈ s.unseen, e ∉ t.unseen) →
      (s.busy = false ∧ ∃ w rest, s.events = .regRead (s.params.base + Reg.status.offset) w :: rest)
      ∨ (s.busy = false ∧ ∃ hi lo v polls rest, s.events = .wait .status hi lo v polls :: rest)
      ∨ (s.irq = true ∧ ∃ rest, s.events = .waitIrq :: rest)

/-- 70_reset_and_hazards.md §3 (host accesses while busy): after a host store that writes a buffer or scratch byte while busy,
with the engine to move next, the command that completes leaves every byte of both ranges free, keeps every other byte as it
stood after the store, and the registers complete as without the store. A host load of such a byte while busy returns a free
byte. With steps between: `touched` stays while the engine is busy, and a completion with it leaves both ranges free. The
model's choices: that a store outstanding and performed while busy does the same (log 13, 27), the bytes outside the ranges
after the store (log 14), and that a store after the end, before the host has observed it, to the ranges of a command that
completed leaves every byte of them free (log 26). -/
def Obligations.HazardStoreFreesRanges : Prop :=
  (∀ (s : State) (addr : Nat) (bs : List Byte) (hit : Nat) (rest : List Event), s.busy = true →
    check (decode s.latched.cmd) s.params s.latched = .none → addr ≤ hit → hit < addr + bs.length →
    addr + bs.length ≤ s.params.memSize → Ref.inBuffer s hit ∨ Ref.inScratch (decode s.latched.cmd) s hit →
    (s.events = .memWrite addr bs :: .engine :: rest
        ∨ (∃ k b, bs = [b] ∧ s.posted[k]? = some (addr, b) ∧ s.events = .memPerform k :: .engine :: rest) →
      ∃ t u v, step s = .next t ∧ step t = .next u ∧ exec (decode s.latched.cmd) s = .next v
        ∧ (∀ a, Ref.inBuffer s a ∨ Ref.inScratch (decode s.latched.cmd) s a →
            Memory.byteAt u.mem a = Config.freeByte t.draws a)
        ∧ (∀ a, ¬Ref.inBuffer s a → ¬Ref.inScratch (decode s.latched.cmd) s a → ¬Ref.disturbs s addr bs.length a →
            Memory.byteAt u.mem a = if addr ≤ a ∧ a < addr + bs.length then bs.getD (a - addr) 0#8
              else Memory.byteAt s.mem a)
        ∧ u.result = v.result ∧ u.busy = false ∧ u.stage = .idle ∧ u.done = true ∧ u.err = s.err
        ∧ u.errCode = s.errCode ∧ u.regs = s.regs)
    ∧ (s.events = .memRead hit 1 :: rest →
      step s = .next { s with
        reply := .bytes [Config.freeByte s.draws hit], draws := s.draws + 1, events := rest }))
  ∧ (∀ s t : State, step s = .next t → s.busy = true → t.busy = true → s.touched = true →
      t.touched = true ∧ t.latched = s.latched)
  ∧ (∀ s : State, s.touched = true → check (decode s.latched.cmd) s.params s.latched = .none →
      ∃ u, exec (decode s.latched.cmd) s = .next u ∧ ∀ a, Ref.inBuffer s a ∨ Ref.inScratch (decode s.latched.cmd) s a →
        Memory.byteAt u.mem a = Config.freeByte s.draws a)
  ∧ ∀ (s : State) (e : EndedCommand) (addr : Nat) (bs : List Byte) (hit : Nat) (rest : List Event), e ∈ s.unseen →
      e.completed = true → addr ≤ hit → hit < addr + bs.length → addr + bs.length ≤ s.params.memSize →
      Ref.ownedBy e.regs hit →
      s.events = .memWrite addr bs :: rest
        ∨ (∃ k b, bs = [b] ∧ s.posted[k]? = some (addr, b) ∧ s.events = .memPerform k :: rest) →
      ∃ t, step s = .next t
        ∧ (∀ a, Ref.ownedBy e.regs a → a < s.params.memSize → Memory.byteAt t.mem a = Config.freeByte s.draws a)
        ∧ ∀ a, ¬Ref.disturbs s addr bs.length a →
            Memory.byteAt t.mem a = if addr ≤ a ∧ a < addr + bs.length then bs.getD (a - addr) 0#8
              else Memory.byteAt s.mem a

/-- 20_memory.md §5 (host accesses outside the ranges are unordered with the command and unaffected by it): a host store
while busy, performed at once or an outstanding one (log 13), that misses the buffer and the scratch range lands, and the
command still completes with its normal output, RESULT and STATUS; no other byte outside the ranges changes, but for the
ranges of an earlier command whose end the host has not observed (log 26). -/
def Obligations.StoreOutsideRangesLands : Prop :=
  ∀ (s : State) (addr : Nat) (bs : List Byte) (rest : List Event), s.busy = true → s.touched = false →
    check (decode s.latched.cmd) s.params s.latched = .none → addr + bs.length ≤ s.params.memSize →
    (∀ a, addr ≤ a → a < addr + bs.length → ¬Ref.inBuffer s a ∧ ¬Ref.inScratch (decode s.latched.cmd) s a) →
    s.events = .memWrite addr bs :: .engine :: rest
      ∨ (∃ k b, bs = [b] ∧ s.posted[k]? = some (addr, b) ∧ s.events = .memPerform k :: .engine :: rest) →
    ∃ t u v, step s = .next t ∧ step t = .next u ∧ exec (decode s.latched.cmd) s = .next v
      ∧ (∀ a, Ref.inBuffer s a → Memory.byteAt u.mem a = Memory.byteAt v.mem a)
      ∧ (∀ a, ¬Ref.inBuffer s a → ¬Ref.inScratch (decode s.latched.cmd) s a → ¬Ref.disturbs s addr bs.length a →
          Memory.byteAt u.mem a = if addr ≤ a ∧ a < addr + bs.length then bs.getD (a - addr) 0#8
            else Memory.byteAt s.mem a)
      ∧ u.result = v.result ∧ u.busy = false ∧ u.stage = .idle ∧ u.done = true ∧ u.err = s.err ∧ u.errCode = s.errCode
      ∧ u.regs = s.regs

/-- Log 13 (the model's form of the stores of 70_reset_and_hazards.md §3): a posted store waits byte by byte and changes
nothing else; any waiting byte can be performed, which stores that byte, takes it off the list, and changes nothing else
but the draw counter, on a byte the busy engine owns the note of the hazard, and on a byte of a completed command whose end
the host has not observed that command's ranges, which are free (log 26). That the hazard is noted when the store is
performed, and not when it is posted, is log 27; the ranges of a command whose checks would fail are log 15's. -/
def Obligations.PostedStoreLands : Prop :=
  (∀ (s : State) (addr : Nat) (bs : List Byte) (rest : List Event), addr + bs.length ≤ s.params.memSize →
    s.events = .memPost addr bs :: rest →
    step s = .next { s with
      posted := s.posted ++ (List.range bs.length).map fun k => (addr + k, bs.getD k 0#8), events := rest })
  ∧ ∀ (s : State) (k a : Nat) (b : Byte) (rest : List Event), s.posted[k]? = some (a, b) → a < s.params.memSize →
      s.events = .memPerform k :: rest →
      ∃ t, step s = .next t
        ∧ (∀ x, ¬Ref.disturbs s a 1 x → Memory.byteAt t.mem x = if x = a then b else Memory.byteAt s.mem x)
        ∧ (∀ x, Ref.disturbs s a 1 x → x < s.params.memSize → Memory.byteAt t.mem x = Config.freeByte s.draws x)
        ∧ (t.touched = true ↔ s.touched = true
            ∨ (s.busy = true ∧ (Ref.inBuffer s a ∨ Ref.inScratch (decode s.latched.cmd) s a)))
        ∧ t = { s with
            mem := t.mem, touched := t.touched, posted := s.posted.eraseIdx k, draws := s.draws + 1, events := rest }

/-- 70_reset_and_hazards.md §3, with the model's posted stores (log 13): a START with a store to the buffer or to the
scratch range outstanding makes every input byte free. The ranges of a command whose checks would fail, which reads no
input, are log 15's. -/
def Obligations.UnperformedStoreFreesInput : Prop :=
  ∀ (s : State) (v : Word) (c : Host.Cell) (rest : List Event), s.busy = false → v.getLsbD 0 = true →
    s.events = wr s.params .ctrl v :: rest → c ∈ s.posted →
    ∃ t, step s = .next t ∧ t.busy = true ∧ t.latched = s.regs
      ∧ (Ref.inBuffer t c.1 ∨ Ref.inScratch (decode t.latched.cmd) t c.1 → ∀ a, t.inputByte a = Config.freeByte s.draws a)

/-- 60_exceptions.md §4: a W1C write of DONE at the completion instant, ordered before it leaves DONE = 1, after it DONE = 0; both orders
are event lists. -/
def Obligations.ClearDoneRacesCompletion : Prop :=
  ∀ (s : State) (rest : List Event), s.busy = true →
    (s.events = wr s.params .status 0x2#32 :: .engine :: rest →
      ∃ t, core.run 2 s = .next t ∧ t.busy = false ∧ t.done = true)
    ∧ (s.events = .engine :: wr s.params .status 0x2#32 :: rest →
      ∃ t, core.run 2 s = .next t ∧ t.busy = false ∧ t.done = false)

/-! ## The checks and the failure (spec/60_exceptions.md §2, §3) -/

/-- R223: the code of each check, by its number, and the order of the checks, with exact integers. -/
def Obligations.CheckOrder : Prop :=
  ∀ (i : Instr) (p : Params) (l : ConfigRegs),
    let w := l.width.toInt
    let h := l.height.toInt
    let buf : Int := l.bufAddr.toNat
    let len : Int := l.bufLen.toNat
    let scr : Int := l.scrAddr.toNat
    let need : Int := Ref.scratchFactor i * (w * h)
    let c := Ref.errNumber (check i p l)
    (i.isReserved = true → c = 1)
    ∧ (i.isReserved = false →
        (w ≤ 0 ∨ h ≤ 0 → c = 2)
        ∧ (0 < w → 0 < h →
            (len ≠ 4 * w * h → c = 2)
            ∧ (len = 4 * w * h →
                ((p.maxWidth : Int) < w ∨ (p.maxHeight : Int) < h → c = 3)
                ∧ (w ≤ p.maxWidth → h ≤ p.maxHeight →
                    ((p.memSize : Int) < buf + len → c = 4)
                    ∧ (buf + len ≤ p.memSize →
                        (0 < need → (p.memSize : Int) < scr + need → c = 4)
                        ∧ (need = 0 ∨ scr + need ≤ p.memSize →
                            ((l.scrLen.toNat : Int) < need → c = 5)
                            ∧ (need ≤ l.scrLen.toNat →
                                (0 < need → buf < scr + need → scr < buf + len → c = 6)
                                ∧ (need = 0 ∨ scr + need ≤ buf ∨ buf + len ≤ scr → c = 0))))))))

/-- 20_memory.md §1, 60_exceptions.md §3: a command whose checks pass owns only bytes of shared memory, and its buffer and
scratch range share none. -/
def Obligations.PassedChecksBoundRanges : Prop :=
  ∀ (i : Instr) (s : State), check i s.params s.latched = .none →
    (∀ a, Ref.inBuffer s a ∨ Ref.inScratch i s a → a < s.params.memSize)
    ∧ ∀ a, ¬(Ref.inBuffer s a ∧ Ref.inScratch i s a)

/-- R226: a command that fails its checks ends with the code of the check; RESULT, memory and the setup stay. Every
instruction, the reserved ones among them. -/
def Obligations.FailureWritesStatusOnly : Prop :=
  ∀ (i : Instr) (s : State), check i s.params s.latched ≠ .none →
    ∃ t, exec i s = .next t ∧ t.busy = false ∧ t.stage = .idle ∧ t.done = true ∧ t.err = true
      ∧ t.errCode = check i s.params s.latched
      ∧ t.regWord .status = BitVec.ofNat 32 (0x06 + 0x10 * Ref.errNumber (check i s.params s.latched))
      ∧ t.result = s.result ∧ t.mem = s.mem ∧ Ref.sameSetup s t

/-- R222: the words that decode to ConfigError are OP 0, OP 6 .. F and OP 5 with STROKE 3, and each fails with code 1
and writes no memory; no command ever does, whatever its STRENGTH, LUMA, SMODE or KSEL. -/
def Obligations.ReservedEncodingsFail : Prop :=
  (∀ w : CmdWord, (decode w).isReserved = true ↔
      (w.op = 0#4 ∨ 6 ≤ w.op.toNat ∨ (w.op = 5#4 ∧ w.stroke = 3#2)))
  ∧ (∀ (i : Instr) (s : State), i.isReserved = true →
      ∃ t, exec i s = .next t ∧ t.busy = false ∧ t.stage = .idle ∧ t.done = true ∧ t.err = true
        ∧ t.errCode.code = 1 ∧ t.result = s.result ∧ t.mem = s.mem ∧ Ref.sameSetup s t)
  ∧ (∀ (i : Instr) (p : Params) (l : ConfigRegs), i.isReserved = false → check i p l ≠ .config)

/-- 60_exceptions.md §3 with 20_memory.md §2: every command that passes its checks completes, even after a hazard: STATUS, the setup, the
memory outside its ranges, and a scratch range of free bytes. -/
def Obligations.PassedCommandCompletes : Prop :=
  ∀ (i : Instr) (s : State), check i s.params s.latched = .none →
    ∃ t r, exec i s = .next t ∧ Ref.completed i s t r
      ∧ ∀ a, Ref.inScratch i s a → Memory.byteAt t.mem a = Config.freeByte s.draws a

/-! ## The pointwise commands (spec/40_pointwise.md) -/

/-- R101: GRAY.W, its encoding, its errors and its result. -/
def Obligations.GrayWeighted : Prop :=
  (∀ w : CmdWord, decode w = .grayW ↔ w &&& 0x01F#12 = 0x001#12)
  ∧ (∀ p l, check .grayW p l ≠ .config ∧ check .grayW p l ≠ .scratch ∧ check .grayW p l ≠ .overlap)
  ∧ ∀ s : State, Ref.runs .grayW s →
      ∃ t, exec .grayW s = .next t ∧ Ref.completed .grayW s t 0
        ∧ ∀ y x, Ref.inImage s y x →
            let L := (2 * (21 * Ref.input s 0 y x + 72 * Ref.input s 1 y x + 7 * Ref.input s 2 y x) + 100) / 200
            Ref.outputIs s t y x L L L (Ref.input s 3 y x)

/-- R102: GRAY.I, its encoding, its errors and its result. -/
def Obligations.GrayInteger : Prop :=
  (∀ w : CmdWord, decode w = .grayI ↔ w &&& 0x01F#12 = 0x011#12)
  ∧ (∀ p l, check .grayI p l ≠ .config ∧ check .grayI p l ≠ .scratch ∧ check .grayI p l ≠ .overlap)
  ∧ ∀ s : State, Ref.runs .grayI s →
      ∃ t, exec .grayI s = .next t ∧ Ref.completed .grayI s t 0
        ∧ ∀ y x, Ref.inImage s y x →
            let L := (77 * Ref.input s 0 y x + 150 * Ref.input s 1 y x + 29 * Ref.input s 2 y x) / 256
            Ref.outputIs s t y x L L L (Ref.input s 3 y x)

/-- R104: SEPIA, its encoding, its errors and its result; B' never clamps. -/
def Obligations.SepiaMatrix : Prop :=
  (∀ w : CmdWord, decode w = .sepia ↔ w &&& 0x00F#12 = 0x002#12)
  ∧ (∀ p l, check .sepia p l ≠ .config ∧ check .sepia p l ≠ .scratch ∧ check .sepia p l ≠ .overlap)
  ∧ ∀ s : State, Ref.runs .sepia s →
      ∃ t, exec .sepia s = .next t ∧ Ref.completed .sepia s t 0
        ∧ ∀ y x, Ref.inImage s y x →
            let R := Ref.input s 0 y x
            let G := Ref.input s 1 y x
            let B := Ref.input s 2 y x
            Ref.outputIs s t y x
              (min 255 ((2 * (393 * R + 769 * G + 189 * B) + 1000) / 2000))
              (min 255 ((2 * (349 * R + 686 * G + 168 * B) + 1000) / 2000))
              ((2 * (272 * R + 534 * G + 131 * B) + 1000) / 2000)
              (Ref.input s 3 y x)

/-! ## The FIR unit (spec/41_convolution.md) -/

/-- R127 to R130: the four BLUR commands, their encodings and their results, with the passes of R125 and R126 on each of
the four channels. -/
def Obligations.BlurConvolvesChannels : Prop :=
  ∀ row ∈ [(Instr.blurG25, KernelSel.gauss25, 0x003#12), (Instr.blurB7, KernelSel.bin7, 0x043#12),
      (Instr.blurB5, KernelSel.bin5, 0x083#12), (Instr.blurB3, KernelSel.bin3, 0x0C3#12)],
    (∀ w : CmdWord, decode w = row.1 ↔ w &&& 0x0CF#12 = row.2.2)
    ∧ (∀ p l, check row.1 p l ≠ .config)
    ∧ ∀ s : State, Ref.runs row.1 s →
        ∃ t, exec row.1 s = .next t ∧ Ref.completed row.1 s t 0
          ∧ ∀ y x c, Ref.inImage s y x → c < 4 →
              Ref.output s t c y x
                = Ref.blur row.2.1 s.latched.w.toNat s.latched.h.toNat (Ref.input s c) y x

/-- R120: every kernel of the ROM has an odd number of taps, is symmetric, and its taps sum to its norm, which is
positive. -/
def Obligations.KernelsAreNormalised : Prop :=
  ∀ k : KernelSel,
    let K := kernelRom k
    K.taps.length % 2 = 1 ∧ K.radius = (K.taps.length - 1) / 2 ∧ K.taps.reverse = K.taps ∧ K.taps.sum = K.norm ∧ 0 < K.norm

/-- R131: for u8 samples the accumulator is at most 255 × norm, below 2^24, and a pass result is at most 255. -/
def Obligations.PassResultsAreBytes : Prop :=
  ∀ (k : KernelSel) (W H : Nat) (P : Plane Nat), (∀ y x, Plane.get P y x ≤ 255) →
    (∀ sample : Int → Nat, (∀ v, sample v ≤ 255) →
      (kernelRom k).accumulate sample ≤ 255 * (kernelRom k).norm ∧ (kernelRom k).accumulate sample < 2 ^ 24)
    ∧ ∀ y x, Plane.get (passH (kernelRom k) W H P) y x ≤ 255 ∧ Plane.get (passV (kernelRom k) W H P) y x ≤ 255

/-- R132: every kernel leaves a constant plane unchanged, border included, whatever its size; so the BLUR commands map an
image whose channels are constant to itself. -/
def Obligations.ConstantPlaneIsFixed : Prop :=
  (∀ (k : KernelSel) (W H C : Nat) (P : Plane Nat), (∀ y x, y < H → x < W → Plane.get P y x = C) →
    ∀ y x, y < H → x < W → Plane.get (blur2d (kernelRom k) W H P) y x = C)
  ∧ ∀ i ∈ [Instr.blurG25, .blurB7, .blurB5, .blurB3], ∀ (s : State) (C : Nat → Nat), Ref.runs i s →
      (∀ y x c, Ref.inImage s y x → c < 4 → Ref.input s c y x = C c) →
      ∃ t, exec i s = .next t ∧ ∀ y x c, Ref.inImage s y x → c < 4 → Ref.output s t c y x = C c

/-! ## The gradient unit (spec/42_gradient.md) -/

/-- R143, with the widths of 42_gradient.md's first rule: S = Gx² + Gy² exactly; for u8 samples |Gx|, |Gy| ≤ 1020 and S is at
most 1 300 500, which is reached at Gx = 510, Gy = 1020; all are 0 at every border pixel. -/
def Obligations.GradientFitsItsWidths : Prop :=
  (∀ (W H : Nat) (Q : Plane Nat), (∀ y x, Plane.get Q y x ≤ 255) → ∀ y x, y < H → x < W →
    let c := Plane.get (gradient W H Q) y x
    c.gx ≤ 1020 ∧ -1020 ≤ c.gx ∧ c.gy ≤ 1020 ∧ -1020 ≤ c.gy ∧ (c.s : Int) = c.gx ^ 2 + c.gy ^ 2 ∧ c.s ≤ 1300500
      ∧ (interior W H y x = false → c.gx = 0 ∧ c.gy = 0 ∧ c.s = 0 ∧ c.d = .d0))
  ∧ ∃ Q : Plane Nat, (∀ y x, Plane.get Q y x ≤ 255) ∧
      let c := Plane.get (gradient 3 3 Q) 1 1
      c.gx = 510 ∧ c.gy = 1020 ∧ c.s = 1300500

/-- R145: the integer quantizer agrees with atan2 folded into [0, 180) degrees and cut at
22.5, 67.5, 112.5 and 157.5 degrees, for every integer (Gx, Gy), the zero vector among them. -/
def Obligations.QuantizerIsAtan2 : Prop :=
  ∀ gx gy : Int,
    let θ := Complex.arg ⟨gx, gy⟩
    let φ := if θ < 0 then θ + Real.pi else if θ = Real.pi then 0 else θ
    let u := Real.pi / 8
    (qdir gx gy = .d0 ↔ φ < u ∨ 7 * u ≤ φ) ∧ (qdir gx gy = .d45 ↔ u ≤ φ ∧ φ < 3 * u)
      ∧ (qdir gx gy = .d90 ↔ 3 * u ≤ φ ∧ φ < 5 * u) ∧ (qdir gx gy = .d135 ↔ 5 * u ≤ φ ∧ φ < 7 * u)

/-! ## The Sobel detector (spec/43_sobel.md) -/

open Classical in
/-- R162: the threshold of SOBEL.P is the (idx+1)-th smallest S over the interior pixels, idx = floor(count × p) clamped;
0 where there is no interior pixel. -/
def Obligations.PercentileThresholdIsOrderStatistic : Prop :=
  ∀ (W H pct : Nat) (S : Plane Nat),
    let thr := percentileThreshold (interiorMagnitudes W H S) pct
    let inside := (Finset.range H ×ˢ Finset.range W).filter fun q => Ref.isInterior W H q.1 q.2
    let count := (W - 2) * (H - 2)
    let idx := min (count * pct / 10000) (count - 1)
    inside.card = count
    ∧ (count = 0 → thr = 0)
    ∧ (0 < count →
        (inside.filter fun q => Plane.get S q.1 q.2 < thr).card ≤ idx
        ∧ idx < (inside.filter fun q => Plane.get S q.1 q.2 ≤ thr).card)

/-- R163 with R161: SOBEL.P, its encoding and its result: RESULT is the threshold of R162, an interior pixel is an edge
when S > 0 and S ≥ thr, every other pixel is opaque black, the border included. -/
def Obligations.SobelPercentileResult : Prop :=
  (∀ w : CmdWord, decode w = .sobelP ↔ w &&& 0x02F#12 = 0x004#12)
  ∧ (∀ p l, check .sobelP p l ≠ .config)
  ∧ ∀ s : State, Ref.runs .sobelP s →
      let W := s.latched.w.toNat
      let H := s.latched.h.toNat
      let S := Ref.mag W H (Ref.luma s)
      ∃ t thr, exec .sobelP s = .next t ∧ Ref.completed .sobelP s t thr
        ∧ thr = percentileThreshold (interiorMagnitudes W H (Plane.tabulate W H S)) s.latched.pct.toNat
        ∧ ∀ y x, Ref.inImage s y x →
            (Ref.isInterior W H y x ∧ 0 < S y x ∧ thr ≤ S y x → Ref.outputIs s t y x 255 255 255 255)
            ∧ (¬(Ref.isInterior W H y x ∧ 0 < S y x ∧ thr ≤ S y x) → Ref.outputIs s t y x 0 0 0 255)

/-- R164 with R161: SOBEL.F, its encoding and its result: RESULT is FTHR, the border is transparent. -/
def Obligations.SobelFixedResult : Prop :=
  (∀ w : CmdWord, decode w = .sobelF ↔ w &&& 0x02F#12 = 0x024#12)
  ∧ (∀ p l, check .sobelF p l ≠ .config)
  ∧ ∀ s : State, Ref.runs .sobelF s →
      let W := s.latched.w.toNat
      let H := s.latched.h.toNat
      let S := Ref.mag W H (Ref.luma s)
      let thr := s.latched.fthr.toNat
      ∃ t, exec .sobelF s = .next t ∧ Ref.completed .sobelF s t thr
        ∧ ∀ y x, Ref.inImage s y x →
            (¬Ref.isInterior W H y x → Ref.outputIs s t y x 0 0 0 0)
            ∧ (Ref.isInterior W H y x → 0 < S y x ∧ thr ≤ S y x → Ref.outputIs s t y x 255 255 255 255)
            ∧ (Ref.isInterior W H y x → ¬(0 < S y x ∧ thr ≤ S y x) → Ref.outputIs s t y x 0 0 0 255)

/-! ## The Canny pipeline (spec/44_canny.md) -/

/-- R181: the strength preset. -/
def Obligations.LegacySigmaResolves : Prop :=
  ∀ s100 : Nat,
    resolveStrength .low s100 = .low ∧ resolveStrength .medium s100 = .medium ∧ resolveStrength .high s100 = .high
    ∧ (180 ≤ s100 → resolveStrength .legacy s100 = .low)
    ∧ (s100 < 100 → resolveStrength .legacy s100 = .high)
    ∧ (100 ≤ s100 → s100 < 180 → resolveStrength .legacy s100 = .medium)

/-- 44_canny.md §4 with 42_gradient.md (the magnitude rule): the integer tests are RS's tests on m = sqrt(N) and
m_max = sqrt(Smax), for every preset, where Smax > 0. -/
def Obligations.ThresholdsAreExactOnRoots : Prop :=
  ∀ (st : Strength) (v smax : Nat), 0 < smax →
    let hi : Real := match st with | .low => 0.25 | .medium => 0.20 | .high => 0.15
    let lo : Real := match st with | .low => 0.10 | .medium => 0.08 | .high => 0.06
    let m := Real.sqrt v
    let mmax := Real.sqrt smax
    (classify (presetTable st) smax v = .strong ↔ hi * mmax ≤ m)
    ∧ (classify (presetTable st) smax v = .weak ↔ lo * mmax ≤ m ∧ m < hi * mmax)
    ∧ (classify (presetTable st) smax v = .none ↔ m < lo * mmax)

/-- R189: after hysteresis a pixel is strong exactly when it was, or was weak and is joined to a strong pixel by an
8-connected path of weak or strong pixels; every other pixel keeps its state. -/
def Obligations.HysteresisIsLinkedSet : Prop :=
  ∀ (W H : Nat) (f : Nat → Nat → EdgeState) (y x : Nat), y < H → x < W →
    let E := hysteresis W H (Plane.tabulate W H f)
    (Plane.get E y x = .strong ↔ Ref.Linked W H (fun v u => f v u = .strong) (fun v u => f v u = .weak) y x)
    ∧ (¬Ref.Linked W H (fun v u => f v u = .strong) (fun v u => f v u = .weak) y x → Plane.get E y x = f y x)

/-- R193 to R195 with R183 to R192: the three CANNY commands at every STRENGTH, their encodings and their results: RESULT
is the largest N, an edge pixel is opaque white, every other opaque black. -/
def Obligations.CannyResult : Prop :=
  ∀ row ∈ [(Instr.cannyThin, Stroke.thin, 0x005#12), (Instr.cannyMedium, Stroke.medium, 0x405#12),
      (Instr.cannyThick, Stroke.thick, 0x805#12)],
    (∀ w : CmdWord, (∃ f, decode w = row.1 f) ↔ w &&& 0xC0F#12 = row.2.2)
    ∧ (∀ (w : CmdWord) (f : StrengthField), decode w = row.1 f → f.encode = w.extractLsb' 8 2)
    ∧ (∀ f p l, check (row.1 f) p l ≠ .config)
    ∧ ∀ (s : State) (f : StrengthField), Ref.runs (row.1 f) s →
        let W := s.latched.w.toNat
        let H := s.latched.h.toNat
        let st := resolveStrength f s.latched.sigma.toNat
        ∃ t smax, exec (row.1 f) s = .next t ∧ Ref.completed (row.1 f) s t smax
          ∧ Ref.isMax W H (Ref.cannyN s st) smax
          ∧ ∀ y x, Ref.inImage s y x →
              (Ref.cannyEdge s st row.2.1 smax y x → Ref.outputIs s t y x 255 255 255 255)
              ∧ (¬Ref.cannyEdge s st row.2.1 smax y x → Ref.outputIs s t y x 0 0 0 255)

/-- 44_canny.md §7 (c), (d), (f): with stroke thin the mask is unchanged by dilation and every edge has N > 0; with
Smax = 0 no stroke gives an edge. -/
def Obligations.CannyMaskLaws : Prop :=
  ∀ (st : Strength) (W H : Nat) (N : Plane Nat) (y x : Nat), y < H → x < W →
    let M := cannyMask st W H N
    Plane.get (dilate (strokeRadius .thin) W H M) y x = Plane.get M y x
    ∧ (Plane.get M y x = true → 0 < Plane.get N y x)
    ∧ (planeMax N = 0 → ∀ k, Plane.get (dilate (strokeRadius k) W H M) y x = false)

/-! ## Rules of the whole machine -/

/-- 30_encoding.md §2, 10_state.md §5 and 00_scope.md §6: the checks depend on the registers that the command reads alone, and
its result on those, the parameters and the input bytes of its buffer; no other register, and nothing an earlier command
left, makes a difference. -/
def Obligations.ResultDependsOnInputOnly : Prop :=
  ∀ (i : Instr) (s s' : State), s'.params = s.params → Ref.sameOperands i s.latched s'.latched →
    check i s'.params s'.latched = check i s.params s.latched
    ∧ (Ref.runs i s → s'.touched = false → (∀ a, Ref.inBuffer s a → s'.inputByte a = s.inputByte a) →
      ∃ t t', exec i s = .next t ∧ exec i s' = .next t' ∧ t'.result = t.result
        ∧ ∀ a, Ref.inBuffer s a → Memory.byteAt t'.mem a = Memory.byteAt t.mem a)

/-- 10_state.md §4, BUSY: only an accepted START sets it. -/
def Obligations.OnlyStartSetsBusy : Prop :=
  ∀ s t : State, step s = .next t → s.busy = false → t.busy = true →
    ∃ addr v rest, s.events = .regWrite addr .word v :: rest ∧ addr = s.params.base + Reg.ctrl.offset
      ∧ v.getLsbD 0 = true ∧ t.latched = s.regs

/-- 10_state.md §4, BUSY, and 70_reset_and_hazards.md §1: only the end of the command, which sets DONE, or a reset clears
it. The model notes at that end that the host has yet to observe it, and whether the checks passed (log 26). -/
def Obligations.OnlyEndOrResetClearsBusy : Prop :=
  ∀ s t : State, step s = .next t → s.busy = true → t.busy = false →
    (t.done = true ∧ ∃ c, t.unseen = { regs := s.latched, completed := c } :: s.unseen
        ∧ (c = true ↔ check (decode s.latched.cmd) s.params s.latched = .none))
    ∨ ∃ rest, s.events = .reset :: rest

/-- 10_state.md §2, RESULT: it changes only at a successful completion or at a reset. -/
def Obligations.OnlySuccessWritesResult : Prop :=
  ∀ s t : State, step s = .next t → t.result ≠ s.result →
    (s.busy = true ∧ t.busy = false ∧ t.done = true ∧ check (decode s.latched.cmd) s.params s.latched = .none)
    ∨ ∃ rest, s.events = .reset :: rest

/-- 20_memory.md §2, §5: a byte of memory that a step changes is in the busy engine's buffer or scratch range, or is stored
by the host in that step, or is a byte of a completed command's ranges that such a store disturbs before the host has
observed the end (log 26). Which bytes the ranges are that a reset frees while the command is one whose checks would fail is
the model's choice (log 15). -/
def Obligations.OnlyOwnersChangeMemory : Prop :=
  ∀ (s t : State) (a : Nat), step s = .next t → Memory.byteAt t.mem a ≠ Memory.byteAt s.mem a →
    (s.busy = true ∧ (Ref.inBuffer s a ∨ Ref.inScratch (decode s.latched.cmd) s a))
    ∨ (∃ addr bs rest, s.events = .memWrite addr bs :: rest
        ∧ ((addr ≤ a ∧ a < addr + bs.length) ∨ Ref.disturbs s addr bs.length a))
    ∨ (∃ k c rest, s.events = .memPerform k :: rest ∧ s.posted[k]? = some c ∧ (c.1 = a ∨ Ref.disturbs s c.1 1 a))

/-- 70_reset_and_hazards.md §4 (fairness) and §3 (the result once the end is observed), with log 16 and 26: on a busy
engine `WAIT STATUS.BUSY == 0` is over within its polls and two steps more, and a wait for the interrupt with IRQ_EN = 1 in
two steps where no interrupt was pending, whatever the command and its checks; the host has then observed every end, and
where it has no store outstanding it reads every byte as memory holds it. -/
def Obligations.WaitForEndTerminates : Prop :=
  ∀ (s : State) (polls : Nat) (rest : List Event), s.busy = true →
    s.events = .wait .status 0 0 0 polls :: rest
        ∨ (s.events = .waitIrq :: rest ∧ s.irqEn = true ∧ s.irq = false) →
    ∃ k t, k ≤ polls + 2 ∧ core.run k s = .next t ∧ t.busy = false ∧ t.done = true ∧ t.events = rest ∧ t.unseen = []
      ∧ (t.posted = [] → ∀ a, t.hostByte a = Memory.byteAt t.mem a)

/-! ## The assembler (spec/30_encoding.md §5) -/

/-- LAUNCH of 30_encoding.md §5: from an idle engine, its two writes make the engine busy with
exactly the command assembled, on the configuration the registers hold, and leave it waiting for the end. -/
def Obligations.LaunchRunsAssembledCommand : Prop :=
  ∀ (s : State) (i : Instr) (irqEn : Bool) (polls : Nat) (rest : List Event), s.busy = false →
    s.events = launch s.params i irqEn polls ++ rest →
    ∃ t, core.run 2 s = .next t ∧ t.busy = true ∧ t.irqEn = irqEn ∧ decode t.latched.cmd = i
      ∧ t.latched = { s.regs with cmd := encode i } ∧ t.mem = s.mem
      ∧ t.events = .wait .status 0 0 0 polls :: rest

/-- 30_encoding.md §5, "The legacy encoding keeps RS's mapping exact": σ ≥ 1.8 gives low, σ < 1.0 high, any other σ medium, for every
rational σ. -/
def Obligations.SigmaEncodingIsExact : Prop :=
  ∀ σ : Rat,
    sigmaUnits σ ≤ 65535
    ∧ (resolveStrength .legacy (sigmaUnits σ) = .low ↔ (9 : Rat) / 5 ≤ σ)
    ∧ (resolveStrength .legacy (sigmaUnits σ) = .high ↔ σ < 1)
    ∧ (resolveStrength .legacy (sigmaUnits σ) = .medium ↔ 1 ≤ σ ∧ σ < (9 : Rat) / 5)

/-- 30_encoding.md §5, `sobel_edges`: the assembler encodes exactly the multiples of 1/10000 in [0, 1.6383], as 10000·p, and refuses
every other p. -/
def Obligations.PercentileEncoding : Prop :=
  ∀ p : Rat,
    (∀ n : Nat, RsCall.command (.sobelEdges p) = .ok { instr := .sobelP, pct := some n } ↔
      p = (n : Rat) / 10000 ∧ n ≤ 16383)
    ∧ ((¬∃ n : Nat, p = (n : Rat) / 10000 ∧ n ≤ 16383) →
        RsCall.command (.sobelEdges p) = .error .percentileNotInSteps)
end

