-- ==== Sys2Proof/Laws/Memory.lean ====
section
/-! SUPPORT. What the operations over shared memory do (spec/20_memory.md R64): a read after a fill, and the canonical
form kept. -/

namespace Sys2Proof.Machine

open Sys2Proof

@[simp] theorem Memory.written_nil (a : Nat) : Memory.written [] a = none := rfl

theorem Memory.written_cons (c : Host.Cell) (m : Memory) (a : Nat) :
    Memory.written (c :: m) a = if c.1 = a then some c.2 else Memory.written m a := rfl

theorem Memory.written_append (m n : Memory) (a : Nat) :
    Memory.written (m ++ n) a = (Memory.written m a).or (Memory.written n a) := by
  induction m with
  | nil => simp
  | cons c m ih =>
    simp only [List.cons_append, Memory.written_cons, ih]
    split <;> simp

/-- Keeping the cells whose address passes a test keeps the written bytes at the addresses that pass. -/
theorem Memory.written_filter (m : Memory) (p : Nat → Bool) (a : Nat) :
    Memory.written (m.filter fun c => p c.1) a = if p a then Memory.written m a else none := by
  induction m with
  | nil => simp
  | cons c m ih =>
    by_cases hc : c.1 = a
    · subst hc
      by_cases hp : p c.1 <;> simp [hp, Memory.written_cons, ih]
    · by_cases hp : p c.1 <;> simp [hp, Memory.written_cons, ih, hc]

theorem Memory.written_run (a n : Nat) (f : Nat → Byte) (x : Nat) :
    Memory.written ((List.range n).map fun k => (a + k, f (a + k))) x
      = if a ≤ x ∧ x < a + n then some (f x) else none := by
  induction n with
  | zero => simp
  | succ n ih =>
    rw [List.range_succ, List.map_append, Memory.written_append, ih]
    simp only [List.map_cons, List.map_nil, Memory.written_cons, Memory.written_nil]
    by_cases h : a ≤ x ∧ x < a + n
    · have : a ≤ x ∧ x < a + (n + 1) := ⟨h.1, by omega⟩
      simp [h, this]
    · by_cases hx : a + n = x
      · subst hx
        simp
      · have : ¬(a ≤ x ∧ x < a + (n + 1)) := by omega
        simp [h, this, hx]

/-- One lemma for `fill`: inside the range f of the address, outside it what was there. -/
theorem Memory.written_fill (m : Memory) (a n : Nat) (f : Nat → Byte) (x : Nat) :
    Memory.written (Memory.fill m a n f) x = if a ≤ x ∧ x < a + n then some (f x) else Memory.written m x := by
  have h1 := Memory.written_filter m (fun k => decide (k < a)) x
  have h2 := Memory.written_filter m (fun k => decide (a + n ≤ k)) x
  simp only [decide_eq_true_eq] at h1 h2
  rw [Memory.fill, Memory.written_append, Memory.written_append, Memory.written_run, h1, h2]
  by_cases hl : x < a
  · have h3 : ¬(a ≤ x ∧ x < a + n) := by omega
    have h4 : ¬(a + n ≤ x) := by omega
    simp [hl, h3, h4]
  · by_cases hr : a + n ≤ x
    · have h3 : ¬(a ≤ x ∧ x < a + n) := by omega
      simp [hl, h3, hr]
    · have h3 : a ≤ x ∧ x < a + n := by omega
      simp [hl, h3]

theorem Memory.byteAt_fill (m : Memory) (a n : Nat) (f : Nat → Byte) (x : Nat) :
    Memory.byteAt (Memory.fill m a n f) x = if a ≤ x ∧ x < a + n then f x else Memory.byteAt m x := by
  unfold Memory.byteAt
  rw [Memory.written_fill]
  split <;> rfl

theorem Memory.byteAt_fill_inside (m : Memory) (a n : Nat) (f : Nat → Byte) (x : Nat) (h : a ≤ x ∧ x < a + n) :
    Memory.byteAt (Memory.fill m a n f) x = f x := by
  rw [Memory.byteAt_fill, if_pos h]

theorem Memory.byteAt_fill_outside (m : Memory) (a n : Nat) (f : Nat → Byte) (x : Nat) (h : ¬(a ≤ x ∧ x < a + n)) :
    Memory.byteAt (Memory.fill m a n f) x = Memory.byteAt m x := by
  rw [Memory.byteAt_fill, if_neg h]

theorem Memory.byteAt_store (m : Memory) (a : Nat) (bs : List Byte) (x : Nat) :
    Memory.byteAt (Memory.store m a bs) x
      = if a ≤ x ∧ x < a + bs.length then bs.getD (x - a) 0#8 else Memory.byteAt m x :=
  Memory.byteAt_fill ..

/-- `fill` keeps the canonical form. -/
theorem Memory.fill_wf (m : Memory) (a n : Nat) (f : Nat → Byte) (h : Memory.wf m) : Memory.wf (Memory.fill m a n f) := by
  have hrun : ((List.range n).map fun k => ((a + k, f (a + k)) : Host.Cell)).Pairwise (fun c d => c.1 < d.1) := by
    rw [List.pairwise_map]
    exact List.Pairwise.imp (fun hlt => by simpa using hlt) List.pairwise_lt_range
  unfold Memory.fill Memory.wf
  rw [List.pairwise_append, List.pairwise_append]
  refine ⟨⟨h.filter _, hrun, ?_⟩, h.filter _, ?_⟩
  · intro c hc d hd
    simp only [List.mem_filter, decide_eq_true_eq, List.mem_map, List.mem_range] at hc hd
    obtain ⟨k, -, rfl⟩ := hd
    exact Nat.lt_of_lt_of_le hc.2 (Nat.le_add_right a k)
  · intro c hc d hd
    simp only [List.mem_append, List.mem_filter, decide_eq_true_eq, List.mem_map, List.mem_range] at hc hd
    rcases hc with hc | ⟨k, hk, rfl⟩
    · omega
    · simp only; omega

/-- `fill` stays inside memory when the range does; an empty range is no constraint. -/
theorem Memory.fill_within (m : Memory) (a n size : Nat) (f : Nat → Byte) (h : Memory.within m size)
    (hr : n = 0 ∨ a + n ≤ size) : Memory.within (Memory.fill m a n f) size := by
  intro c hc
  simp only [Memory.fill, List.mem_append, List.mem_filter, List.mem_map, List.mem_range] at hc
  rcases hc with (hc | ⟨k, hk, rfl⟩) | hc
  · exact h c hc.1
  · simp only; omega
  · exact h c hc.1

theorem Memory.store_wf (m : Memory) (a : Nat) (bs : List Byte) (h : Memory.wf m) : Memory.wf (Memory.store m a bs) :=
  Memory.fill_wf _ _ _ _ h

theorem Memory.store_within (m : Memory) (a : Nat) (bs : List Byte) (size : Nat) (h : Memory.within m size)
    (hr : bs.length = 0 ∨ a + bs.length ≤ size) : Memory.within (Memory.store m a bs) size :=
  Memory.fill_within _ _ _ _ _ h hr

/-- `freeRanges`: free inside the two ranges as far as they lie in memory, outside them what was there. -/
theorem Memory.byteAt_freeRanges (m : Memory) (p : Params) (l : ConfigRegs) (d a : Nat) :
    Memory.byteAt (m.freeRanges p l d) a
      = if l.owns a = true ∧ a < p.memSize then Config.freeByte d a else Memory.byteAt m a := by
  unfold Memory.freeRanges
  rw [Memory.byteAt_fill, Memory.byteAt_fill]
  have hc : ∀ base n : Nat, (base ≤ a ∧ a < base + p.clip base n) ↔ ((base ≤ a ∧ a < base + n) ∧ a < p.memSize) := by
    intro base n
    unfold Params.clip
    omega
  simp only [hc, ConfigRegs.owns, inRange, Bool.or_eq_true, Bool.and_eq_true, decide_eq_true_eq]
  split <;> split <;> first
    | (split <;> first | rfl | (exfalso; tauto))
    | rfl
    | (exfalso; tauto)

theorem Memory.freeRanges_wf (m : Memory) (p : Params) (l : ConfigRegs) (d : Nat) (h : Memory.wf m) :
    Memory.wf (m.freeRanges p l d) := Memory.fill_wf _ _ _ _ (Memory.fill_wf _ _ _ _ h)

theorem Memory.freeRanges_within (m : Memory) (p : Params) (l : ConfigRegs) (d : Nat) (h : Memory.within m p.memSize) :
    Memory.within (m.freeRanges p l d) p.memSize := by
  have hc : ∀ base n : Nat, p.clip base n = 0 ∨ base + p.clip base n ≤ p.memSize := by
    intro base n
    unfold Params.clip
    omega
  exact Memory.fill_within _ _ _ _ _ (Memory.fill_within _ _ _ _ _ h (hc _ _)) (hc _ _)

/-- Two canonical memories with the same written bytes are the same list. -/
theorem Memory.ext_wf (m n : Memory) (hm : Memory.wf m) (hn : Memory.wf n)
    (h : ∀ a, Memory.written m a = Memory.written n a) : m = n := by
  induction m generalizing n with
  | nil =>
    cases n with
    | nil => rfl
    | cons d n => simpa [Memory.written_cons] using h d.1
  | cons c m ih =>
    have below : ∀ (l : Memory) (k : Nat), (∀ e ∈ l, k < e.1) → Memory.written l k = none := by
      intro l k hl
      induction l with
      | nil => rfl
      | cons e l ihl =>
        have he := hl e (by simp)
        rw [Memory.written_cons, if_neg (by omega)]
        exact ihl fun e' he' => hl e' (by simp [he'])
    cases n with
    | nil => simpa [Memory.written_cons] using h c.1
    | cons d n =>
      rw [Memory.wf, List.pairwise_cons] at hm hn
      have hkey : c.1 = d.1 := by
        rcases Nat.lt_trichotomy c.1 d.1 with hlt | heq | hgt
        · have := h c.1
          rw [Memory.written_cons, if_pos rfl, below (d :: n) c.1] at this
          · simp at this
          · intro e he
            rcases List.mem_cons.mp he with rfl | he
            · exact hlt
            · exact Nat.lt_trans hlt (hn.1 e he)
        · exact heq
        · have := h d.1
          rw [Memory.written_cons (c := d), if_pos rfl, below (c :: m) d.1] at this
          · simp at this
          · intro e he
            rcases List.mem_cons.mp he with rfl | he
            · exact hgt
            · exact Nat.lt_trans hgt (hm.1 e he)
      have hval : c.2 = d.2 := by
        have := h c.1
        rwa [Memory.written_cons, if_pos rfl, Memory.written_cons, if_pos hkey.symm, Option.some.injEq] at this
      have hcd : c = d := Prod.ext hkey hval
      subst hcd
      congr 1
      refine ih n hm.2 hn.2 fun a => ?_
      have := h a
      by_cases ha : c.1 = a
      · subst ha
        rw [below m _ hm.1, below n _ hn.1]
      · rwa [Memory.written_cons, if_neg ha, Memory.written_cons, if_neg ha] at this

end Sys2Proof.Machine
end

