-- ==== Sys2Proof/Laws/Planes.lean ====
section
/-! SUPPORT. Planes: an element of a tabulated plane, and an update of one element (spec/00_scope.md R13); the bytes of an
image (20_memory.md R62). -/

namespace Sys2Proof.Machine

open Sys2Proof

variable {α : Type} [Inhabited α]

@[simp] theorem Plane.get_tabulate (W H : Nat) (f : Nat → Nat → α) {y x : Nat} (hy : y < H) (hx : x < W) :
    Plane.get (Plane.tabulate W H f) y x = f y x := by
  simp [Plane.get, Plane.tabulate, List.getD_eq_getElem?_getD, hy, hx]

theorem Plane.get_tabulate_outside (W H : Nat) (f : Nat → Nat → α) {y x : Nat} (h : ¬(y < H ∧ x < W)) :
    Plane.get (Plane.tabulate W H f) y x = default := by
  unfold Plane.get Plane.tabulate
  by_cases hy : y < H
  · have hx : W ≤ x := by omega
    simp [List.getD_eq_getElem?_getD, hy, hx]
  · have hy : H ≤ y := by omega
    simp [List.getD_eq_getElem?_getD, hy]

/-- A plane has H rows of W elements each. -/
def Plane.shape (p : Plane α) (W H : Nat) : Prop := p.length = H ∧ ∀ y, y < H → (List.getD p y []).length = W

omit [Inhabited α] in
theorem Plane.shape_tabulate (W H : Nat) (f : Nat → Nat → α) : Plane.shape (Plane.tabulate W H f) W H := by
  refine ⟨by simp [Plane.tabulate], fun y hy => ?_⟩
  simp [Plane.tabulate, List.getD_eq_getElem?_getD, hy]

omit [Inhabited α] in
theorem Plane.shape_put {p : Plane α} {W H : Nat} (h : Plane.shape p W H) (y x : Nat) (v : α) :
    Plane.shape (Plane.put p y x v) W H := by
  refine ⟨by simpa [Plane.put] using h.1, fun k hk => ?_⟩
  by_cases hky : y = k
  · subst hky
    have hlen : y < p.length := by rw [h.1]; exact hk
    have := h.2 y hk
    simpa [Plane.put, List.getD_eq_getElem?_getD, hlen] using this
  · have := h.2 k hk
    simpa [Plane.put, List.getD_eq_getElem?_getD, List.getElem?_set_ne hky] using this

/-- An update changes the one element it names. -/
theorem Plane.get_put {p : Plane α} {W H : Nat} (h : Plane.shape p W H) {y x : Nat} (hy : y < H) (hx : x < W) (v : α)
    (v' u' : Nat) :
    Plane.get (Plane.put p y x v) v' u' = if v' = y ∧ u' = x then v else Plane.get p v' u' := by
  have hlen : y < p.length := by rw [h.1]; exact hy
  have hrow := h.2 y hy
  by_cases hv : v' = y
  · subst hv
    by_cases hu : u' = x
    · subst hu
      have : u' < (List.getD p v' []).length := by rw [hrow]; exact hx
      simp only [List.getD_eq_getElem?_getD] at this
      simp [Plane.get, Plane.put, List.getD_eq_getElem?_getD, hlen]
      simp_all
    · simp [Plane.get, Plane.put, List.getD_eq_getElem?_getD, hlen, hu, List.getElem?_set_ne (Ne.symm hu)]
  · simp [Plane.get, Plane.put, List.getD_eq_getElem?_getD, hv, List.getElem?_set_ne (Ne.symm hv)]

/-- The byte of channel c of pixel (x, y) stands at offset 4(yW + x) + c of the buffer (R62). -/
theorem imageByte_pixel (W : Nat) (out : Plane Pixel) (y x c : Nat) (hx : x < W) (hc : c < 4) :
    imageByte W out (4 * (y * W + x) + c) = (Plane.get out y x).channel c := by
  have h4 : (4 * (y * W + x) + c) / 4 = y * W + x := by omega
  have hm : (4 * (y * W + x) + c) % 4 = c := by omega
  have hd : (y * W + x) / W = y := by
    rw [Nat.mul_comm, Nat.mul_add_div (by omega), Nat.div_eq_of_lt hx, Nat.add_zero]
  have hr : (y * W + x) % W = x := by
    rw [Nat.mul_comm, Nat.mul_add_mod, Nat.mod_eq_of_lt hx]
  simp [imageByte, h4, hm, hd, hr]

/-- A pixel of the input planes (R62). -/
theorem State.inputPlane_get (s : State) {y x : Nat} (hy : y < s.latched.h.toNat) (hx : x < s.latched.w.toNat) :
    Plane.get s.inputPlane y x = s.inputPixel y x := Plane.get_tabulate _ _ _ hy hx

/-- Channel c of an input pixel is the input byte at addr(x, y, c) (R62). -/
theorem State.inputPixel_channel (s : State) (y x c : Nat) (hc : c < 4) :
    (s.inputPixel y x).channel c = s.inputByte (s.latched.pixelAddr y x + c) := by
  have : c = 0 ∨ c = 1 ∨ c = 2 ∨ c = 3 := by omega
  rcases this with rfl | rfl | rfl | rfl <;> rfl

/-- Every offset of a W×H image is that of one channel of one pixel (R62). -/
theorem pixel_of_offset (W H k : Nat) (h : k < 4 * (W * H)) :
    ∃ y x c, y < H ∧ x < W ∧ c < 4 ∧ k = 4 * (y * W + x) + c := by
  have hq : k / 4 < W * H := by omega
  have hW : 0 < W := by
    rcases Nat.eq_zero_or_pos W with rfl | h'
    · simp at h
    · exact h'
  refine ⟨k / 4 / W, k / 4 % W, k % 4, Nat.div_lt_of_lt_mul hq, Nat.mod_lt _ hW, Nat.mod_lt _ (by omega), ?_⟩
  have h1 := Nat.div_add_mod (k / 4) W
  have h2 := Nat.div_add_mod k 4
  rw [Nat.mul_comm] at h1
  omega

end Sys2Proof.Machine
end

