-- ==== Sys2Proof/Laws/State.lean ====
section
/-! SUPPORT. One lemma per field per shared update of State, each true by definition, so that no later proof unfolds a
record update. -/

namespace Sys2Proof.Machine.State

open Sys2Proof

variable (s : State)

/-! ## `fail` (60_exceptions.md R226) -/

@[simp] theorem fail_params (code : ErrCode) : (s.fail code).params = s.params := rfl
@[simp] theorem fail_irqEn (code : ErrCode) : (s.fail code).irqEn = s.irqEn := rfl
@[simp] theorem fail_busy (code : ErrCode) : (s.fail code).busy = false := rfl
@[simp] theorem fail_done (code : ErrCode) : (s.fail code).done = true := rfl
@[simp] theorem fail_err (code : ErrCode) : (s.fail code).err = true := rfl
@[simp] theorem fail_errCode (code : ErrCode) : (s.fail code).errCode = code := rfl
@[simp] theorem fail_stage (code : ErrCode) : (s.fail code).stage = .idle := rfl
@[simp] theorem fail_regs (code : ErrCode) : (s.fail code).regs = s.regs := rfl
@[simp] theorem fail_result (code : ErrCode) : (s.fail code).result = s.result := rfl
@[simp] theorem fail_latched (code : ErrCode) : (s.fail code).latched = s.latched := rfl
@[simp] theorem fail_input (code : ErrCode) : (s.fail code).input = [] := rfl
@[simp] theorem fail_inputDraw (code : ErrCode) : (s.fail code).inputDraw = none := rfl
@[simp] theorem fail_mem (code : ErrCode) : (s.fail code).mem = s.mem := rfl
@[simp] theorem fail_touched (code : ErrCode) : (s.fail code).touched = false := rfl
@[simp] theorem fail_unseen (code : ErrCode) : (s.fail code).unseen = ⟨s.latched, false⟩ :: s.unseen := rfl
@[simp] theorem fail_posted (code : ErrCode) : (s.fail code).posted = s.posted := rfl
@[simp] theorem fail_events (code : ErrCode) : (s.fail code).events = s.events := rfl
@[simp] theorem fail_reply (code : ErrCode) : (s.fail code).reply = s.reply := rfl
@[simp] theorem fail_draws (code : ErrCode) : (s.fail code).draws = s.draws := rfl

/-! ## `complete` (60_exceptions.md R229) -/

@[simp] theorem complete_params (i : Instr) (out : Nat → Byte) (r : Nat) : (s.complete i out r).params = s.params := rfl
@[simp] theorem complete_irqEn (i : Instr) (out : Nat → Byte) (r : Nat) : (s.complete i out r).irqEn = s.irqEn := rfl
@[simp] theorem complete_busy (i : Instr) (out : Nat → Byte) (r : Nat) : (s.complete i out r).busy = false := rfl
@[simp] theorem complete_done (i : Instr) (out : Nat → Byte) (r : Nat) : (s.complete i out r).done = true := rfl
@[simp] theorem complete_err (i : Instr) (out : Nat → Byte) (r : Nat) : (s.complete i out r).err = s.err := rfl
@[simp] theorem complete_errCode (i : Instr) (out : Nat → Byte) (r : Nat) : (s.complete i out r).errCode = s.errCode := rfl
@[simp] theorem complete_stage (i : Instr) (out : Nat → Byte) (r : Nat) : (s.complete i out r).stage = .idle := rfl
@[simp] theorem complete_regs (i : Instr) (out : Nat → Byte) (r : Nat) : (s.complete i out r).regs = s.regs := rfl
@[simp] theorem complete_result (i : Instr) (out : Nat → Byte) (r : Nat) : (s.complete i out r).result = BitVec.ofNat 32 r := rfl
@[simp] theorem complete_latched (i : Instr) (out : Nat → Byte) (r : Nat) : (s.complete i out r).latched = s.latched := rfl
@[simp] theorem complete_input (i : Instr) (out : Nat → Byte) (r : Nat) : (s.complete i out r).input = [] := rfl
@[simp] theorem complete_inputDraw (i : Instr) (out : Nat → Byte) (r : Nat) : (s.complete i out r).inputDraw = none := rfl
@[simp] theorem complete_mem (i : Instr) (out : Nat → Byte) (r : Nat) : (s.complete i out r).mem = s.writeBack i out := rfl
@[simp] theorem complete_touched (i : Instr) (out : Nat → Byte) (r : Nat) : (s.complete i out r).touched = false := rfl
@[simp] theorem complete_unseen (i : Instr) (out : Nat → Byte) (r : Nat) : (s.complete i out r).unseen = ⟨s.latched, true⟩ :: s.unseen := rfl
@[simp] theorem complete_posted (i : Instr) (out : Nat → Byte) (r : Nat) : (s.complete i out r).posted = s.posted := rfl
@[simp] theorem complete_events (i : Instr) (out : Nat → Byte) (r : Nat) : (s.complete i out r).events = s.events := rfl
@[simp] theorem complete_reply (i : Instr) (out : Nat → Byte) (r : Nat) : (s.complete i out r).reply = s.reply := rfl
@[simp] theorem complete_draws (i : Instr) (out : Nat → Byte) (r : Nat) : (s.complete i out r).draws = s.draws + 1 := rfl

/-! ## `acceptStart` (70_reset_and_hazards.md R255) -/

@[simp] theorem acceptStart_params (e : Bool) : (s.acceptStart e).params = s.params := rfl
@[simp] theorem acceptStart_irqEn (e : Bool) : (s.acceptStart e).irqEn = e := rfl
@[simp] theorem acceptStart_busy (e : Bool) : (s.acceptStart e).busy = true := rfl
@[simp] theorem acceptStart_done (e : Bool) : (s.acceptStart e).done = false := rfl
@[simp] theorem acceptStart_err (e : Bool) : (s.acceptStart e).err = false := rfl
@[simp] theorem acceptStart_errCode (e : Bool) : (s.acceptStart e).errCode = .none := rfl
@[simp] theorem acceptStart_stage (e : Bool) : (s.acceptStart e).stage = .check := rfl
@[simp] theorem acceptStart_regs (e : Bool) : (s.acceptStart e).regs = s.regs := rfl
@[simp] theorem acceptStart_result (e : Bool) : (s.acceptStart e).result = s.result := rfl
@[simp] theorem acceptStart_latched (e : Bool) : (s.acceptStart e).latched = s.regs := rfl
@[simp] theorem acceptStart_input (e : Bool) : (s.acceptStart e).input = s.mem := rfl
@[simp] theorem acceptStart_inputDraw (e : Bool) : (s.acceptStart e).inputDraw = if s.inputUnperformed then some s.draws else none := rfl
@[simp] theorem acceptStart_mem (e : Bool) : (s.acceptStart e).mem = s.mem := rfl
@[simp] theorem acceptStart_touched (e : Bool) : (s.acceptStart e).touched = false := rfl
@[simp] theorem acceptStart_unseen (e : Bool) : (s.acceptStart e).unseen = s.unseen := rfl
@[simp] theorem acceptStart_posted (e : Bool) : (s.acceptStart e).posted = s.posted := rfl
@[simp] theorem acceptStart_events (e : Bool) : (s.acceptStart e).events = s.events := rfl
@[simp] theorem acceptStart_reply (e : Bool) : (s.acceptStart e).reply = s.reply := rfl
@[simp] theorem acceptStart_draws (e : Bool) : (s.acceptStart e).draws = s.draws + 1 := rfl

/-! ## `platformReset` (70_reset_and_hazards.md R250) -/

@[simp] theorem platformReset_params : (s.platformReset).params = s.params := rfl
@[simp] theorem platformReset_irqEn : (s.platformReset).irqEn = false := rfl
@[simp] theorem platformReset_busy : (s.platformReset).busy = false := rfl
@[simp] theorem platformReset_done : (s.platformReset).done = false := rfl
@[simp] theorem platformReset_err : (s.platformReset).err = false := rfl
@[simp] theorem platformReset_errCode : (s.platformReset).errCode = .none := rfl
@[simp] theorem platformReset_stage : (s.platformReset).stage = .idle := rfl
@[simp] theorem platformReset_regs : (s.platformReset).regs = ConfigRegs.reset := rfl
@[simp] theorem platformReset_result : (s.platformReset).result = 0#32 := rfl
@[simp] theorem platformReset_latched : (s.platformReset).latched = ConfigRegs.reset := rfl
@[simp] theorem platformReset_input : (s.platformReset).input = [] := rfl
@[simp] theorem platformReset_inputDraw : (s.platformReset).inputDraw = none := rfl
@[simp] theorem platformReset_mem : (s.platformReset).mem = s.memAfterReset := rfl
@[simp] theorem platformReset_touched : (s.platformReset).touched = false := rfl
@[simp] theorem platformReset_unseen : (s.platformReset).unseen = s.unseen := rfl
@[simp] theorem platformReset_posted : (s.platformReset).posted = s.posted := rfl
@[simp] theorem platformReset_events : (s.platformReset).events = s.events := rfl
@[simp] theorem platformReset_reply : (s.platformReset).reply = s.reply := rfl
@[simp] theorem platformReset_draws : (s.platformReset).draws = s.draws + 1 := rfl

/-! ## `writeStatus` (10_state.md R23) -/

@[simp] theorem writeStatus_params (v : Word) : (s.writeStatus v).params = s.params := rfl
@[simp] theorem writeStatus_irqEn (v : Word) : (s.writeStatus v).irqEn = s.irqEn := rfl
@[simp] theorem writeStatus_busy (v : Word) : (s.writeStatus v).busy = s.busy := rfl
@[simp] theorem writeStatus_done (v : Word) : (s.writeStatus v).done = (s.done && !v.getLsbD 1) := rfl
@[simp] theorem writeStatus_err (v : Word) : (s.writeStatus v).err = (s.err && !v.getLsbD 2) := rfl
@[simp] theorem writeStatus_errCode (v : Word) : (s.writeStatus v).errCode = if v.getLsbD 2 then .none else s.errCode := rfl
@[simp] theorem writeStatus_stage (v : Word) : (s.writeStatus v).stage = s.stage := rfl
@[simp] theorem writeStatus_regs (v : Word) : (s.writeStatus v).regs = s.regs := rfl
@[simp] theorem writeStatus_result (v : Word) : (s.writeStatus v).result = s.result := rfl
@[simp] theorem writeStatus_latched (v : Word) : (s.writeStatus v).latched = s.latched := rfl
@[simp] theorem writeStatus_input (v : Word) : (s.writeStatus v).input = s.input := rfl
@[simp] theorem writeStatus_inputDraw (v : Word) : (s.writeStatus v).inputDraw = s.inputDraw := rfl
@[simp] theorem writeStatus_mem (v : Word) : (s.writeStatus v).mem = s.mem := rfl
@[simp] theorem writeStatus_touched (v : Word) : (s.writeStatus v).touched = s.touched := rfl
@[simp] theorem writeStatus_unseen (v : Word) : (s.writeStatus v).unseen = s.unseen := rfl
@[simp] theorem writeStatus_posted (v : Word) : (s.writeStatus v).posted = s.posted := rfl
@[simp] theorem writeStatus_events (v : Word) : (s.writeStatus v).events = s.events := rfl
@[simp] theorem writeStatus_reply (v : Word) : (s.writeStatus v).reply = s.reply := rfl
@[simp] theorem writeStatus_draws (v : Word) : (s.writeStatus v).draws = s.draws := rfl

/-! ## `hostStore` (70_reset_and_hazards.md R256) -/

@[simp] theorem hostStore_params (a : Nat) (bs : List Byte) : (s.hostStore a bs).params = s.params := rfl
@[simp] theorem hostStore_irqEn (a : Nat) (bs : List Byte) : (s.hostStore a bs).irqEn = s.irqEn := rfl
@[simp] theorem hostStore_busy (a : Nat) (bs : List Byte) : (s.hostStore a bs).busy = s.busy := rfl
@[simp] theorem hostStore_done (a : Nat) (bs : List Byte) : (s.hostStore a bs).done = s.done := rfl
@[simp] theorem hostStore_err (a : Nat) (bs : List Byte) : (s.hostStore a bs).err = s.err := rfl
@[simp] theorem hostStore_errCode (a : Nat) (bs : List Byte) : (s.hostStore a bs).errCode = s.errCode := rfl
@[simp] theorem hostStore_stage (a : Nat) (bs : List Byte) : (s.hostStore a bs).stage = s.stage := rfl
@[simp] theorem hostStore_regs (a : Nat) (bs : List Byte) : (s.hostStore a bs).regs = s.regs := rfl
@[simp] theorem hostStore_result (a : Nat) (bs : List Byte) : (s.hostStore a bs).result = s.result := rfl
@[simp] theorem hostStore_latched (a : Nat) (bs : List Byte) : (s.hostStore a bs).latched = s.latched := rfl
@[simp] theorem hostStore_input (a : Nat) (bs : List Byte) : (s.hostStore a bs).input = s.input := rfl
@[simp] theorem hostStore_inputDraw (a : Nat) (bs : List Byte) : (s.hostStore a bs).inputDraw = s.inputDraw := rfl
@[simp] theorem hostStore_mem (a : Nat) (bs : List Byte) : (s.hostStore a bs).mem = s.memAfterStore a bs := rfl
@[simp] theorem hostStore_touched (a : Nat) (bs : List Byte) : (s.hostStore a bs).touched = (s.touched || (s.busy && s.latched.ownsSome a bs.length)) := rfl
@[simp] theorem hostStore_unseen (a : Nat) (bs : List Byte) : (s.hostStore a bs).unseen = s.unseen := rfl
@[simp] theorem hostStore_posted (a : Nat) (bs : List Byte) : (s.hostStore a bs).posted = s.posted := rfl
@[simp] theorem hostStore_events (a : Nat) (bs : List Byte) : (s.hostStore a bs).events = s.events := rfl
@[simp] theorem hostStore_reply (a : Nat) (bs : List Byte) : (s.hostStore a bs).reply = s.reply := rfl
@[simp] theorem hostStore_draws (a : Nat) (bs : List Byte) : (s.hostStore a bs).draws = s.draws + 1 := rfl

/-! ## `hostLoad` (20_memory.md R67) -/

@[simp] theorem hostLoad_params (a n : Nat) : (s.hostLoad a n).params = s.params := rfl
@[simp] theorem hostLoad_irqEn (a n : Nat) : (s.hostLoad a n).irqEn = s.irqEn := rfl
@[simp] theorem hostLoad_busy (a n : Nat) : (s.hostLoad a n).busy = s.busy := rfl
@[simp] theorem hostLoad_done (a n : Nat) : (s.hostLoad a n).done = s.done := rfl
@[simp] theorem hostLoad_err (a n : Nat) : (s.hostLoad a n).err = s.err := rfl
@[simp] theorem hostLoad_errCode (a n : Nat) : (s.hostLoad a n).errCode = s.errCode := rfl
@[simp] theorem hostLoad_stage (a n : Nat) : (s.hostLoad a n).stage = s.stage := rfl
@[simp] theorem hostLoad_regs (a n : Nat) : (s.hostLoad a n).regs = s.regs := rfl
@[simp] theorem hostLoad_result (a n : Nat) : (s.hostLoad a n).result = s.result := rfl
@[simp] theorem hostLoad_latched (a n : Nat) : (s.hostLoad a n).latched = s.latched := rfl
@[simp] theorem hostLoad_input (a n : Nat) : (s.hostLoad a n).input = s.input := rfl
@[simp] theorem hostLoad_inputDraw (a n : Nat) : (s.hostLoad a n).inputDraw = s.inputDraw := rfl
@[simp] theorem hostLoad_mem (a n : Nat) : (s.hostLoad a n).mem = s.mem := rfl
@[simp] theorem hostLoad_touched (a n : Nat) : (s.hostLoad a n).touched = s.touched := rfl
@[simp] theorem hostLoad_unseen (a n : Nat) : (s.hostLoad a n).unseen = s.unseen := rfl
@[simp] theorem hostLoad_posted (a n : Nat) : (s.hostLoad a n).posted = s.posted := rfl
@[simp] theorem hostLoad_events (a n : Nat) : (s.hostLoad a n).events = s.events := rfl
@[simp] theorem hostLoad_reply (a n : Nat) : (s.hostLoad a n).reply = .bytes ((List.range n).map fun k => s.hostByte (a + k)) := rfl
@[simp] theorem hostLoad_draws (a n : Nat) : (s.hostLoad a n).draws = s.draws + 1 := rfl

/-! ## `hostPost` (70_reset_and_hazards.md R258) -/

@[simp] theorem hostPost_params (a : Nat) (bs : List Byte) : (s.hostPost a bs).params = s.params := rfl
@[simp] theorem hostPost_irqEn (a : Nat) (bs : List Byte) : (s.hostPost a bs).irqEn = s.irqEn := rfl
@[simp] theorem hostPost_busy (a : Nat) (bs : List Byte) : (s.hostPost a bs).busy = s.busy := rfl
@[simp] theorem hostPost_done (a : Nat) (bs : List Byte) : (s.hostPost a bs).done = s.done := rfl
@[simp] theorem hostPost_err (a : Nat) (bs : List Byte) : (s.hostPost a bs).err = s.err := rfl
@[simp] theorem hostPost_errCode (a : Nat) (bs : List Byte) : (s.hostPost a bs).errCode = s.errCode := rfl
@[simp] theorem hostPost_stage (a : Nat) (bs : List Byte) : (s.hostPost a bs).stage = s.stage := rfl
@[simp] theorem hostPost_regs (a : Nat) (bs : List Byte) : (s.hostPost a bs).regs = s.regs := rfl
@[simp] theorem hostPost_result (a : Nat) (bs : List Byte) : (s.hostPost a bs).result = s.result := rfl
@[simp] theorem hostPost_latched (a : Nat) (bs : List Byte) : (s.hostPost a bs).latched = s.latched := rfl
@[simp] theorem hostPost_input (a : Nat) (bs : List Byte) : (s.hostPost a bs).input = s.input := rfl
@[simp] theorem hostPost_inputDraw (a : Nat) (bs : List Byte) : (s.hostPost a bs).inputDraw = s.inputDraw := rfl
@[simp] theorem hostPost_mem (a : Nat) (bs : List Byte) : (s.hostPost a bs).mem = s.mem := rfl
@[simp] theorem hostPost_touched (a : Nat) (bs : List Byte) : (s.hostPost a bs).touched = s.touched := rfl
@[simp] theorem hostPost_unseen (a : Nat) (bs : List Byte) : (s.hostPost a bs).unseen = s.unseen := rfl
@[simp] theorem hostPost_posted (a : Nat) (bs : List Byte) : (s.hostPost a bs).posted = s.posted ++ bs.zipIdx.map fun bk => (a + bk.2, bk.1) := rfl
@[simp] theorem hostPost_events (a : Nat) (bs : List Byte) : (s.hostPost a bs).events = s.events := rfl
@[simp] theorem hostPost_reply (a : Nat) (bs : List Byte) : (s.hostPost a bs).reply = s.reply := rfl
@[simp] theorem hostPost_draws (a : Nat) (bs : List Byte) : (s.hostPost a bs).draws = s.draws := rfl

/-! ## `observeEnd` (70_reset_and_hazards.md R257) -/

@[simp] theorem observeEnd_params : s.observeEnd.params = s.params := rfl
@[simp] theorem observeEnd_irqEn : s.observeEnd.irqEn = s.irqEn := rfl
@[simp] theorem observeEnd_busy : s.observeEnd.busy = s.busy := rfl
@[simp] theorem observeEnd_done : s.observeEnd.done = s.done := rfl
@[simp] theorem observeEnd_err : s.observeEnd.err = s.err := rfl
@[simp] theorem observeEnd_errCode : s.observeEnd.errCode = s.errCode := rfl
@[simp] theorem observeEnd_stage : s.observeEnd.stage = s.stage := rfl
@[simp] theorem observeEnd_regs : s.observeEnd.regs = s.regs := rfl
@[simp] theorem observeEnd_result : s.observeEnd.result = s.result := rfl
@[simp] theorem observeEnd_latched : s.observeEnd.latched = s.latched := rfl
@[simp] theorem observeEnd_input : s.observeEnd.input = s.input := rfl
@[simp] theorem observeEnd_inputDraw : s.observeEnd.inputDraw = s.inputDraw := rfl
@[simp] theorem observeEnd_mem : s.observeEnd.mem = s.mem := rfl
@[simp] theorem observeEnd_touched : s.observeEnd.touched = s.touched := rfl
@[simp] theorem observeEnd_unseen : s.observeEnd.unseen = [] := rfl
@[simp] theorem observeEnd_posted : s.observeEnd.posted = s.posted := rfl
@[simp] theorem observeEnd_events : s.observeEnd.events = s.events := rfl
@[simp] theorem observeEnd_reply : s.observeEnd.reply = s.reply := rfl
@[simp] theorem observeEnd_draws : s.observeEnd.draws = s.draws := rfl

end Sys2Proof.Machine.State
end

