-- ==== Sys2Proof/Laws/Command.lean ====
section
/-! SUPPORT. What the checks say (spec/60_exceptions.md R223), and what running a command can do
(70_reset_and_hazards.md R262): fail or complete, nothing else. -/

namespace Sys2Proof.Machine

open Sys2Proof

/-- Everything that holds of a command whose checks all pass (R223). -/
structure Passes (i : Instr) (p : Params) (l : ConfigRegs) : Prop where
  command   : i.isReserved = false
  wPos      : 0 < l.w
  hPos      : 0 < l.h
  length    : (l.bufLen.toNat : Int) = 4 * l.w * l.h
  widthFits : l.w ≤ p.maxWidth
  heightFits : l.h ≤ p.maxHeight
  bufFits   : l.bufAddr.toNat + l.bufLen.toNat ≤ p.memSize
  scrFits   : 0 < req i l → l.scrAddr.toNat + req i l ≤ p.memSize
  scrLen    : req i l ≤ l.scrLen.toNat
  disjoint  : 0 < req i l →
    l.scrAddr.toNat + req i l ≤ l.bufAddr.toNat ∨ l.bufAddr.toNat + l.bufLen.toNat ≤ l.scrAddr.toNat

theorem check_eq_none_iff (i : Instr) (p : Params) (l : ConfigRegs) : check i p l = .none ↔ Passes i p l := by
  unfold check
  constructor
  · intro h
    repeat' split at h
    all_goals first
      | contradiction
      | constructor <;> first | (intros; omega) | simp_all
  · rintro ⟨h1, h2, h3, h4, h5, h6, h7, h8, h9, h10⟩
    rw [if_neg (by simp [h1]), if_neg (by omega), if_neg (by omega), if_neg (by omega), if_neg (by omega),
      if_neg (by intro h; have := h8 h.1; omega), if_neg (by omega), if_neg (by intro h; have := h10 h.1; omega)]

/-- The buffer that the contract check accepts has 4·W·H bytes (R224, 20_memory.md R62). -/
theorem Passes.bufBytes {i : Instr} {p : Params} {l : ConfigRegs} (h : Passes i p l) : l.bufBytes = l.bufLen.toNat := by
  have hw := h.wPos
  have hh := h.hPos
  have hl := h.length
  have h1 : ((l.w.toNat * l.h.toNat : Nat) : Int) = l.w * l.h := by
    push_cast
    rw [Int.toNat_of_nonneg (by omega), Int.toNat_of_nonneg (by omega)]
  have h2 : (l.bufLen.toNat : Int) = 4 * ((l.w.toNat * l.h.toNat : Nat) : Int) := by rw [h1, ← Int.mul_assoc, hl]
  unfold ConfigRegs.bufBytes ConfigRegs.pixels
  omega

/-- A reserved encoding fails the first check (R222). -/
theorem check_reserved (i : Instr) (p : Params) (l : ConfigRegs) (h : i.isReserved = true) : check i p l = .config := by
  simp [check, h]

/-- The one lemma of `runCommand`: the failure of the first failing check, or the completion with the command's work. -/
theorem runCommand_fails (i : Instr) (s : State) (f : Nat → Nat → Plane Pixel → Work)
    (h : check i s.params s.latched ≠ .none) :
    runCommand i s f = .next (s.fail (check i s.params s.latched)) := by
  unfold runCommand
  split
  · contradiction
  · rfl

theorem runCommand_completes (i : Instr) (s : State) (f : Nat → Nat → Plane Pixel → Work)
    (h : check i s.params s.latched = .none) :
    runCommand i s f
      = .next (s.complete i (imageByte s.latched.w.toNat (f s.latched.w.toNat s.latched.h.toNat s.inputPlane).out)
          (f s.latched.w.toNat s.latched.h.toNat s.inputPlane).result) := by
  unfold runCommand
  rw [h]

/-- What each command computes from its operands: the rule `exec` runs. -/
def workOf (i : Instr) (l : ConfigRegs) : Nat → Nat → Plane Pixel → Work :=
  match i with
  | .grayW => pointwise (grayPixel lumaW)
  | .grayI => pointwise (grayPixel lumaI)
  | .sepia => pointwise sepiaPixel
  | .blurG25 => blurImage (kernelRom .gauss25)
  | .blurB7 => blurImage (kernelRom .bin7)
  | .blurB5 => blurImage (kernelRom .bin5)
  | .blurB3 => blurImage (kernelRom .bin3)
  | .sobelP => sobelPercentile l.pct.toNat
  | .sobelF => sobelFixed l.fthr.toNat
  | .cannyThin f => canny (resolveStrength f l.sigma.toNat) .thin
  | .cannyMedium f => canny (resolveStrength f l.sigma.toNat) .medium
  | .cannyThick f => canny (resolveStrength f l.sigma.toNat) .thick
  | .reservedOp0 | .reservedOp6_7 | .reservedOp8_F | .reservedCannyStroke3 => fun _ _ _ => { out := [], result := 0 }

/-- Every arm of `exec` is `runCommand` of its own instruction. -/
theorem exec_eq_runCommand (i : Instr) (s : State) : exec i s = runCommand i s (workOf i s.latched) := by
  cases i
  case reservedOp0 => exact (runCommand_fails .reservedOp0 s _ (by simp [check, Instr.isReserved])).symm ▸ rfl
  case reservedOp6_7 => exact (runCommand_fails .reservedOp6_7 s _ (by simp [check, Instr.isReserved])).symm ▸ rfl
  case reservedOp8_F => exact (runCommand_fails .reservedOp8_F s _ (by simp [check, Instr.isReserved])).symm ▸ rfl
  case reservedCannyStroke3 =>
    exact (runCommand_fails .reservedCannyStroke3 s _ (by simp [check, Instr.isReserved])).symm ▸ rfl
  all_goals rfl

theorem exec_fails (i : Instr) (s : State) (h : check i s.params s.latched ≠ .none) :
    exec i s = .next (s.fail (check i s.params s.latched)) := by
  rw [exec_eq_runCommand, runCommand_fails _ _ _ h]

theorem exec_completes (i : Instr) (s : State) (h : check i s.params s.latched = .none) :
    exec i s = .next (s.complete i
      (imageByte s.latched.w.toNat (workOf i s.latched s.latched.w.toNat s.latched.h.toNat s.inputPlane).out)
      (workOf i s.latched s.latched.w.toNat s.latched.h.toNat s.inputPlane).result) := by
  rw [exec_eq_runCommand, runCommand_completes _ _ _ h]

/-- What `exec` can do: every instruction answers a next state, a failure or a completion. -/
theorem exec_cases (i : Instr) (s : State) :
    (check i s.params s.latched ≠ .none ∧ exec i s = .next (s.fail (check i s.params s.latched)))
      ∨ (check i s.params s.latched = .none ∧ ∃ out r, exec i s = .next (s.complete i out r)) := by
  by_cases h : check i s.params s.latched = .none
  · exact .inr ⟨h, _, _, exec_completes i s h⟩
  · exact .inl ⟨h, exec_fails i s h⟩

/-- A byte after the write back of a command whose ranges are disjoint: scratch bytes are free, buffer bytes are the
output (or free after a hazard), every other byte is kept (20_memory.md R63). -/
theorem State.byteAt_writeBack (s : State) (i : Instr) (out : Nat → Byte) (a : Nat) :
    Memory.byteAt (s.writeBack i out) a =
      if s.latched.scrAddr.toNat ≤ a ∧ a < s.latched.scrAddr.toNat + req i s.latched then Config.freeByte s.draws a
      else if s.latched.bufAddr.toNat ≤ a ∧ a < s.latched.bufAddr.toNat + s.latched.bufBytes then
        (if s.touched then Config.freeByte s.draws a else out (a - s.latched.bufAddr.toNat))
      else Memory.byteAt s.mem a := by
  unfold State.writeBack
  rw [Memory.byteAt_fill, Memory.byteAt_fill]

/-- An output byte after a completion without a hazard (R63). -/
theorem State.byteAt_output (s : State) (i : Instr) (out : Plane Pixel) (r : Nat) (hp : Passes i s.params s.latched)
    (ht : s.touched = false) {y x c : Nat} (hy : y < s.latched.h.toNat) (hx : x < s.latched.w.toNat) (hc : c < 4) :
    Memory.byteAt (s.complete i (imageByte s.latched.w.toNat out) r).mem (s.latched.pixelAddr y x + c)
      = (Plane.get out y x).channel c := by
  have hb := hp.bufBytes
  have hrow : y * s.latched.w.toNat + x < s.latched.w.toNat * s.latched.h.toNat := by
    calc y * s.latched.w.toNat + x < y * s.latched.w.toNat + s.latched.w.toNat := by omega
      _ = (y + 1) * s.latched.w.toNat := by ring
      _ ≤ s.latched.h.toNat * s.latched.w.toNat := Nat.mul_le_mul_right _ hy
      _ = _ := Nat.mul_comm _ _
  have hin : 4 * (y * s.latched.w.toNat + x) + c < s.latched.bufBytes := by
    unfold ConfigRegs.bufBytes ConfigRegs.pixels; omega
  rw [State.complete_mem, State.byteAt_writeBack]
  have haddr : s.latched.pixelAddr y x + c = s.latched.bufAddr.toNat + (4 * (y * s.latched.w.toNat + x) + c) := by
    unfold ConfigRegs.pixelAddr; omega
  rw [haddr, if_neg, if_pos (by omega), ht, if_neg (by simp), Nat.add_sub_cancel_left, imageByte_pixel _ _ _ _ _ hx hc]
  intro hs
  have := hp.disjoint (by omega)
  omega

end Sys2Proof.Machine
end

