-- ==== Sys2Proof/Laws/Step.lean ====
section
/-! SUPPORT. What one step can do (spec/70_reset_and_hazards.md R262, 60_exceptions.md R236): the engine runs a command from
a state that differs from the given one only in the platform's bookkeeping, or the host or the platform makes one of the
moves listed. Every rule of the whole machine is read off these lemmas. -/

namespace Sys2Proof.Machine

open Sys2Proof

/-! ## Reads of the block -/

/-- What a read leaves of the commands whose end the host has not observed: none where it takes in STATUS bits 1:0 of an
idle engine (70_reset_and_hazards.md R257). -/
theorem State.readBlock_unseen (s : State) (off : Nat) (w : AccessWidth) :
    (s.readBlock off w).unseen
      = if aligned off w = true ∧ off = Reg.status.offset ∧ s.busy = false then [] else s.unseen := by
  unfold State.readBlock State.afterRead State.beforeRead
  by_cases ha : aligned off w = true <;> by_cases hb : s.busy = true <;> by_cases ho : off = Reg.status.offset <;>
    simp [ha, hb, ho] <;> split <;> rfl

/-- A read changes nothing but the stage shown, the reply, the draw counter and what the host has observed (10_state.md
R23, R36, R41, 70_reset_and_hazards.md R257). -/
theorem State.readBlock_eq (s : State) (off : Nat) (w : AccessWidth) :
    s.readBlock off w = { s with
      stage := (s.readBlock off w).stage, reply := (s.readBlock off w).reply, draws := (s.readBlock off w).draws,
      unseen := (s.readBlock off w).unseen } := by
  unfold State.readBlock State.afterRead State.beforeRead
  split
  · dsimp only
    split <;> split <;> rfl
  · rfl

@[simp] theorem State.readBlock_latched (s : State) (off : Nat) (w : AccessWidth) :
    (s.readBlock off w).latched = s.latched := by rw [State.readBlock_eq]

@[simp] theorem State.readBlock_busy (s : State) (off : Nat) (w : AccessWidth) :
    (s.readBlock off w).busy = s.busy := by rw [State.readBlock_eq]

@[simp] theorem State.readBlock_params (s : State) (off : Nat) (w : AccessWidth) :
    (s.readBlock off w).params = s.params := by rw [State.readBlock_eq]

@[simp] theorem State.readBlock_mem (s : State) (off : Nat) (w : AccessWidth) :
    (s.readBlock off w).mem = s.mem := by rw [State.readBlock_eq]

@[simp] theorem State.readBlock_result (s : State) (off : Nat) (w : AccessWidth) :
    (s.readBlock off w).result = s.result := by rw [State.readBlock_eq]

@[simp] theorem State.readBlock_events (s : State) (off : Nat) (w : AccessWidth) :
    (s.readBlock off w).events = s.events := by rw [State.readBlock_eq]

theorem State.stageSequence_ne_nil (s : State) : s.stageSequence ≠ [] := by
  unfold State.stageSequence
  split
  · cases s.running <;> simp [Instr.stages]
  · simp

theorem State.check_mem_stageSequence (s : State) : Stage.check ∈ s.stageSequence := by
  unfold State.stageSequence
  split
  · cases s.running <;> simp [Instr.stages]
  · simp

/-- A drawn stage is one of the stages left, when there is one (10_state.md R36). -/
theorem State.drawStage_mem (s : State) (h : s.stage ∈ s.stageSequence) : s.drawStage ∈ s.stagesLeft := by
  have hne : s.stagesLeft ≠ [] := by
    unfold State.stagesLeft
    intro hnil
    rw [List.dropWhile_eq_nil_iff] at hnil
    simpa using hnil s.stage h
  have hlen : 0 < s.stagesLeft.length := List.length_pos_iff.mpr hne
  unfold State.drawStage
  rw [List.getD_eq_getElem?_getD, List.getElem?_eq_getElem (Nat.mod_lt _ hlen)]
  exact List.getElem_mem _

theorem State.stagesLeft_sub (s : State) : ∀ g ∈ s.stagesLeft, g ∈ s.stageSequence := fun _ h =>
  (List.dropWhile_suffix _).subset h

/-- The stage shown by a read is the one before it, or drawn from the stages left while busy (R36). -/
theorem State.readBlock_stage (s : State) (off : Nat) (w : AccessWidth) :
    (s.readBlock off w).stage = s.stage ∨ (s.busy = true ∧ (s.readBlock off w).stage = s.drawStage) := by
  unfold State.readBlock State.afterRead State.beforeRead
  split
  · dsimp only
    split
    · next h =>
      refine .inr ⟨h.2, ?_⟩
      split <;> rfl
    · refine .inl ?_
      split <;> rfl
  · exact .inl rfl

/-! ## Writes of the block -/

/-- What a write of the block can do (R22, R23, R37, R41, 70 R255). -/
inductive BlockWrite (s : State) : State → Prop
  | ignored : BlockWrite s s
  | start (e : Bool) (h : s.busy = false) : BlockWrite s (s.acceptStart e)
  | irqEn (e : Bool) : BlockWrite s { s with irqEn := e }
  | status (v : Word) : BlockWrite s (s.writeStatus v)
  | config (r : Reg) (v : Word) (h : s.busy = false) : BlockWrite s { s with regs := ConfigRegs.write s.regs r v }

theorem State.writeCtrl_cases (s : State) (v : Word) : BlockWrite s (s.writeCtrl v) := by
  unfold State.writeCtrl
  split
  · next h =>
    simp only [Bool.and_eq_true, Bool.not_eq_true'] at h
    exact .start _ h.2
  · exact .irqEn _

theorem State.writeReg_cases (s : State) (r : Reg) (v : Word) : BlockWrite s (s.writeReg r v) := by
  have config : ∀ q, BlockWrite s (if s.busy then s else { s with regs := ConfigRegs.write s.regs q v }) := by
    intro q
    split
    · exact .ignored
    · next h => exact .config q v (by simpa using h)
  cases r
  case ctrl => exact s.writeCtrl_cases v
  case status => exact .status v
  all_goals first
    | exact .ignored
    | exact config _

theorem State.writeBlock_cases (s : State) (off : Nat) (w : AccessWidth) (v : Word) :
    BlockWrite s (s.writeBlock off w v) := by
  unfold State.writeBlock
  split
  · exact s.writeReg_cases _ v
  · exact .ignored

/-! ## Moves -/

/-- The state the engine moves from: the given one but for the events, and after a failed poll of a WAIT for what that read
shows. -/
inductive EngineFrom (s : State) : State → Prop
  | now (es : List Event) : EngineFrom s { s with events := es }
  | polled (off : Nat) (w : AccessWidth) : EngineFrom s (s.readBlock off w)

/-- The moves of the host and of the platform that end in a next state, `e` being the event at the head of the list. -/
inductive OtherMove (s : State) : State → Prop
  | stays : OtherMove s s
  | passes (rest : List Event) : OtherMove s { s with events := rest }
  | writes (rest : List Event) (addr : Nat) (w : AccessWidth) (v : Word)
      (he : s.events = .regWrite addr w v :: rest) (ha : s.params.inBlock addr = true) :
      OtherMove s (State.writeBlock { s with events := rest } (addr - s.params.base) w v)
  | reads (rest : List Event) (addr : Nat) (w : AccessWidth)
      (he : s.events = .regRead addr w :: rest) (ha : s.params.inBlock addr = true) :
      OtherMove s (State.readBlock { s with events := rest } (addr - s.params.base) w)
  | polls (es rest : List Event) (r : Reg) (hi lo v n : Nat) (he : s.events = .wait r hi lo v n :: rest) :
      OtherMove s { s.readBlock r.offset .word with events := es }
  | sees (rest : List Event) (he : s.events = .waitIrq :: rest) (hi : s.irq = true) :
      OtherMove s (State.observeEnd { s with events := rest })
  | loads (rest : List Event) (addr n : Nat) : OtherMove s (State.hostLoad { s with events := rest } addr n)
  | stores (rest : List Event) (addr : Nat) (bs : List Byte) (he : s.events = .memWrite addr bs :: rest)
      (ha : s.params.reaches addr bs.length = true) : OtherMove s (State.hostStore { s with events := rest } addr bs)
  | posts (rest : List Event) (addr : Nat) (bs : List Byte) :
      OtherMove s (State.hostPost { s with events := rest } addr bs)
  | performs (rest : List Event) (k : Nat) (c : Host.Cell) (he : s.events = .memPerform k :: rest)
      (hc : s.posted[k]? = some c) (ha : c.1 < s.params.memSize) :
      OtherMove s (State.hostStore { s with events := rest, posted := s.posted.eraseIdx k } c.1 [c.2])
  | resets (rest : List Event) (he : s.events = .reset :: rest) :
      OtherMove s (State.platformReset { s with events := rest })

theorem State.waitMove_engine {s u : State} {rest : List Event} {r : Reg} {hi lo v polls : Nat}
    (h : s.waitMove rest r hi lo v polls = .engine u) : s.busy = true ∧ EngineFrom s u := by
  unfold State.waitMove at h
  dsimp only at h
  split at h
  · cases h
  · split at h
    · cases h
    · split at h
      · next hb =>
        cases h
        exact ⟨hb, .polled _ _⟩
      · cases h

theorem State.waitMove_other {s t : State} {rest : List Event} {r : Reg} {hi lo v polls : Nat}
    (he : s.events = .wait r hi lo v polls :: rest) (h : s.waitMove rest r hi lo v polls = .other (.next t)) : OtherMove s t := by
  unfold State.waitMove at h
  dsimp only at h
  split at h
  · cases h
    exact .polls _ _ _ _ _ _ _ he
  · split at h
    · cases h
      exact .polls _ _ _ _ _ _ _ he
    · split at h
      · cases h
      · cases h
        have e : { s.readBlock r.offset .word with events := s.events } = s.readBlock r.offset .word := by
          rw [← State.readBlock_events s r.offset .word]
        exact e ▸ .polls s.events _ r _ _ _ _ he

/-- The engine moves only when it is busy. -/
theorem State.nextMove_engine {s u : State} (h : s.nextMove = .engine u) : s.busy = true ∧ EngineFrom s u := by
  unfold State.nextMove at h
  split at h
  · next hes =>
    split at h
    · next hb =>
      cases h
      exact ⟨hb, .now s.events⟩
    · cases h
  · next e rest hes =>
    cases e <;> simp only [State.eventMove] at h
    case engine =>
      split at h
      · next hb =>
        cases h
        exact ⟨hb, .now _⟩
      · cases h
    case wait => exact State.waitMove_engine h
    case waitIrq =>
      split at h
      · cases h
      · split at h
        · next hb =>
          cases h
          exact ⟨hb, .now s.events⟩
        · cases h
    case memPerform =>
      split at h
      · cases h
      · split at h <;> cases h
    case reset => cases h
    all_goals (split at h <;> cases h)

theorem State.nextMove_other {s t : State} (h : s.nextMove = .other (.next t)) : OtherMove s t := by
  unfold State.nextMove at h
  split at h
  · split at h
    · cases h
    · cases h
      exact .stays
  · next e rest hes =>
    cases e <;> simp only [State.eventMove] at h
    case engine =>
      split at h
      · cases h
      · cases h
        exact .passes _
    case regWrite addr w v =>
      split at h
      · next ha =>
        cases h
        exact .writes rest addr w v hes ha
      · cases h
    case regRead addr w =>
      split at h
      · next ha =>
        cases h
        exact .reads rest addr w hes ha
      · cases h
    case memWrite addr bs =>
      split at h
      · next ha =>
        cases h
        exact .stores rest addr bs hes ha
      · cases h
    case memRead addr n =>
      split at h
      · cases h
        exact .loads rest addr n
      · cases h
    case memPost addr bs =>
      split at h
      · cases h
        exact .posts rest addr bs
      · cases h
    case memPerform k =>
      split at h
      · cases h
        exact .passes _
      · next c hc =>
        split at h
        · next ha =>
          cases h
          exact .performs rest k c hes hc ha
        · cases h
    case wait => exact State.waitMove_other hes h
    case waitIrq =>
      split at h
      · next hi =>
        cases h
        exact .sees rest hes hi
      · split at h
        · cases h
        · cases h
          exact .stays
    case reset =>
      cases h
      exact .resets rest hes
    case busError =>
      split at h
      · cases h
      · cases h
        exact .passes _

/-- The one inversion lemma of `step`. -/
theorem step_cases {s t : State} (h : step s = .next t) :
    (∃ u, s.busy = true ∧ EngineFrom s u ∧ exec u.running u = .next t) ∨ OtherMove s t := by
  unfold step at h
  split at h
  · next u hu =>
    obtain ⟨hb, hf⟩ := State.nextMove_engine hu
    exact .inl ⟨u, hb, hf, h⟩
  · next o ho =>
    subst h
    exact .inr (State.nextMove_other ho)

/-- The engine's state differs from the given one in the platform's bookkeeping alone. -/
theorem EngineFrom.eq {s u : State} (h : EngineFrom s u) :
    u = { s with stage := u.stage, events := u.events, reply := u.reply, draws := u.draws, unseen := u.unseen } := by
  cases h with
  | now es => rfl
  | polled off w =>
    conv_lhs => rw [State.readBlock_eq]
    simp

/-- What a step of a busy engine's own can do: fail or complete the latched command. -/
theorem exec_running_cases {u t : State} (h : exec u.running u = .next t) :
    (check u.running u.params u.latched ≠ .none ∧ t = u.fail (check u.running u.params u.latched))
      ∨ (check u.running u.params u.latched = .none ∧ ∃ out r, t = u.complete u.running out r) := by
  rcases exec_cases u.running u with ⟨hc, he⟩ | ⟨hc, out, r, he⟩
  · rw [he] at h
    cases h
    exact .inl ⟨hc, rfl⟩
  · rw [he] at h
    cases h
    exact .inr ⟨hc, out, r, rfl⟩

end Sys2Proof.Machine
end

