-- ==== Sys2Proof/Laws/HostPort.lean ====
section
/-! SUPPORT. The host's accesses to the register block as steps (spec/10_state.md R20, R41; 30_encoding.md R92), and the
ranges a command owns (20_memory.md R61, R62). -/

namespace Sys2Proof.Machine

open Sys2Proof

theorem inRange_iff (a base n : Nat) : inRange a base n = true ↔ base ≤ a ∧ a < base + n := by
  unfold inRange
  rw [Bool.and_eq_true, decide_eq_true_iff, decide_eq_true_iff]

/-- The bytes of the ranges a configuration names (R61, R62). -/
theorem ConfigRegs.owns_iff (l : ConfigRegs) (a : Nat) :
    l.owns a = true ↔
      (l.bufAddr.toNat ≤ a ∧ a < l.bufAddr.toNat + l.bufBytes)
        ∨ (l.scrAddr.toNat ≤ a ∧ a < l.scrAddr.toNat + req (decode l.cmd) l) := by
  unfold ConfigRegs.owns
  rw [Bool.or_eq_true, inRange_iff, inRange_iff]

/-- The bytes the running command owns: its buffer and its scratch range (R61, R62). -/
theorem State.owns_iff (s : State) (a : Nat) :
    s.owns a = true ↔
      (s.latched.bufAddr.toNat ≤ a ∧ a < s.latched.bufAddr.toNat + s.latched.bufBytes)
        ∨ (s.latched.scrAddr.toNat ≤ a ∧ a < s.latched.scrAddr.toNat + req s.running s.latched) :=
  s.latched.owns_iff a

/-- When a START breaks R258 (log 13). -/
theorem State.inputUnperformed_iff (s : State) :
    s.inputUnperformed = true ↔ ∃ c ∈ s.posted, s.regs.owns c.1 = true := by
  unfold State.inputUnperformed
  rw [List.any_eq_true]

theorem ConfigRegs.ownsSome_iff (l : ConfigRegs) (addr n : Nat) :
    l.ownsSome addr n = true ↔ ∃ hit, addr ≤ hit ∧ hit < addr + n ∧ l.owns hit = true := by
  unfold ConfigRegs.ownsSome
  rw [List.any_eq_true]
  constructor
  · rintro ⟨k, hk, h⟩
    exact ⟨addr + k, by omega, by have := List.mem_range.mp hk; omega, h⟩
  · rintro ⟨hit, h1, h2, h⟩
    exact ⟨hit - addr, List.mem_range.mpr (by omega), by rwa [Nat.add_sub_cancel' h1]⟩

theorem State.ownsUnseen_iff (s : State) (a : Nat) : s.ownsUnseen a = true ↔ ∃ e ∈ s.unseen, e.regs.owns a = true := by
  unfold State.ownsUnseen
  rw [List.any_eq_true]

/-- Freeing the ranges of several commands under one draw number, one after the other. -/
theorem byteAt_foldl_freeRanges (p : Params) (d a : Nat) (es : List EndedCommand) (m : Memory) :
    Memory.byteAt (es.foldl (fun m e => m.freeRanges p e.regs d) m) a
      = if a < p.memSize ∧ ∃ e ∈ es, e.regs.owns a = true then Config.freeByte d a else Memory.byteAt m a := by
  induction es generalizing m with
  | nil => simp
  | cons e es ih =>
    rw [List.foldl_cons, ih, Memory.byteAt_freeRanges]
    by_cases ha : a < p.memSize <;> by_cases he : e.regs.owns a = true <;>
      by_cases h : ∃ e ∈ es, e.regs.owns a = true <;> simp [ha, he, h]

/-- A store of n bytes from `addr` reaches the ranges of a completed command whose end the host has not observed, and `a`
lies in those ranges too (R67, R70, R71; log 26). -/
def State.disturbs (s : State) (addr n a : Nat) : Prop :=
  ∃ e ∈ s.unseen, e.completed = true ∧ e.regs.ownsSome addr n = true ∧ e.regs.owns a = true

open Classical in
/-- The one lemma of a byte after a host store. -/
theorem State.byteAt_memAfterStore (s : State) (addr : Nat) (bs : List Byte) (a : Nat) :
    Memory.byteAt (s.memAfterStore addr bs) a =
      if a < s.params.memSize ∧ s.disturbs addr bs.length a then Config.freeByte s.draws a
      else if addr ≤ a ∧ a < addr + bs.length then bs.getD (a - addr) 0#8 else Memory.byteAt s.mem a := by
  unfold State.memAfterStore
  rw [byteAt_foldl_freeRanges, Memory.byteAt_store]
  refine if_congr (and_congr_right fun _ => ?_) rfl rfl
  unfold State.disturbs
  simp only [List.mem_filter, Bool.and_eq_true]
  constructor
  · rintro ⟨e, ⟨h1, h2, h3⟩, h4⟩
    exact ⟨e, h1, h2, h3, h4⟩
  · rintro ⟨e, h1, h2, h3, h4⟩
    exact ⟨e, ⟨h1, h2, h3⟩, h4⟩

/-- With no command's end unobserved, a store is the plain store. -/
theorem State.memAfterStore_seen (s : State) (addr : Nat) (bs : List Byte) (h : s.unseen = []) :
    s.memAfterStore addr bs = Memory.store s.mem addr bs := by
  unfold State.memAfterStore
  rw [h]
  rfl

/-- A host store keeps a property of memories that the plain store and `freeRanges` keep. -/
theorem State.memAfterStore_keeps (s : State) (addr : Nat) (bs : List Byte) (P : Memory → Prop)
    (h : P (Memory.store s.mem addr bs)) (hf : ∀ m l, P m → P (m.freeRanges s.params l s.draws)) :
    P (s.memAfterStore addr bs) := by
  unfold State.memAfterStore
  generalize s.unseen.filter _ = es
  generalize Memory.store s.mem addr bs = m at h ⊢
  induction es generalizing m with
  | nil => exact h
  | cons e es ih => exact ih _ (hf _ _ h)

theorem State.memAfterStore_wf (s : State) (addr : Nat) (bs : List Byte) (h : Memory.wf s.mem) :
    Memory.wf (s.memAfterStore addr bs) :=
  s.memAfterStore_keeps addr bs _ (Memory.store_wf _ _ _ h) fun _ _ hm => Memory.freeRanges_wf _ _ _ _ hm

theorem State.memAfterStore_within (s : State) (addr : Nat) (bs : List Byte) (h : Memory.within s.mem s.params.memSize)
    (hr : bs.length = 0 ∨ addr + bs.length ≤ s.params.memSize) :
    Memory.within (s.memAfterStore addr bs) s.params.memSize :=
  s.memAfterStore_keeps addr bs (Memory.within · s.params.memSize) (Memory.store_within _ _ _ _ h hr)
    fun _ _ hm => Memory.freeRanges_within _ _ _ _ hm

/-- A store marks the hazard of 70_reset_and_hazards.md R256 exactly when the engine is busy and owns a byte stored. -/
theorem State.hostStore_touched_iff (s : State) (addr : Nat) (bs : List Byte) :
    (s.hostStore addr bs).touched = true ↔
      s.touched = true ∨ (s.busy = true ∧ ∃ hit, addr ≤ hit ∧ hit < addr + bs.length ∧ s.owns hit = true) := by
  rw [State.hostStore_touched, Bool.or_eq_true, Bool.and_eq_true, ConfigRegs.ownsSome_iff]
  rfl

theorem Reg.offset_mod_four (r : Reg) : r.offset % 4 = 0 := by cases r <;> rfl

theorem Reg.offset_injective {r q : Reg} (h : r.offset = q.offset) : r = q := by
  cases r <;> cases q <;> first | rfl | (exact absurd h (by decide))

theorem Reg.offset_lt (r : Reg) : r.offset + 4 ≤ 64 := by cases r <;> decide

/-- The four bytes of a register are its own (register map). -/
theorem regOfOffset_add (r : Reg) {k : Nat} (hk : k < 4) : regOfOffset (r.offset + k) = r := by
  have : k = 0 ∨ k = 1 ∨ k = 2 ∨ k = 3 := by omega
  rcases this with rfl | rfl | rfl | rfl <;> cases r <;> rfl

theorem Params.inBlock_add (p : Params) (r : Reg) {k : Nat} (hk : k < 4) : p.inBlock (p.base + r.offset + k) = true := by
  have h := r.offset_lt
  unfold Params.inBlock
  rw [inRange_iff]
  omega

theorem aligned_add (r : Reg) (k : Nat) (w : AccessWidth) : aligned (r.offset + k) w = decide (k % w.bytes = 0) := by
  have h4 := r.offset_mod_four
  have h : (r.offset + k) % w.bytes = k % w.bytes := by
    cases w <;> simp only [AccessWidth.bytes] <;> omega
  unfold aligned
  rw [h]

/-- A read of byte k of a register, as a step (R41). -/
theorem step_regRead (s : State) (r : Reg) {k : Nat} (hk : k < 4) (w : AccessWidth) (rest : List Event)
    (h : s.events = .regRead (s.params.base + r.offset + k) w :: rest) :
    step s = .next (State.readBlock { s with events := rest } (r.offset + k) w) := by
  have hb := Params.inBlock_add s.params r hk
  have hsub : s.params.base + r.offset + k - s.params.base = r.offset + k := by omega
  simp [step, State.nextMove, h, State.eventMove, hb, hsub]

/-- A write at byte k of a register, as a step (R41). -/
theorem step_regWrite (s : State) (r : Reg) {k : Nat} (hk : k < 4) (w : AccessWidth) (v : Word) (rest : List Event)
    (h : s.events = .regWrite (s.params.base + r.offset + k) w v :: rest) :
    step s = .next (State.writeBlock { s with events := rest } (r.offset + k) w v) := by
  have hb := Params.inBlock_add s.params r hk
  have hsub : s.params.base + r.offset + k - s.params.base = r.offset + k := by omega
  simp [step, State.nextMove, h, State.eventMove, hb, hsub]

/-- `WR reg, value` as a step (R92). -/
theorem step_wr (s : State) (r : Reg) (v : Word) (rest : List Event) (h : s.events = wr s.params r v :: rest) :
    step s = .next (State.writeReg { s with events := rest } r v) := by
  rw [step_regWrite s r (k := 0) (by omega) .word v rest h]
  unfold State.writeBlock
  rw [if_pos ⟨rfl, by rw [aligned_add]; rfl⟩, regOfOffset_add r (by omega)]

/-- `RD reg` as a step (R92). -/
theorem step_rd (s : State) (r : Reg) (rest : List Event) (h : s.events = rd s.params r :: rest) :
    step s = .next (State.readBlock { s with events := rest } r.offset .word) :=
  step_regRead s r (k := 0) (by omega) .word rest h

/-- A performed host store inside memory, as a step (20_memory.md R70). -/
theorem step_memWrite (s : State) (addr : Nat) (bs : List Byte) (rest : List Event)
    (hm : addr + bs.length ≤ s.params.memSize) (h : s.events = .memWrite addr bs :: rest) :
    step s = .next (State.hostStore { s with events := rest } addr bs) := by
  have hr : s.params.reaches addr bs.length = true := by simp [Params.reaches, hm]
  simp [step, State.nextMove, h, State.eventMove, hr]

/-- The performance of an outstanding store inside memory, as a step (70_reset_and_hazards.md R258). -/
theorem step_memPerform (s : State) (k : Nat) (c : Host.Cell) (rest : List Event) (hc : s.posted[k]? = some c)
    (hm : c.1 < s.params.memSize) (h : s.events = .memPerform k :: rest) :
    step s = .next (State.hostStore { s with posted := s.posted.eraseIdx k, events := rest } c.1 [c.2]) := by
  simp [step, State.nextMove, h, State.eventMove, hc, hm]

/-- The engine's move at an `engine` event (70_reset_and_hazards.md R262). -/
theorem step_engine (s : State) (rest : List Event) (hb : s.busy = true) (h : s.events = .engine :: rest) :
    step s = exec s.running { s with events := rest } := by
  simp only [step, State.nextMove, h, State.eventMove, hb, if_true]
  rfl

/-- The low n bits of a word are the word under the mask of n ones (register map, RW bits). -/
theorem setWidth_eq_and (v : Word) (n : Nat) : (v.setWidth n).setWidth 32 = v &&& BitVec.ofNat 32 (2 ^ n - 1) := by
  apply BitVec.eq_of_getLsbD_eq
  intro j hj
  rw [BitVec.getLsbD_setWidth, BitVec.getLsbD_setWidth, BitVec.getLsbD_and, BitVec.getLsbD_ofNat,
    Nat.testBit_two_pow_sub_one]
  simp [hj, Bool.and_comm]

/-- Every instruction's own step ends the command (60_exceptions.md R226, R229). -/
theorem exec_ends (i : Instr) (s : State) :
    ∃ t, exec i s = .next t ∧ t.busy = false ∧ t.done = true ∧ t.stage = .idle ∧ t.events = s.events
      ∧ t.params = s.params := by
  rcases exec_cases i s with ⟨_, h⟩ | ⟨_, out, r, h⟩
  · exact ⟨_, h, rfl, rfl, rfl, rfl, rfl⟩
  · exact ⟨_, h, rfl, rfl, rfl, rfl, rfl⟩

end Sys2Proof.Machine
end

