-- ==== Sys2Proof/Laws/PerInstr.lean ====
section
/-! SUPPORT. The family `EncodesRow`: the word of an instruction lies in its own row of the opcode table, and the bits its
decoding reads hold the row's mask (spec/30_encoding.md R90, R91). One lemma per constructor. -/

namespace Sys2Proof.Laws.EncodesRow

open Sys2Proof

/-- The word of `i` under its row's mask is the row's pattern, no bit of the word is one that `i` does not read, and no bit
of the row's mask is one that `i` does not read. -/
def Statement (i : Instr) : Prop :=
  encode i &&& i.row.mask = i.row.pattern ∧ encode i &&& ~~~i.readMask = 0#12 ∧ i.row.mask &&& ~~~i.readMask = 0#12

theorem grayW : Statement .grayW := by
  unfold Statement
  decide

theorem grayI : Statement .grayI := by
  unfold Statement
  decide

theorem sepia : Statement .sepia := by
  unfold Statement
  decide

theorem blurG25 : Statement .blurG25 := by
  unfold Statement
  decide

theorem blurB7 : Statement .blurB7 := by
  unfold Statement
  decide

theorem blurB5 : Statement .blurB5 := by
  unfold Statement
  decide

theorem blurB3 : Statement .blurB3 := by
  unfold Statement
  decide

theorem sobelP : Statement .sobelP := by
  unfold Statement
  decide

theorem sobelF : Statement .sobelF := by
  unfold Statement
  decide

theorem cannyThin (s : StrengthField) : Statement (.cannyThin s) := by
  unfold Statement
  cases s <;> decide

theorem cannyMedium (s : StrengthField) : Statement (.cannyMedium s) := by
  unfold Statement
  cases s <;> decide

theorem cannyThick (s : StrengthField) : Statement (.cannyThick s) := by
  unfold Statement
  cases s <;> decide

theorem reservedOp0 : Statement .reservedOp0 := by
  unfold Statement
  decide

theorem reservedOp6_7 : Statement .reservedOp6_7 := by
  unfold Statement
  decide

theorem reservedOp8_F : Statement .reservedOp8_F := by
  unfold Statement
  decide

theorem reservedCannyStroke3 : Statement .reservedCannyStroke3 := by
  unfold Statement
  decide

end Sys2Proof.Laws.EncodesRow
end

