-- ==== Sys2Proof/Tests/Slice0.lean ====
section
/-! SUPPORT. Tests: ill-formed terms refused, words written out from spec/30_encoding.md, one step of each command with the
values of spec/95_test_vectors.md, and a witness for the hypotheses of every obligation. -/

namespace Sys2Proof.Tests

open Sys2Proof Sys2Proof.Machine

/-! ## Sample states -/

/-- The parameters of 95_test_vectors.md: MEM_SIZE = 0x10000, MAX_WIDTH = MAX_HEIGHT = 4096; BASE = 0x20000. -/
def params : Params := { baseBlock := 2048, memTop := 0xFFFF#32, maxWidthLessOne := 4095, maxHeightLessOne := 4095 }

/-- The configuration of a W×H command with its buffer at 0x100 and scratch at 0x1000. -/
def config (w : CmdWord) (W H : Nat) : ConfigRegs :=
  { ConfigRegs.reset with
    cmd := w, bufAddr := 0x100#32, bufLen := BitVec.ofNat 32 (4 * (W * H)), width := BitVec.ofNat 32 W,
    height := BitVec.ofNat 32 H, scrAddr := 0x1000#32, scrLen := 0x1000#32 }

/-- An idle machine with a configuration and an image stored at 0x100. -/
def idle (l : ConfigRegs) (image : List Byte) : State :=
  { State.reset with params := params, regs := l, mem := Memory.store [] 0x100 image }

/-- That machine after an accepted START. -/
def running (l : ConfigRegs) (image : List Byte) : State := (idle l image).acceptStart false

/-- A gray image, alpha 255, row by row. -/
def gray (rows : List (List Nat)) : List Byte :=
  rows.flatten.flatMap fun v => [BitVec.ofNat 8 v, BitVec.ofNat 8 v, BitVec.ofNat 8 v, 255#8]

/-- The machine running a word on a gray image. -/
def runningGray (w : CmdWord) (rows : List (List Nat)) : State :=
  running (config w (rows.headD []).length rows.length) (gray rows)

/-- STATUS, RESULT and the first n bytes of the buffer after one step. -/
def after (s : State) (n : Nat) : Option (Word × Nat × List Byte) :=
  match step s with
  | .next t => some (t.regWord .status, t.result.toNat, (List.range n).map fun k => Memory.byteAt t.mem (0x100 + k))
  | .fault _ => none
  | .refused _ => none

/-- One step completes with a RESULT and a gray image. -/
def givesGray (s : State) (result : Nat) (rows : List (List Nat)) : Bool :=
  after s (gray rows).length = some (0x002#32, result, gray rows)

/-- A step answers a next state with a property. -/
def nextHas (s : State) (p : State → Bool) : Bool :=
  match step s with
  | .next t => p t
  | .fault _ => false
  | .refused _ => false

/-! ## WellFormed: each check refuses an ill-formed term (R91, R92) -/

theorem test_reserved_rows_are_ill_formed :
    ([Instr.reservedOp0, .reservedOp6_7, .reservedOp8_F, .reservedCannyStroke3].all fun i => !i.wellFormed) = true
      ∧ (Instr.cannyThin .legacy).wellFormed = true := by decide

theorem test_assembler_refuses :
    AsmCommand.error { instr := .reservedOp0 } = some .reservedEncoding
      ∧ AsmCommand.error { instr := .grayW, pct := some 0 } = some .operandNotTaken
      ∧ AsmCommand.error { instr := .sobelP, thr := some 0 } = some .operandNotTaken
      ∧ AsmCommand.error { instr := .sobelF, sigma100 := some 0 } = some .operandNotTaken
      ∧ AsmCommand.error { instr := .sobelP, pct := some 16384 } = some .pctRange
      ∧ AsmCommand.error { instr := .sobelF, thr := some 4294967296 } = some .thrRange
      ∧ AsmCommand.error { instr := .cannyThin .legacy, sigma100 := some 65536 } = some .sigmaRange
      ∧ AsmCommand.wellFormed { instr := .sobelP, pct := some 16383 } = true := by decide

theorem test_assembler_refuses_nan_and_fractions :
    RsCall.command (.cannyLegacy none) = .error .sigmaIsNaN
      ∧ RsCall.command (.sobelEdges (17 / 20)) = .ok { instr := .sobelP, pct := some 8500 }
      ∧ RsCall.command (.sobelEdges (1 / 3)) = .error .percentileNotInSteps
      ∧ RsCall.command .canny = .ok { instr := .cannyMedium .medium } := by decide +kernel

/-! ## Decode: words written out from R80 to R91 (fields STROKE, STRENGTH, KSEL, SMODE, LUMA, OP from the left) -/

theorem test_decode_pointwise :
    decode 0b00_00_00_0_0_0001#12 = .grayW ∧ decode 0b00_00_00_0_1_0001#12 = .grayI
      ∧ decode 0b00_00_00_0_0_0010#12 = .sepia := by decide

theorem test_decode_blur :
    decode 0b00_00_00_0_0_0011#12 = .blurG25 ∧ decode 0b00_00_01_0_0_0011#12 = .blurB7
      ∧ decode 0b00_00_10_0_0_0011#12 = .blurB5 ∧ decode 0b00_00_11_0_0_0011#12 = .blurB3 := by decide

theorem test_decode_sobel :
    decode 0b00_00_00_0_0_0100#12 = .sobelP ∧ decode 0b00_00_00_1_0_0100#12 = .sobelF := by decide

theorem test_decode_canny :
    decode 0b00_00_00_0_0_0101#12 = .cannyThin .low ∧ decode 0b01_01_00_0_0_0101#12 = .cannyMedium .medium
      ∧ decode 0b10_10_00_0_0_0101#12 = .cannyThick .high ∧ decode 0b01_11_00_0_0_0101#12 = .cannyMedium .legacy := by
  decide

theorem test_decode_reserved :
    decode 0b00_00_00_0_0_0000#12 = .reservedOp0 ∧ decode 0b00_00_00_0_0_0110#12 = .reservedOp6_7
      ∧ decode 0b00_00_00_0_0_0111#12 = .reservedOp6_7 ∧ decode 0b00_00_00_0_0_1000#12 = .reservedOp8_F
      ∧ decode 0b00_00_00_0_0_1111#12 = .reservedOp8_F ∧ decode 0b11_00_00_0_0_0101#12 = .reservedCannyStroke3 := by
  decide

/-- V-PW-2: fields that the command does not read. -/
theorem test_decode_ignores_fields : decode 0x0C1#12 = .grayW ∧ decode 0xFF2#12 = .sepia := by decide

/-- R24, R80: bits above CMD[11:0] are not kept. -/
theorem test_table_word : decodeTableWord 32 0xFFFFF043 = some (decode 0x043#12) ∧ decodeTableWord 16 0x0105
    = some (.cannyThin .medium) := by decide

theorem test_first_step_after_reset :
    (step (State.reset.withFetchWord 16 0x105)) = exec (.cannyThin .medium)
      { State.reset.withFetchWord 16 0x105 with events := [] } := by rfl

/-! ## Pointwise (V-PW-1, V-PW-3) -/

theorem test_gray_w_ties : lumaW 100 150 200 = 143 ∧ lumaW 0 0 50 = 4 ∧ lumaW 200 100 0 = 114 ∧ lumaW 1 0 1 = 0 := by
  decide

theorem test_gray_w_step :
    after (running (config 0x001#12 2 1) [100#8, 150#8, 200#8, 77#8, 0#8, 0#8, 50#8, 9#8]) 8
      = some (0x002#32, 0, [143#8, 143#8, 143#8, 77#8, 4#8, 4#8, 4#8, 9#8]) := by decide

/-- P1. -/
theorem test_gray_i_step :
    after (running (config 0x011#12 2 1) [0x64#8, 0x96#8, 0xC8#8, 0x09#8, 0x00#8, 0x00#8, 0x32#8, 0xFF#8]) 8
      = some (0x002#32, 0, [0x8C#8, 0x8C#8, 0x8C#8, 0x09#8, 0x05#8, 0x05#8, 0x05#8, 0xFF#8]) := by decide

/-- V-PW-3: no scratch is checked. -/
theorem test_gray_i_needs_no_scratch :
    after (running { config 0x011#12 1 1 with scrAddr := 0xFFFFFFF0#32, scrLen := 0#32 } [0#8, 255#8, 0#8, 1#8]) 4
      = some (0x002#32, 0, [149#8, 149#8, 149#8, 1#8]) := by decide

theorem test_sepia_step :
    after (running (config 0x002#12 2 1) [255#8, 255#8, 255#8, 77#8, 100#8, 150#8, 200#8, 78#8]) 8
      = some (0x002#32, 0, [255#8, 255#8, 239#8, 77#8, 192#8, 171#8, 134#8, 78#8]) := by decide

/-! ## Convolution (V-BLR-1 to V-BLR-4) -/

def impulse : List (List Nat) := [[0, 0, 0], [0, 255, 0], [0, 0, 0]]

theorem test_blur_g25_step :
    givesGray (runningGray 0x003#12 impulse) 0 [[1, 1, 1], [1, 1, 1], [1, 1, 1]] = true := by decide +kernel

theorem test_blur_g25_edge : givesGray (runningGray 0x003#12 [[0, 255]]) 0 [[121, 134]] = true := by decide +kernel

theorem test_blur_b7_step :
    givesGray (runningGray 0x043#12 impulse) 0 [[14, 19, 14], [19, 25, 19], [14, 19, 14]] = true := by decide +kernel

theorem test_blur_b7_edge :
    givesGray (runningGray 0x043#12 [[0, 100, 200, 255]]) 0 [[46, 106, 174, 224]] = true := by decide +kernel

theorem test_blur_b5_step :
    givesGray (runningGray 0x083#12 impulse) 0 [[16, 24, 16], [24, 36, 24], [16, 24, 16]] = true := by decide +kernel

/-- V-BLR-3: channels are independent, alpha is blurred. -/
theorem test_blur_b3_channels :
    after (running (config 0x0C3#12 2 1) [255#8, 0#8, 0#8, 0#8, 0#8, 0#8, 255#8, 255#8]) 8
      = some (0x002#32, 0, [191#8, 0#8, 64#8, 64#8, 64#8, 0#8, 191#8, 191#8]) := by decide +kernel

/-- V-BLR-4: the horizontal pass comes first. -/
theorem test_blur_b3_order :
    Plane.get (blur2d (kernelRom .bin3) 3 3 [[1, 255, 128], [128, 128, 0], [2, 0, 3]]) 1 1 = 88 := by decide +kernel

/-! ## Gradient (R147, V-GRD-2) -/

theorem test_qdir :
    [(99, 41), (169, 70), (-5, 0), (0, 0)].all (fun g => qdir g.1 g.2 = .d0) = true
      ∧ [(12, 5), (408, 169), (29, 70), (-1, -1)].all (fun g => qdir g.1 g.2 = .d45) = true
      ∧ [(41, 99), (-41, 99), (0, -5)].all (fun g => qdir g.1 g.2 = .d90) = true
      ∧ [(-12, 5), (12, -5), (1, -1)].all (fun g => qdir g.1 g.2 = .d135) = true := by decide

theorem test_gradient_largest :
    gradInterior [[0, 0, 0], [0, 0, 255], [255, 255, 255]] 1 1 = { gx := 510, gy := 1020, s := 1300500, d := .d45 } := by
  decide

/-! ## Sobel (V-SOB-3 to V-SOB-7) -/

def ramp : List (List Nat) := List.replicate 3 [0, 10, 30, 60, 100, 150]

theorem test_sobel_p_step :
    givesGray (runningGray 0x004#12 ramp) 129600
      [[0, 0, 0, 0, 0, 0], [0, 0, 0, 0, 255, 0], [0, 0, 0, 0, 0, 0]] = true := by decide +kernel

/-- V-SOB-6: a flat image has threshold 0 and no edge. -/
theorem test_sobel_p_flat :
    givesGray (runningGray 0x004#12 (List.replicate 3 [128, 128, 128])) 0 (List.replicate 3 [0, 0, 0]) = true := by
  decide +kernel

/-- V-SOB-4: no interior pixel. -/
theorem test_sobel_f_border :
    after (runningGray 0x024#12 [[9, 200]]) 8 = some (0x002#32, 4000, List.replicate 8 0#8) := by decide +kernel

/-- V-SOB-7: the integer luma. -/
theorem test_sobel_f_luma :
    (after (running { config 0x024#12 3 3 with fthr := 400#32 }
        (List.replicate 3 [0#8, 0#8, 0#8, 255#8, 0#8, 0#8, 0#8, 255#8, 0#8, 0#8, 50#8, 255#8]).flatten) 20).map
      (fun r => (r.2.1, r.2.2.drop 12)) = some (400, [0#8, 0#8, 0#8, 0#8, 255#8, 255#8, 255#8, 255#8]) := by
  decide +kernel

/-! ## Canny (V-CAN-3 to V-CAN-10) -/

def edgeImage : List (List Nat) := List.replicate 5 [0, 0, 0, 255, 255, 255]

theorem test_canny_thin_step :
    givesGray (runningGray 0x105#12 edgeImage) 404496
      [[0, 0, 0, 0, 0, 0], [0, 0, 255, 255, 0, 0], [0, 0, 255, 255, 0, 0], [0, 0, 255, 255, 0, 0], [0, 0, 0, 0, 0, 0]]
      = true := by decide +kernel

/-- V-CAN-6: hysteresis. -/
theorem test_canny_thin_hysteresis :
    givesGray (runningGray 0x105#12
        [[255, 255, 255, 0, 255], [0, 255, 255, 0, 255], [255, 255, 255, 255, 0], [0, 255, 255, 0, 255],
          [255, 255, 255, 0, 0]]) 157490
      [[0, 0, 0, 0, 0], [0, 255, 255, 0, 0], [0, 0, 0, 255, 0], [0, 0, 0, 255, 0], [0, 0, 0, 0, 0]] = true := by
  decide +kernel

/-- V-CAN-10: the diagonal pairs. -/
theorem test_nms_diagonals :
    cannyNms .high 6 6 ((List.range 6).map fun y => (List.range 6).map fun x =>
        if x + y ≤ 3 then Pixel.white else Pixel.black)
      = [[0, 0, 0, 0, 0, 0], [0, 0, 621010, 589970, 169346, 0], [0, 621010, 620498, 0, 0, 0], [0, 589970, 0, 0, 0, 0],
          [0, 169346, 0, 0, 0, 0], [0, 0, 0, 0, 0, 0]] := by decide +kernel

/-- V-CAN-4. -/
theorem test_canny_medium_step :
    givesGray (runningGray 0x505#12 edgeImage) 404496 (List.replicate 5 [0, 255, 255, 255, 255, 0]) = true := by
  decide +kernel

/-- V-CAN-8: legacy with SIGMA = 180 is low. -/
theorem test_canny_medium_legacy :
    givesGray (running { config 0x705#12 6 5 with sigma := 180#16 } (gray edgeImage)) 309136
      (List.replicate 5 [0, 255, 255, 255, 255, 0]) = true := by decide +kernel

/-- V-CAN-5. -/
theorem test_canny_thick_step :
    givesGray (runningGray 0x905#12 edgeImage) 404496 (List.replicate 5 [255, 255, 255, 255, 255, 255]) = true := by
  decide +kernel

/-! ## Errors (V-ERR-1) -/

/-- The base configuration of V-ERR-1. -/
def base : ConfigRegs := { config 0x005#12 2 2 with scrLen := 64#32 }

/-- The code of the first failing check for a changed base configuration. -/
def code (l : ConfigRegs) : ErrCode := check (decode l.cmd) params l

theorem test_reserved_op0 : (after (running { base with cmd := 0x000#12 } []) 0).map (·.1) = some 0x016#32 := by decide

theorem test_reserved_op6_7 : (after (running { base with cmd := 0x006#12 } []) 0).map (·.1) = some 0x016#32 := by decide

theorem test_reserved_op8_f : (after (running { base with cmd := 0x00F#12 } []) 0).map (·.1) = some 0x016#32 := by decide

theorem test_reserved_canny_stroke3 :
    (after (running { base with cmd := 0xC05#12 } []) 0).map (·.1) = some 0x016#32 := by decide

/-- The witness of CheckOrder: every clause at a boundary value. -/
theorem test_check_order :
    code base = .none
      ∧ code { base with cmd := 0x000#12, width := 0#32 } = .config
      ∧ code { base with width := 0#32 } = .contract ∧ code { base with width := 0xFFFFFFFF#32 } = .contract
      ∧ code { base with bufLen := 15#32 } = .contract
      ∧ code { base with width := 0x40000000#32, height := 1#32, bufLen := 0#32 } = .contract
      ∧ code { base with width := 4097#32, height := 1#32, bufLen := 16388#32 } = .size
      ∧ code { base with bufAddr := 0xFFF1#32 } = .range ∧ code { base with bufAddr := 0xFFF0#32 } = .none
      ∧ code { base with cmd := 0x003#12, scrAddr := 0xFFF8#32 } = .range
      ∧ code { base with cmd := 0x003#12, scrAddr := 0xFFC0#32 } = .none
      ∧ code { base with cmd := 0x001#12, scrAddr := 0xFFFFFFF0#32 } = .none := by decide

theorem test_check_order_scratch :
    code { base with cmd := 0x003#12, scrLen := 15#32 } = .scratch
      ∧ code { base with cmd := 0x003#12, scrLen := 16#32 } = .none
      ∧ code { base with cmd := 0x004#12, scrLen := 19#32 } = .scratch ∧ code { base with scrLen := 63#32 } = .scratch
      ∧ code { base with scrAddr := 0x10F#32 } = .overlap ∧ code { base with scrAddr := 0xC1#32 } = .overlap
      ∧ code { base with scrAddr := 0x110#32 } = .none ∧ code { base with scrAddr := 0xC0#32 } = .none
      ∧ code { base with scrAddr := 0x10F#32, scrLen := 63#32 } = .scratch := by decide

/-! ## Registers (V-REG-1 to V-REG-4, V-ERR-2) -/

theorem test_reset_words :
    State.reset.regWord .cmd = 0x500#32 ∧ State.reset.regWord .pct = 0x2134#32 ∧ State.reset.regWord .fthr = 0xFA0#32
      ∧ State.reset.regWord .sigma = 0x64#32 ∧ State.reset.regWord .id = 0x46450700#32 := by decide

theorem test_writable_fields :
    let w := fun r => (State.reset.writeReg r 0xFFFFFFFF#32).regWord r
    w .cmd = 0xFFF#32 ∧ w .pct = 0x3FFF#32 ∧ w .sigma = 0xFFFF#32 ∧ w .width = 0xFFFFFFFF#32 ∧ w .id = 0x46450700#32
      ∧ w .reserved38 = 0#32 ∧ (State.reset.writeReg .ctrl 0xFFFFFFFE#32).regWord .ctrl = 0x2#32 := by decide

theorem test_narrow_reads :
    (State.reset.readBlock 0x01 .byte).reply = .value 0x07#32 ∧ (State.reset.readBlock 0x03 .byte).reply = .value 0x46#32
      ∧ (State.reset.readBlock 0x28 .half).reply = .value 0x2134#32
      ∧ (State.reset.writeBlock 0x10 .byte 0xFF#32).regs.bufAddr = 0#32 := by decide

/-- V-ERR-2: a failed command's STATUS 0x56, cleared in parts. -/
theorem test_status_clear :
    let s : State := State.fail State.reset .scratch
    s.regWord .status = 0x56#32 ∧ (s.writeReg .status 0x6#32).regWord .status = 0#32
      ∧ (s.writeReg .status 0x4#32).regWord .status = 0x2#32
      ∧ (s.writeReg .status 0x2#32).regWord .status = 0x54#32 := by decide

theorem test_memory_store_overwrites :
    Memory.byteAt (Memory.store (Memory.store [] 5 [1#8, 2#8, 3#8]) 6 [9#8]) 6 = 9#8
      ∧ Memory.store (Memory.store [] 6 [2#8]) 5 [1#8] = [(5, 1#8), (6, 2#8)] := by decide

/-! ## Witnesses: concrete states and operands that meet the hypotheses of an obligation -/

/-- A 2×2 image of different pixels. -/
def bytes16 : List Byte := (List.range 16).map fun k => BitVec.ofNat 8 (16 * k + 3)

/-- A busy machine: CANNY.THIN at low strength on a 2×2 image; REQ = 64, scratch 0x1000 .. 0x103F. -/
def busy : State := running base bytes16

/-- An idle machine with the same configuration. -/
def still : State := idle base bytes16

/-- R258: an outstanding store of scratch initialisation frees the input; one byte further it does not. -/
theorem test_scratch_store_unperformed :
    (({ still with posted := [(0x103F, 1#8)] } : State).acceptStart false).inputDraw = some 0
      ∧ (({ still with posted := [(0x1040, 1#8)] } : State).acceptStart false).inputDraw = none := by decide

/-- That machine after the engine's step, its end not yet observed. -/
def ended : State := busy.complete busy.running (fun _ => 7#8) 0

/-- R257: before the observation a load of the buffer's first byte is free, after a read of STATUS it is the output; a read
of the byte lanes 15:8 observes nothing. -/
theorem test_result_after_observation :
    ended.hostByte 0x100 = Config.freeByte ended.draws 0x100
      ∧ (ended.readBlock Reg.status.offset .word).hostByte 0x100 = 7#8
      ∧ (ended.readBlock Reg.status.offset .byte).unseen = []
      ∧ (ended.readBlock (Reg.status.offset + 1) .byte).unseen = ended.unseen := by
  refine ⟨rfl, ?_, by decide, by decide⟩
  decide

/-- R226: a store after a failure, before the host has observed it, lands and frees nothing. -/
theorem test_store_after_failure :
    ((busy.fail .scratch).hostStore 0x100 [9#8]).mem = Memory.store busy.mem 0x100 [9#8] := by decide

theorem witness_EngineStepRunsDecodedCommand :
    busy.busy = true ∧ decode busy.latched.cmd = .cannyThin .low ∧ busy.events = []
      ∧ ({ busy with events := [.engine] } : State).events = .engine :: []
      ∧ ({ busy with events := [.waitIrq] } : State).irq = false
      ∧ fieldEquals ((busy.beforeRead .id).regWord .id) 31 0 5 = false := by decide

theorem witness_IdleMachineStays : still.busy = false ∧ still.events = [] := by decide

theorem busy_legal : busy.Inv where
  memCanonical := Memory.store_wf [] 0x100 bytes16 List.Pairwise.nil
  memInside := by decide
  errIff := by decide
  busyClean := by decide
  idleStage := by decide
  latchedIsRegs := by decide
  stageInSequence := fun _ => State.check_mem_stageSequence busy

/-- Also of StepKeepsParameters: a step that completes, from a legal state. -/
theorem witness_StepKeepsLegalStates : busy.Inv ∧ isNext (step busy) = true := ⟨busy_legal, by decide⟩

theorem witness_ResetValuesOfRegisters : ({ busy with events := [.reset] } : State).events = .reset :: [] := rfl

/-- The first and the last byte of both ranges, and the bytes around them. -/
theorem witness_ranges :
    Ref.inBuffer busy 0x100 ∧ Ref.inBuffer busy 0x10F ∧ ¬Ref.inBuffer busy 0xFF ∧ ¬Ref.inBuffer busy 0x110
      ∧ Ref.inScratch (decode busy.latched.cmd) busy 0x1000 ∧ Ref.inScratch (decode busy.latched.cmd) busy 0x103F
      ∧ ¬Ref.inScratch (decode busy.latched.cmd) busy 0xFFF ∧ ¬Ref.inScratch (decode busy.latched.cmd) busy 0x1040 := by
  unfold Ref.inBuffer Ref.inScratch
  decide

theorem witness_ResetWhileBusyFreesRanges :
    busy.busy = true ∧ ({ busy with events := [.reset] } : State).events = .reset :: [] ∧ 0x100 < busy.params.memSize
      ∧ (Ref.inBuffer busy 0x100 ∨ Ref.inScratch (decode busy.latched.cmd) busy 0x100) :=
  ⟨rfl, rfl, by decide, .inl witness_ranges.1⟩

theorem witness_ResetWhileIdleKeepsMemory :
    still.busy = false ∧ ({ still with events := [.reset] } : State).events = .reset :: [] := ⟨rfl, rfl⟩

/-- Idle and busy. -/
theorem witness_ConfigWriteReadsBack :
    still.busy = false ∧ busy.busy = true ∧ Ref.isConfig .cmd = true ∧ Ref.isConfig .sigma = true
      ∧ ({ still with events := [wr params .pct 0xFFFFFFFF#32] } : State).events = wr params .pct 0xFFFFFFFF#32 :: [] := by
  decide

theorem witness_ReadOnlyRegistersIgnoreWrites :
    ([Reg.id, .result, .reserved38, .reserved3C].all fun r =>
      ({ busy with events := [wr params r 5#32] } : State).events = wr busy.params r 5#32 :: []) = true := by decide

theorem witness_BusyKeepsConfiguration :
    busy.busy = true ∧ Ref.isConfig .width = true ∧ busy.Inv
      ∧ ({ busy with events := [wr params .width 7#32] } : State).events = wr busy.params .width 7#32 :: [] :=
  ⟨rfl, rfl, busy_legal, rfl⟩

/-- Idle and busy. -/
theorem witness_AcceptedStartLaunches :
    still.busy = false ∧ busy.busy = true ∧ (0x3#32 : Word).getLsbD 0 = true
      ∧ ({ still with events := [wr params .ctrl 0x3#32] } : State).events = wr still.params .ctrl 0x3#32 :: []
      ∧ still.posted = [] ∧ check (decode busy.latched.cmd) busy.params busy.latched = .none
      ∧ ¬Ref.inBuffer busy 0x110 ∧ ¬Ref.inScratch (decode busy.latched.cmd) busy 0x110 := by
  refine ⟨rfl, rfl, by decide, rfl, rfl, by decide, witness_ranges.2.2.2.1, ?_⟩
  unfold Ref.inScratch
  decide

theorem witness_CtrlWriteWithoutStart :
    (0xFFFFFFFE#32 : Word).getLsbD 0 = false
      ∧ ({ still with events := [wr params .ctrl 0xFFFFFFFE#32] } : State).events
        = wr still.params .ctrl 0xFFFFFFFE#32 :: [] := ⟨by decide, rfl⟩

theorem witness_StatusWriteClearsBits :
    ({ busy with events := [wr params .status 0x6#32] } : State).events = wr busy.params .status 0x6#32 :: [] := rfl

theorem witness_StatusReadShowsLaterStage :
    busy.Inv ∧ busy.busy = true ∧ ({ busy with events := [rd params .status] } : State).events
      = rd busy.params .status :: [] := ⟨busy_legal, rfl, rfl⟩

/-- Byte 3 as a byte, byte 2 as a half word; a misaligned word; a narrow write; STATUS while busy, as a byte. -/
theorem witness_RegisterAccessWidths :
    3 % AccessWidth.byte.bytes = 0 ∧ 2 % AccessWidth.half.bytes = 0 ∧ 1 % AccessWidth.word.bytes ≠ 0
      ∧ 3 % AccessWidth.half.bytes ≠ 0 ∧ AccessWidth.byte ≠ .word
      ∧ ({ busy with events := [.regRead (params.base + 3) .byte] } : State).events
        = .regRead (busy.params.base + Reg.id.offset + 3) .byte :: []
      ∧ ¬(Reg.id = .status ∧ busy.busy = true) ∧ busy.busy = true
      ∧ ({ busy with events := [.regRead (params.base + 9) .byte] } : State).events
        = .regRead (busy.params.base + Reg.status.offset + 1) .byte :: [] := by decide

theorem witness_InterruptLineFalls :
    (0x2#32 : Word).getLsbD 1 = true ∧ (0x1#32 : Word).getLsbD 0 = true ∧ still.busy = false
      ∧ (0x0#32 : Word).getLsbD 1 = false ∧ ({ still with done := true, irqEn := true } : State).irq = true := by decide

/-- The first and the last byte of both ranges, and the bytes around them, while busy and after the end. -/
theorem witness_unsettled :
    (∀ a ∈ [0x100, 0x10F, 0x1000, 0x103F], Ref.unsettled busy a ∧ Ref.unsettled ended a)
      ∧ ∀ a ∈ [0xFF, 0x110, 0xFFF, 0x1040], ¬Ref.unsettled busy a ∧ ¬Ref.unsettled ended a := by
  unfold Ref.unsettled Ref.ownedBy
  decide

/-- The byte after the buffer, while the end of the command is not yet observed. -/
theorem witness_HostStoreThenLoad :
    let s : State := { ended with events := [.memWrite 0x110 [1#8], .memRead 0x110 1] }
    s.busy = false ∧ s.posted = [] ∧ 0x110 + [1#8].length ≤ s.params.memSize
      ∧ (∀ a, 0x110 ≤ a → a < 0x110 + [1#8].length → ¬Ref.unsettled s a)
      ∧ s.events = .memWrite 0x110 [1#8] :: .memRead 0x110 [1#8].length :: [] := by
  refine ⟨rfl, rfl, by decide, fun a h1 h2 => ?_, rfl⟩
  obtain rfl : a = 0x110 := Nat.le_antisymm (Nat.le_of_lt_succ h2) h1
  exact (witness_unsettled.2 0x110 (by decide)).2

/-- Loads beside the ranges and in them (`witness_unsettled`), and the three observations of the command `ended`. -/
theorem witness_HostLoadUntilEndIsSeen :
    ended.posted = [] ∧ 0x10F < ended.params.memSize
      ∧ ({ ended with events := [.memRead 0x10F 1] } : State).events = .memRead 0x10F 1 :: []
      ∧ ended.unseen = [⟨base, true⟩]
      ∧ ([[rd params .status], [.wait .status 0 0 0 0], [.waitIrq]].all fun es =>
        nextHas { ended with irqEn := true, events := es } (·.unseen.isEmpty)) = true := by
  refine ⟨rfl, by decide, rfl, rfl, by decide⟩

/-- Two bytes of which the second is the last of the scratch range, and a load of that byte; `touched` over a step; and the
same store after the end. -/
theorem witness_HazardStoreFreesRanges :
    busy.busy = true ∧ check (decode busy.latched.cmd) busy.params busy.latched = .none
      ∧ 0x103E ≤ 0x103F ∧ 0x103F < 0x103E + [1#8, 2#8].length ∧ 0x103E + [1#8, 2#8].length ≤ busy.params.memSize
      ∧ (Ref.inBuffer busy 0x103F ∨ Ref.inScratch (decode busy.latched.cmd) busy 0x103F)
      ∧ ({ busy with events := [.memWrite 0x103E [1#8, 2#8], .engine] } : State).events
        = .memWrite 0x103E [1#8, 2#8] :: .engine :: []
      ∧ ({ busy with events := [.memRead 0x103F 1] } : State).events = .memRead 0x103F 1 :: []
      ∧ ({ busy with posted := [(0x103F, 1#8)] } : State).posted[0]? = some (0x103F, 1#8)
      ∧ nextHas { busy with touched := true, events := [rd params .id] } (·.busy) = true
      ∧ (⟨base, true⟩ : EndedCommand) ∈ ended.unseen ∧ Ref.ownedBy base 0x103F ∧ Ref.disturbs ended 0x103E 2 0x100
      ∧ ¬Ref.disturbs ended 0x103E 2 0x1040 := by
  refine ⟨rfl, by decide, by decide, by decide, by decide, .inr witness_ranges.2.2.2.2.2.1, rfl, rfl, rfl, by decide,
    List.mem_singleton.mpr rfl, ?_, ⟨_, List.mem_singleton.mpr rfl, rfl, ?_, 0x103F, by decide, by decide, ?_⟩, ?_⟩
  all_goals first
    | (unfold Ref.disturbs; rintro ⟨e, he, -, ho, -⟩; obtain rfl := List.mem_singleton.mp he; revert ho)
    | skip
  all_goals
    unfold Ref.ownedBy
    decide

/-- The byte before the buffer and the byte after it, by a store and by a performed one. -/
theorem witness_StoreOutsideRangesLands :
    busy.busy = true ∧ busy.touched = false ∧ check (decode busy.latched.cmd) busy.params busy.latched = .none
      ∧ 0x110 + [7#8].length ≤ busy.params.memSize
      ∧ (∀ a, 0x110 ≤ a → a < 0x110 + [7#8].length →
          ¬Ref.inBuffer busy a ∧ ¬Ref.inScratch (decode busy.latched.cmd) busy a)
      ∧ (∀ a, 0xFF ≤ a → a < 0xFF + [7#8].length →
          ¬Ref.inBuffer busy a ∧ ¬Ref.inScratch (decode busy.latched.cmd) busy a)
      ∧ ({ busy with events := [.memWrite 0x110 [7#8], .engine] } : State).events
        = .memWrite 0x110 [7#8] :: .engine :: []
      ∧ ({ busy with posted := [(0xFF, 7#8)] } : State).posted[0]? = some (0xFF, 7#8) := by
  refine ⟨rfl, rfl, by decide, by decide, fun a h1 h2 => ?_, fun a h1 h2 => ?_, rfl, rfl⟩
  · obtain rfl : a = 0x110 := Nat.le_antisymm (Nat.le_of_lt_succ h2) h1
    unfold Ref.inBuffer Ref.inScratch
    decide
  · obtain rfl : a = 0xFF := Nat.le_antisymm (Nat.le_of_lt_succ h2) h1
    unfold Ref.inBuffer Ref.inScratch
    decide

/-- A store of the last two bytes of memory posted, and the second of two waiting bytes performed. -/
theorem witness_PostedStoreLands :
    0xFFFE + [1#8, 2#8].length ≤ busy.params.memSize
      ∧ ({ busy with events := [.memPost 0xFFFE [1#8, 2#8]] } : State).events = .memPost 0xFFFE [1#8, 2#8] :: []
      ∧ ({ busy with posted := [(0xFFFE, 1#8), (0x10F, 2#8)] } : State).posted[1]? = some (0x10F, 2#8)
      ∧ 0x10F < busy.params.memSize := by decide

/-- A byte of the buffer performed before the end is observed, which frees it, and a byte beside it. -/
theorem witness_PostedStoreLands_disturbs : Ref.disturbs ended 0x10F 1 0x100 ∧ ¬Ref.disturbs ended 0x110 1 0x110 := by
  refine ⟨⟨_, List.mem_singleton.mpr rfl, rfl, ?_, 0x10F, by decide, by decide, ?_⟩, ?_⟩
  all_goals first
    | (rintro ⟨e, he, -, ho, -⟩; obtain rfl := List.mem_singleton.mp he; revert ho)
    | skip
  all_goals
    unfold Ref.ownedBy
    decide

/-- The last byte of the buffer, and the last byte of the scratch range. -/
theorem witness_UnperformedStoreFreesInput :
    let s : State := { still with posted := [(0x10F, 1#8), (0x103F, 1#8)], events := [wr params .ctrl 1#32] }
    s.busy = false ∧ (1#32 : Word).getLsbD 0 = true ∧ s.events = wr s.params .ctrl 1#32 :: [] ∧ (0x10F, 1#8) ∈ s.posted
      ∧ (0x103F, 1#8) ∈ s.posted ∧ busy.latched = s.regs ∧ Ref.inBuffer busy 0x10F
      ∧ Ref.inScratch (decode busy.latched.cmd) busy 0x103F :=
  ⟨rfl, by decide, rfl, by decide, by decide, rfl, witness_ranges.2.1, witness_ranges.2.2.2.2.2.1⟩

theorem witness_ClearDoneRacesCompletion :
    busy.busy = true
      ∧ ({ busy with events := [wr params .status 0x2#32, .engine] } : State).events
        = wr busy.params .status 0x2#32 :: .engine :: [] := ⟨rfl, rfl⟩

theorem witness_PassedChecksBoundRanges : check (.cannyThin .low) busy.params busy.latched = .none := by decide

theorem witness_FailureWritesStatusOnly :
    check .reservedOp0 busy.params busy.latched ≠ .none
      ∧ check (.cannyThin .low) params { base with scrLen := 63#32 } ≠ .none := by decide

theorem witness_ReservedEncodingsFail :
    ([Instr.reservedOp0, .reservedOp6_7, .reservedOp8_F, .reservedCannyStroke3].all (·.isReserved)) = true
      ∧ Instr.grayW.isReserved = false := by decide

/-- Every one of the twelve commands runs on the sample state, at every STRENGTH: PassedCommandCompletes, GrayWeighted,
GrayInteger, SepiaMatrix, BlurConvolvesChannels, and the SOBEL and CANNY statements. -/
theorem witness_commands_run :
    (∀ i ∈ [Instr.grayW, .grayI, .sepia, .blurG25, .blurB7, .blurB5, .blurB3, .sobelP, .sobelF], Ref.runs i busy)
      ∧ ∀ f ∈ [StrengthField.low, .medium, .high, .legacy], Ref.runs (.cannyThin f) busy ∧ Ref.runs (.cannyMedium f) busy
        ∧ Ref.runs (.cannyThick f) busy := by
  unfold Ref.runs
  decide

/-- The last pixel and the last channel of the sample image. -/
theorem witness_pixels : Ref.inImage busy 1 1 ∧ ¬Ref.inImage busy 2 0 ∧ 3 < 4 := by
  unfold Ref.inImage
  decide

theorem plane_of_bytes (y x : Nat) : Plane.get (Plane.tabulate 3 3 fun _ _ => 255) y x ≤ 255 := by
  by_cases h : y < 3 ∧ x < 3
  · rw [Plane.get_tabulate _ _ _ h.1 h.2]
  · rw [Plane.get_tabulate_outside _ _ _ h]
    exact Nat.zero_le _

/-- Also of GradientFitsItsWidths. -/
theorem witness_PassResultsAreBytes :
    (∀ y x, Plane.get (Plane.tabulate 3 3 fun _ _ => 255) y x ≤ 255) ∧ ∀ v : Int, (fun _ => 255 : Int → Nat) v ≤ 255 :=
  ⟨plane_of_bytes, fun _ => Nat.le_refl 255⟩

/-- A constant plane, and a 1×1 image of channels 1, 2, 3, 4. -/
theorem witness_ConstantPlaneIsFixed :
    (∀ y x, y < 2 → x < 5 → Plane.get (Plane.tabulate 5 2 fun _ _ => 200) y x = 200)
      ∧ Ref.runs .blurG25 (running (config 0x003#12 1 1) [1#8, 2#8, 3#8, 4#8])
      ∧ ∀ c < 4, Ref.input (running (config 0x003#12 1 1) [1#8, 2#8, 3#8, 4#8]) c 0 0 = c + 1 := by
  refine ⟨fun _ _ hy hx => Plane.get_tabulate _ _ _ hy hx, ?_, ?_⟩
  · unfold Ref.runs
    decide
  · decide

theorem witness_GradientFitsItsWidths : interior 3 3 1 1 = true ∧ interior 3 3 0 2 = false := by decide

/-- No interior pixel, and one. -/
theorem witness_PercentileThresholdIsOrderStatistic : (2 - 2) * (3 - 2) = 0 ∧ 0 < (3 - 2) * (3 - 2) := by decide

/-- A 3×3 image whose right column is white: one interior pixel, an edge. -/
def column : List (List Nat) := [[0, 0, 255], [0, 0, 255], [0, 0, 255]]

theorem mag_inside (W H : Nat) (Q : Ref.Img) (y x : Nat) (h : Ref.isInterior W H y x) :
    Ref.mag W H Q y x = (Ref.gx Q y x).natAbs ^ 2 + (Ref.gy Q y x).natAbs ^ 2 := if_pos h

theorem mag_border (W H : Nat) (Q : Ref.Img) (y x : Nat) (h : ¬Ref.isInterior W H y x) : Ref.mag W H Q y x = 0 :=
  if_neg h

theorem interior_center : Ref.isInterior 3 3 1 1 := by unfold Ref.isInterior; decide

theorem only_center {y x : Nat} (h : Ref.isInterior 3 3 y x) : y = 1 ∧ x = 1 := by
  unfold Ref.isInterior at h
  omega

/-- An edge (S = 1020² ≥ FTHR = 4000), and a border pixel; with FTHR = 1020² + 1 the interior pixel is none. -/
theorem witness_SobelFixedResult :
    Ref.runs .sobelF (runningGray 0x024#12 column) ∧ Ref.inImage (runningGray 0x024#12 column) 1 1
      ∧ Ref.isInterior 3 3 1 1 ∧ ¬Ref.isInterior 3 3 0 2
      ∧ Ref.mag 3 3 (Ref.luma (runningGray 0x024#12 column)) 1 1 = 1040400
      ∧ 4000 ≤ 1040400 ∧ ¬(1040401 ≤ 1040400) := by
  refine ⟨?_, ?_, interior_center, ?_, ?_, by decide, by decide⟩
  · unfold Ref.runs
    decide
  · unfold Ref.inImage
    decide
  · unfold Ref.isInterior
    decide
  · rw [mag_inside _ _ _ _ _ interior_center]
    decide +kernel

/-- The percentile threshold of the one interior pixel is its own S, so it is an edge; every other pixel is none. -/
theorem witness_SobelPercentileResult :
    Ref.runs .sobelP (runningGray 0x004#12 column)
      ∧ percentileThreshold (interiorMagnitudes 3 3 [[0, 0, 0], [0, 1040400, 0], [0, 0, 0]]) 8500 = 1040400
      ∧ Ref.mag 3 3 (Ref.luma (runningGray 0x004#12 column)) 1 1 = 1040400 ∧ ¬Ref.isInterior 3 3 2 2 := by
  refine ⟨?_, by decide +kernel, ?_, ?_⟩
  · unfold Ref.runs
    decide
  · rw [mag_inside _ _ _ _ _ interior_center]
    decide +kernel
  · unfold Ref.isInterior
    decide

/-- The state of the CANNY witness: low strength, thin. By hand: B is 28, 88, 167 in each row, so Gx = 4 · 139 and
S = 309136. -/
def cannySample : State := runningGray 0x005#12 column

theorem canny_sample_center : Ref.cannyN cannySample .low 1 1 = 309136 := by
  have hv : (Ref.gx (Ref.blur .bin7 3 3 (Ref.luma cannySample)) 1 1).natAbs ^ 2
      + (Ref.gy (Ref.blur .bin7 3 3 (Ref.luma cannySample)) 1 1).natAbs ^ 2 = 309136 := by decide +kernel
  have hd : qdir (Ref.gx (Ref.blur .bin7 3 3 (Ref.luma cannySample)) 1 1)
      (Ref.gy (Ref.blur .bin7 3 3 (Ref.luma cannySample)) 1 1) = .d0 := by decide +kernel
  show Ref.nmsPlane 3 3 (Ref.blur .bin7 3 3 (Ref.luma cannySample)) 1 1 = 309136
  unfold Ref.nmsPlane
  rw [if_pos, mag_inside _ _ _ _ _ interior_center, hv]
  refine ⟨interior_center, ?_⟩
  rw [hd]
  constructor <;> dsimp only <;> rw [mag_border] <;> first
    | exact Nat.zero_le _
    | (unfold Ref.isInterior; decide)

theorem canny_sample_border {y x : Nat} (h : ¬Ref.isInterior 3 3 y x) : Ref.cannyN cannySample .low y x = 0 :=
  if_neg fun hc => h hc.1

/-- An edge pixel, a pixel that is none, and the largest N. -/
theorem witness_CannyResult :
    Ref.runs (.cannyThin .low) cannySample ∧ Ref.isMax 3 3 (Ref.cannyN cannySample .low) 309136
      ∧ Ref.cannyEdge cannySample .low .thin 309136 1 1 ∧ ¬Ref.cannyEdge cannySample .low .thin 309136 0 0 := by
  refine ⟨?_, ⟨fun y x _ _ => ?_, .inr ⟨1, 1, by decide, by decide, canny_sample_center⟩⟩, ?_, ?_⟩
  · unfold Ref.runs
    decide
  · by_cases h : Ref.isInterior 3 3 y x
    · obtain ⟨rfl, rfl⟩ := only_center h
      exact Nat.le_of_eq canny_sample_center
    · rw [canny_sample_border h]
      exact Nat.zero_le _
  · refine ⟨1, 1, by decide, by decide, by decide, by decide, by decide, by decide, .seed 1 1 (by decide) (by decide) ?_⟩
    show Ref.strong .low 309136 (Ref.cannyN cannySample .low 1 1)
    rw [canny_sample_center]
    unfold Ref.strong
    decide
  · rintro ⟨v, u, -, -, h1, -, h2, -, hl⟩
    have hz : Ref.cannyN cannySample .low v u = 0 := canny_sample_border (by
      unfold Ref.isInterior
      unfold Ref.reach at h1 h2
      dsimp only at h1 h2
      omega)
    cases hl with
    | seed _ _ _ _ h =>
      have := h.1
      omega
    | grow _ _ _ _ _ _ _ _ h =>
      have := h.1
      omega

theorem witness_LegacySigmaResolves :
    resolveStrength .legacy 180 = .low ∧ resolveStrength .legacy 179 = .medium ∧ resolveStrength .legacy 100 = .medium
      ∧ resolveStrength .legacy 99 = .high := by decide

/-- The boundary values of the two tests at medium strength. -/
theorem witness_ThresholdsAreExactOnRoots :
    0 < 2500 ∧ classify (presetTable .medium) 2500 100 = .strong ∧ classify (presetTable .medium) 2500 99 = .weak
      ∧ classify (presetTable .medium) 2500 16 = .weak ∧ classify (presetTable .medium) 2500 15 = .none
      ∧ classify (presetTable .medium) 0 0 = .none := by decide

/-- A strong, a linked weak and an unlinked weak pixel. -/
theorem witness_HysteresisIsLinkedSet :
    hysteresis 4 1 [[.strong, .weak, .none, .weak]] = [[.strong, .strong, .none, .weak]] := by decide +kernel

theorem witness_CannyMaskLaws :
    cannyMask .low 3 3 [[0, 0, 0], [0, 7, 0], [0, 0, 0]] = [[false, false, false], [false, true, false], [false, false, false]]
      ∧ planeMax [[0, 0], [0, 0]] = 0 := by decide +kernel

/-- Two states that differ in what earlier commands left and in registers that CANNY.THIN at low strength does not read. -/
theorem witness_ResultDependsOnInputOnly :
    let s' : State := { busy with
      result := 9#32, draws := 77, mem := Memory.store busy.mem 0x2000 [1#8],
      latched := { busy.latched with pct := 1#14, fthr := 2#32, sigma := 3#16 } }
    s'.params = busy.params ∧ Ref.sameOperands (.cannyThin .low) busy.latched s'.latched
      ∧ Ref.runs (.cannyThin .low) busy ∧ s'.touched = false
      ∧ (∀ a, Ref.inBuffer busy a → s'.inputByte a = busy.inputByte a) := by
  refine ⟨rfl, ⟨rfl, rfl, rfl, rfl, fun _ => ⟨rfl, rfl⟩, fun h => ?_, fun h => ?_, fun h => ?_⟩, ?_, rfl, fun _ _ => rfl⟩
  · cases h
  · cases h
  · exact absurd h (by decide)
  · exact witness_commands_run.2 .low (by decide) |>.1

theorem witness_OnlyStartSetsBusy :
    ({ still with events := [wr params .ctrl 1#32] } : State).busy = false
      ∧ nextHas { still with events := [wr params .ctrl 1#32] } (·.busy) = true := by decide

theorem witness_OnlyEndOrResetClearsBusy :
    busy.busy = true ∧ nextHas busy (fun t => !t.busy && t.done) = true := by decide

/-- SOBEL.F on the sample image: RESULT becomes FTHR. -/
theorem witness_OnlySuccessWritesResult :
    nextHas (running { base with cmd := 0x024#12 } bytes16) (fun t => t.result != busy.result) = true := by decide

/-- A byte of the buffer that CANNY changes, and one that the host stores. -/
theorem witness_OnlyOwnersChangeMemory :
    nextHas busy (fun t => Memory.byteAt t.mem 0x100 != Memory.byteAt busy.mem 0x100) = true
      ∧ nextHas { still with events := [.memWrite 0x10F [0#8]] }
        (fun t => Memory.byteAt t.mem 0x10F != Memory.byteAt still.mem 0x10F) = true
      ∧ nextHas { still with posted := [(0x10F, 0#8)], events := [.memPerform 0] }
        (fun t => Memory.byteAt t.mem 0x10F != Memory.byteAt still.mem 0x10F) = true := by decide

theorem witness_WaitForEndTerminates :
    busy.busy = true ∧ ({ busy with events := [.wait .status 0 0 0 0] } : State).events = .wait .status 0 0 0 0 :: []
      ∧ ({ busy with irqEn := true } : State).irq = false := by decide

theorem witness_LaunchRunsAssembledCommand :
    still.busy = false
      ∧ ({ still with events := launch params (.cannyThick .high) true 2 } : State).events
        = launch still.params (.cannyThick .high) true 2 ++ [] := by decide

/-- 1.8, 1.79, 1, 0.99 and a negative sigma. -/
theorem witness_SigmaEncodingIsExact :
    sigmaUnits (9 / 5) = 180 ∧ sigmaUnits (179 / 100) = 179 ∧ sigmaUnits 1 = 100 ∧ sigmaUnits (99 / 100) = 99
      ∧ sigmaUnits (-3) = 0 ∧ sigmaUnits 1000 = 65535 := by decide +kernel

theorem witness_PercentileEncoding :
    percentileUnits (16383 / 10000) = some 16383 ∧ percentileUnits 0 = some 0 ∧ percentileUnits (16384 / 10000) = none
      ∧ percentileUnits (1 / 30000) = none := by decide +kernel

end Sys2Proof.Tests
end

section
/-! PROOF. Writes of the register block (spec/10_state.md §2, §3): what a register write does per kind of register, and the
statements on ignored writes. -/

namespace Sys2Proof.Machine

open Sys2Proof

/-! ## What a register write does, by kind of register -/

/-- R36, R37: every configuration register takes a write in the same way, by one guard on BUSY. -/
theorem State.writeReg_config (s : State) {r : Reg} (v : Word) (hr : Ref.isConfig r = true) :
    s.writeReg r v = if s.busy then s else { s with regs := ConfigRegs.write s.regs r v } := by
  cases r
  case cmd | bufAddr | bufLen | width | height | scrAddr | scrLen | pct | fthr | sigma => rfl
  case id | ctrl | status | result | reserved38 | reserved3C => cases hr

theorem State.writeReg_config_busy (s : State) {r : Reg} (v : Word) (hr : Ref.isConfig r = true) (hb : s.busy = true) :
    s.writeReg r v = s := by
  rw [s.writeReg_config v hr, if_pos hb]

theorem State.writeReg_ctrl_busy (s : State) (v : Word) (hb : s.busy = true) :
    s.writeReg .ctrl v = { s with irqEn := v.getLsbD 1 } := by
  have noStart : ¬(v.getLsbD 0 && !s.busy) = true := by simp [hb]
  exact if_neg noStart

theorem State.writeReg_readOnly (s : State) {r : Reg} (v : Word)
    (hr : r = .id ∨ r = .result ∨ r = .reserved38 ∨ r = .reserved3C) : s.writeReg r v = s := by
  rcases hr with rfl | rfl | rfl | rfl <;> rfl

/-! ## Ignored writes -/

/-- Settles O14: the write is a step that runs `writeReg`, which keeps the state at a read-only or reserved register. -/
theorem readOnlyRegistersIgnoreWrites : Obligations.ReadOnlyRegistersIgnoreWrites := by
  intro s r v rest hr he
  have write : step s = .next { s with events := rest } := by
    rw [step_wr s r v rest he, State.writeReg_readOnly _ v hr]
  exact ⟨write, rfl, rfl, rfl⟩

/-- Settles O15: one rule per kind of register, each at BUSY = 1, and the invariant that `cmd_latched` equals the
registers. -/
theorem busyKeepsConfiguration : Obligations.BusyKeepsConfiguration := by
  intro s v rest hb
  refine ⟨fun r hr he => ?config, fun he => ?ctrl, fun he => ?status, fun inv => inv.latchedIsRegs hb⟩
  case config => rw [step_wr s r v rest he, State.writeReg_config_busy { s with events := rest } v hr hb]
  case ctrl => rw [step_wr s .ctrl v rest he, State.writeReg_ctrl_busy { s with events := rest } v hb]
  case status => exact step_wr s .status v rest he

end Sys2Proof.Machine
end

section
/-! PROOF. Decoding (spec/30_encoding.md §2, §4): the decoder reads OP and the fields that OP selects, so the bits of CMD
that an instruction does not read do not change what its word decodes to. -/

namespace Sys2Proof

/-! ## Words that agree under a mask -/

/-- Two words that agree under a mask agree in every field that the mask holds whole. -/
theorem CmdWord.field_eq_of_agree {v w m : CmdWord} (agree : v &&& m = w &&& m) {start len : Nat}
    (whole : m.extractLsb' start len = BitVec.allOnes len) : v.extractLsb' start len = w.extractLsb' start len := by
  have field := congrArg (BitVec.extractLsb' start len) agree
  rwa [BitVec.extractLsb'_and, BitVec.extractLsb'_and, whole, BitVec.and_allOnes, BitVec.and_allOnes] at field

/-- The fields of `w` that R81 to R86 select lie in `m`: OP, and by OP the field LUMA, KSEL or SMODE, or STROKE with, unless
STROKE is the reserved 3, STRENGTH. -/
def CmdWord.ReadWithin (w m : CmdWord) : Prop :=
  m.op = BitVec.allOnes 4
    ∧ (w.op.toNat = 1 → m.luma = BitVec.allOnes 1)
    ∧ (w.op.toNat = 3 → m.ksel = BitVec.allOnes 2)
    ∧ (w.op.toNat = 4 → m.smode = BitVec.allOnes 1)
    ∧ (w.op.toNat = 5 → m.stroke = BitVec.allOnes 2)
    ∧ (w.op.toNat = 5 → w.stroke.toNat < 3 → m.strength = BitVec.allOnes 2)

/-- R87: a field that the selected OP does not read is ignored. -/
theorem decode_eq_of_agree {v w m : CmdWord} (agree : v &&& m = w &&& m) (read : w.ReadWithin m) :
    decode v = decode w := by
  obtain ⟨op, luma, ksel, smode, stroke, strength⟩ := read
  have sameOp : v.op = w.op := CmdWord.field_eq_of_agree agree op
  unfold decode
  rw [sameOp]
  split
  case h_1 | h_3 | h_7 | h_8 | h_9 => rfl
  case h_2 hop =>
    have same : v.luma = w.luma := CmdWord.field_eq_of_agree agree (luma hop)
    rw [same]
  case h_4 hop =>
    have same : v.ksel = w.ksel := CmdWord.field_eq_of_agree agree (ksel hop)
    rw [same]
  case h_5 hop =>
    have same : v.smode = w.smode := CmdWord.field_eq_of_agree agree (smode hop)
    rw [same]
  case h_6 hop =>
    have same : v.stroke = w.stroke := CmdWord.field_eq_of_agree agree (stroke hop)
    have sameStrength (h : w.stroke.toNat < 3) : v.strength = w.strength :=
      CmdWord.field_eq_of_agree agree (strength hop h)
    rw [same]
    split
    case h_1 h | h_2 h | h_3 h => rw [sameStrength (by omega)]
    case h_4 => rfl

/-! ## The reserved rows that span several values of OP -/

/-- R91: OP 6 and 7 are one reserved row, so the decoder reads bits 3:1 of OP alone. -/
theorem decode_eq_reservedOp6_7 {w : CmdWord} (h : w.extractLsb' 1 3 = 3#3) : decode w = .reservedOp6_7 := by
  have values : ∀ o : BitVec 4, o.extractLsb' 1 3 = 3#3 → o = 6#4 ∨ o = 7#4 := by decide
  unfold decode
  rcases values w.op ((BitVec.extractLsb'_extractLsb'_of_le (by decide)).trans h) with hop | hop <;> rw [hop] <;> rfl

/-- R91: OP 8 to F are one reserved row, so the decoder reads bit 3 of OP alone. -/
theorem decode_eq_reservedOp8_F {w : CmdWord} (h : w.extractLsb' 3 1 = 1#1) : decode w = .reservedOp8_F := by
  have values : ∀ o : BitVec 4, o.extractLsb' 3 1 = 1#1 → 8 ≤ o.toNat := by decide
  have large := values w.op ((BitVec.extractLsb'_extractLsb'_of_le (by decide)).trans h)
  unfold decode
  split
  case h_9 => rfl
  all_goals omega

/-! ## Decode undoes encode -/

/-- `encodeWith` fills only the bits that the instruction does not read. -/
theorem encodeWith_agrees (i : Instr) (fill : CmdWord) : encodeWith i fill &&& i.readMask = encode i &&& i.readMask := by
  unfold encodeWith
  rw [BitVec.and_or_distrib_right, BitVec.and_assoc]
  simp

theorem decode_encode (i : Instr) : decode (encode i) = i := by
  cases i
  case cannyThin s | cannyMedium s | cannyThick s => cases s <;> rfl
  all_goals rfl

/-- The read mask of an instruction holds the fields that its word's OP selects. The two reserved rows that span several
values of OP read OP in part only. -/
theorem encode_readWithin_readMask {i : Instr} (h6 : i ≠ .reservedOp6_7) (h8 : i ≠ .reservedOp8_F) :
    (encode i).ReadWithin i.readMask := by
  unfold CmdWord.ReadWithin
  cases i
  case reservedOp6_7 => exact absurd rfl h6
  case reservedOp8_F => exact absurd rfl h8
  case cannyThin s | cannyMedium s | cannyThick s => cases s <;> decide
  all_goals decide

/-- Settles O1: where the read mask holds all of OP, the filled word and the plain one agree in every field that the decoder
reads; the two reserved rows of several OP values are decoded from the bits of OP that they fix. -/
theorem decodeUndoesEncode : Obligations.DecodeUndoesEncode := by
  intro i fill
  have agree := encodeWith_agrees i fill
  by_cases h6 : i = .reservedOp6_7
  · subst h6
    exact decode_eq_reservedOp6_7 (CmdWord.field_eq_of_agree (start := 1) (len := 3) agree rfl)
  by_cases h8 : i = .reservedOp8_F
  · subst h8
    exact decode_eq_reservedOp8_F (CmdWord.field_eq_of_agree (start := 3) (len := 1) agree rfl)
  exact (decode_eq_of_agree agree (encode_readWithin_readMask h6 h8)).trans (decode_encode i)

end Sys2Proof
end

section
/-! PROOF. The words of an instruction (spec/30_encoding.md §3, §4): a word decodes to an instruction exactly when the bits
that the instruction reads are those of its encoding. -/

namespace Sys2Proof

/-! ## The bits under a read mask are the fields it holds -/

/-- R80: the bits of one field, in their place. -/
theorem CmdWord.and_fieldMask (w : CmdWord) (start len : Nat) :
    w &&& ((BitVec.allOnes len).setWidth 12 <<< start) = (w.extractLsb' start len).setWidth 12 <<< start := by
  apply BitVec.eq_of_getLsbD_eq
  intro k hk
  by_cases hs : start ≤ k
  · have inside : start + (k - start) = k := by omega
    simp [hk, inside, Bool.and_comm, Bool.and_assoc]
  · have below : k < start := by omega
    simp [hk, below]

theorem CmdWord.and_opMask (w : CmdWord) : w &&& 0x00F#12 = w.op.setWidth 12 := by
  simpa [CmdWord.op] using w.and_fieldMask 0 4

/-- R91: the reserved rows of several values of OP read OP in part. -/
theorem CmdWord.and_opBits (w : CmdWord) (m : BitVec 4) : w &&& m.setWidth 12 = (w.op &&& m).setWidth 12 := by
  have inOp : ∀ m : BitVec 4, 0x00F#12 &&& m.setWidth 12 = m.setWidth 12 := by decide
  rw [BitVec.setWidth_and, ← w.and_opMask, BitVec.and_assoc, inOp m]

theorem CmdWord.and_lumaMask (w : CmdWord) : w &&& 0x01F#12 = w.op.setWidth 12 ||| (w.luma.setWidth 12 <<< 4) := by
  rw [← w.and_opMask, CmdWord.luma, ← w.and_fieldMask 4 1, ← BitVec.and_or_distrib_left]
  rfl

theorem CmdWord.and_smodeMask (w : CmdWord) : w &&& 0x02F#12 = w.op.setWidth 12 ||| (w.smode.setWidth 12 <<< 5) := by
  rw [← w.and_opMask, CmdWord.smode, ← w.and_fieldMask 5 1, ← BitVec.and_or_distrib_left]
  rfl

theorem CmdWord.and_kselMask (w : CmdWord) : w &&& 0x0CF#12 = w.op.setWidth 12 ||| (w.ksel.setWidth 12 <<< 6) := by
  rw [← w.and_opMask, CmdWord.ksel, ← w.and_fieldMask 6 2, ← BitVec.and_or_distrib_left]
  rfl

theorem CmdWord.and_strokeMask (w : CmdWord) :
    w &&& 0xC0F#12 = w.op.setWidth 12 ||| (w.stroke.setWidth 12 <<< 10) := by
  rw [← w.and_opMask, CmdWord.stroke, ← w.and_fieldMask 10 2, ← BitVec.and_or_distrib_left]
  rfl

theorem CmdWord.and_cannyMask (w : CmdWord) :
    w &&& 0xF0F#12 = w.op.setWidth 12 ||| (w.strength.setWidth 12 <<< 8) ||| (w.stroke.setWidth 12 <<< 10) := by
  rw [← w.and_opMask, CmdWord.strength, CmdWord.stroke, ← w.and_fieldMask 8 2, ← w.and_fieldMask 10 2,
    ← BitVec.and_or_distrib_left, ← BitVec.and_or_distrib_left]
  rfl

/-! ## The bits that the decoded instruction reads are its encoding -/

theorem StrengthField.encode_decode (b : BitVec 2) : (StrengthField.decode b).encode = b := by
  revert b
  decide

theorem eq_ofNat_of_toNat_eq {n k : Nat} {v : BitVec n} (h : v.toNat = k) : v = BitVec.ofNat n k := by
  rw [← h, BitVec.ofNat_toNat, BitVec.setWidth_eq]

theorem eq_three_of_ne {b : BitVec 2} (n0 : b.toNat ≠ 0) (n1 : b.toNat ≠ 1) (n2 : b.toNat ≠ 2) : b = 3#2 := by
  apply BitVec.eq_of_toNat_eq
  have := b.isLt
  rw [BitVec.toNat_ofNat]
  omega

/-- R80, R87: a word is the encoding of the instruction that it decodes to, in the bits that the instruction reads. -/
theorem and_readMask_decode (w : CmdWord) : w &&& (decode w).readMask = encode (decode w) := by
  unfold decode
  split
  case h_1 op | h_3 op => exact w.and_opMask.trans (by rw [eq_ofNat_of_toNat_eq op]; rfl)
  case h_2 op =>
    split
    case isTrue luma => exact w.and_lumaMask.trans (by rw [eq_ofNat_of_toNat_eq op, luma]; rfl)
    case isFalse luma =>
      have luma : w.luma = 1#1 := (BitVec.eq_zero_or_eq_one _).resolve_left luma
      exact w.and_lumaMask.trans (by rw [eq_ofNat_of_toNat_eq op, luma]; rfl)
  case h_4 op =>
    split
    case h_1 ksel | h_2 ksel | h_3 ksel =>
      exact w.and_kselMask.trans (by rw [eq_ofNat_of_toNat_eq op, eq_ofNat_of_toNat_eq ksel]; rfl)
    case h_4 n0 n1 n2 =>
      exact w.and_kselMask.trans (by rw [eq_ofNat_of_toNat_eq op, eq_three_of_ne n0 n1 n2]; rfl)
  case h_5 op =>
    split
    case isTrue smode => exact w.and_smodeMask.trans (by rw [eq_ofNat_of_toNat_eq op, smode]; rfl)
    case isFalse smode =>
      have smode : w.smode = 1#1 := (BitVec.eq_zero_or_eq_one _).resolve_left smode
      exact w.and_smodeMask.trans (by rw [eq_ofNat_of_toNat_eq op, smode]; rfl)
  case h_6 op =>
    split
    case h_1 stroke | h_2 stroke | h_3 stroke =>
      exact w.and_cannyMask.trans (by
        rw [eq_ofNat_of_toNat_eq op, eq_ofNat_of_toNat_eq stroke, encode, StrengthField.encode_decode]; rfl)
    case h_4 n0 n1 n2 =>
      exact w.and_strokeMask.trans (by rw [eq_ofNat_of_toNat_eq op, eq_three_of_ne n0 n1 n2]; rfl)
  case h_7 op | h_8 op => exact (w.and_opBits 0xE#4).trans (by rw [eq_ofNat_of_toNat_eq op]; rfl)
  case h_9 =>
    have large : ∀ o : BitVec 4, 7 < o.toNat → o &&& 8#4 = 8#4 := by decide
    have op : 7 < w.op.toNat := by
      by_contra small
      interval_cases h : w.op.toNat <;> contradiction
    exact (w.and_opBits 8#4).trans (by rw [large w.op op]; rfl)

/-- R87, R89: the words of an instruction. -/
theorem decode_eq_iff (w : CmdWord) (i : Instr) : decode w = i ↔ w &&& i.readMask = encode i := by
  refine ⟨fun h => h ▸ and_readMask_decode w, fun read => ?_⟩
  have refill : encodeWith i w = w := by
    rw [encodeWith, ← read, ← BitVec.and_or_distrib_left, BitVec.or_not_self, BitVec.and_allOnes]
  exact refill ▸ decodeUndoesEncode i w

end Sys2Proof
end

section
/-! PROOF. What the checks cannot report, and what a command that runs leaves behind (spec/60_exceptions.md R223, R229;
20_memory.md R61 to R63), for every instruction. -/

namespace Sys2Proof.Machine

open Sys2Proof

/-! ## The checks -/

/-- R222: no command gives ERR_CONFIG. -/
theorem check_ne_config {i : Instr} (h : i.isReserved = false) (p : Params) (l : ConfigRegs) : check i p l ≠ .config := by
  unfold check
  rw [if_neg (by simp [h])]
  repeat' split
  all_goals exact ErrCode.noConfusion

/-- R61, R223: the checks on the scratch range need a requirement. -/
theorem check_of_no_scratch {i : Instr} (h : i.scratchPerPixel = 0) (p : Params) (l : ConfigRegs) :
    check i p l ≠ .scratch ∧ check i p l ≠ .overlap := by
  have none : req i l = 0 := by rw [req, h, Nat.zero_mul]
  have fits : ¬req i l > l.scrLen.toNat := by omega
  have vacuous (P : Prop) : ¬(req i l > 0 ∧ P) := by omega
  unfold check
  rw [if_neg (vacuous _), if_neg fits, if_neg (vacuous _)]
  repeat' split
  all_goals decide

/-! ## A command that runs -/

theorem req_eq_scratchFactor (i : Instr) (l : ConfigRegs) :
    req i l = Ref.scratchFactor i * (l.w.toNat * l.h.toNat) := by
  cases i <;> rfl

/-- R229, R63: the completion of any command, with whatever output and result. -/
theorem State.complete_completed (s : State) (i : Instr) (out : Nat → Byte) {r : Nat} (hr : r < 2 ^ 32) :
    Ref.completed i s (s.complete i out r) r := by
  refine ⟨?result, rfl, rfl, rfl, rfl, rfl, ⟨rfl, rfl, rfl, rfl, rfl, rfl, rfl⟩, ?frame⟩
  case result => rw [State.complete_result, BitVec.toNat_ofNat, Nat.mod_eq_of_lt hr]
  case frame =>
    intro a offBuffer offScratch
    unfold Ref.inScratch at offScratch
    rw [← req_eq_scratchFactor] at offScratch
    rw [State.complete_mem, State.byteAt_writeBack, if_neg offScratch]
    exact if_neg offBuffer

/-- R62, R63, R262: a command that runs completes, and its output image is what its rule computes from the input planes. -/
theorem exec_runs {i : Instr} {s : State} (runs : Ref.runs i s) {work : Work}
    (rule : workOf i s.latched s.latched.w.toNat s.latched.h.toNat s.inputPlane = work) (hr : work.result < 2 ^ 32) :
    ∃ t, exec i s = .next t ∧ Ref.completed i s t work.result
      ∧ ∀ y x c, Ref.inImage s y x → c < 4 → Ref.output s t c y x = ((Plane.get work.out y x).channel c).toNat := by
  obtain ⟨passed, untouched⟩ := runs
  subst rule
  refine ⟨_, exec_completes i s passed, s.complete_completed i _ hr, ?_⟩
  intro y x c ⟨hy, hx⟩ hc
  exact congrArg BitVec.toNat (s.byteAt_output i _ _ ((check_eq_none_iff ..).mp passed) untouched hy hx hc)

end Sys2Proof.Machine
end

section
/-! PROOF. The pointwise commands (spec/40_pointwise.md): a transform of each pixel on its own, and the statements on
GRAY.W, GRAY.I and SEPIA. -/

namespace Sys2Proof.Machine

open Sys2Proof

/-! ## A pointwise command that runs -/

/-- R100: the output pixel is the transform of the input pixel, and RESULT is 0. -/
theorem exec_pointwise {i : Instr} {s : State} (f : Pixel → Pixel) (runs : Ref.runs i s)
    (rule : workOf i s.latched = pointwise f) :
    ∃ t, exec i s = .next t ∧ Ref.completed i s t 0
      ∧ ∀ y x, Ref.inImage s y x →
          let p := f (s.inputPixel y x)
          Ref.outputIs s t y x p.r.toNat p.g.toNat p.b.toNat p.a.toNat := by
  obtain ⟨t, step, completed, output⟩ := exec_runs runs rfl (by rw [rule]; exact Nat.two_pow_pos 32)
  rw [rule] at completed output
  refine ⟨t, step, completed, fun y x inside => ?_⟩
  have pixel : Plane.get (pointwise f s.latched.w.toNat s.latched.h.toNat s.inputPlane).out y x
      = f (s.inputPixel y x) := by
    obtain ⟨hy, hx⟩ := inside
    rw [pointwise, Plane.get_tabulate _ _ _ hy hx, s.inputPlane_get hy hx]
  have channel (c : Nat) (hc : c < 4) : Ref.output s t c y x = ((f (s.inputPixel y x)).channel c).toNat := by
    rw [output y x c inside hc, pixel]
  exact ⟨channel 0 (by decide), channel 1 (by decide), channel 2 (by decide), channel 3 (by decide)⟩

/-! ## The transforms as numbers -/

/-- R101: the weighted luma of bytes is a byte. -/
theorem lumaW_lt (r g b : Byte) : lumaW r.toNat g.toNat b.toNat < 256 := by
  unfold lumaW rdiv
  omega

/-- R102: the shift truncates the quotient by 256. -/
theorem lumaI_eq_div (R G B : Nat) : lumaI R G B = (77 * R + 150 * G + 29 * B) / 256 := by
  rw [lumaI, Nat.shiftRight_eq_div_pow]

/-- R102: the integer luma of bytes is a byte. -/
theorem lumaI_lt (r g b : Byte) : lumaI r.toNat g.toNat b.toNat < 256 := by
  rw [lumaI_eq_div]
  omega

/-- R104: the clamp makes a channel of the sepia matrix a byte. -/
theorem sepiaChannel_toNat (cr cg cb : Nat) (p : Pixel) :
    (sepiaChannel cr cg cb p).toNat
      = min 255 ((2 * (cr * p.r.toNat + cg * p.g.toNat + cb * p.b.toNat) + 1000) / 2000) := by
  rw [sepiaChannel, BitVec.toNat_ofNat, Nat.mod_eq_of_lt (by omega)]
  rfl

/-- R104: the third row of the matrix sums to 937/1000, so B' never clamps. -/
theorem sepiaChannel_blue_toNat (p : Pixel) :
    (sepiaChannel 272 534 131 p).toNat = (2 * (272 * p.r.toNat + 534 * p.g.toNat + 131 * p.b.toNat) + 1000) / 2000 := by
  rw [sepiaChannel_toNat]
  omega

/-- R101, R102: a gray command whose luma maps bytes to bytes. -/
theorem exec_gray {i : Instr} {s : State} {luma : Nat → Nat → Nat → Nat} (runs : Ref.runs i s)
    (rule : workOf i s.latched = pointwise (grayPixel luma))
    (byte : ∀ r g b : Byte, luma r.toNat g.toNat b.toNat < 256) :
    ∃ t, exec i s = .next t ∧ Ref.completed i s t 0
      ∧ ∀ y x, Ref.inImage s y x →
          let L := luma (Ref.input s 0 y x) (Ref.input s 1 y x) (Ref.input s 2 y x)
          Ref.outputIs s t y x L L L (Ref.input s 3 y x) := by
  obtain ⟨t, step, completed, output⟩ := exec_pointwise (grayPixel luma) runs rule
  refine ⟨t, step, completed, fun y x inside => ?_⟩
  obtain ⟨red, green, blue, alpha⟩ := output y x inside
  have gray (p : Pixel) : (BitVec.ofNat 8 (luma p.r.toNat p.g.toNat p.b.toNat)).toNat
      = luma p.r.toNat p.g.toNat p.b.toNat := by
    rw [BitVec.toNat_ofNat, Nat.mod_eq_of_lt (byte p.r p.g p.b)]
  exact ⟨red.trans (gray _), green.trans (gray _), blue.trans (gray _), alpha⟩

/-! ## The commands -/

/-- Settles O35: the weighted luma of bytes fits a byte, so every pixel holds it as it stands. -/
theorem grayWeighted : Obligations.GrayWeighted :=
  ⟨fun w => decode_eq_iff w .grayW,
    fun p l => ⟨check_ne_config rfl p l, check_of_no_scratch rfl p l⟩,
    fun _ runs => exec_gray runs rfl lumaW_lt⟩

/-- Settles O36: as O35, with the shift read as a division. -/
theorem grayInteger : Obligations.GrayInteger := by
  refine ⟨fun w => decode_eq_iff w .grayI, fun p l => ⟨check_ne_config rfl p l, check_of_no_scratch rfl p l⟩, ?_⟩
  intro s runs
  simpa only [lumaI_eq_div] using exec_gray (i := .grayI) runs rfl lumaI_lt

/-- Settles O37: each channel is its row of the matrix, clamped; the third row never reaches the clamp. -/
theorem sepiaMatrix : Obligations.SepiaMatrix := by
  refine ⟨fun w => decode_eq_iff w .sepia, fun p l => ⟨check_ne_config rfl p l, check_of_no_scratch rfl p l⟩, ?_⟩
  intro s runs
  obtain ⟨t, step, completed, output⟩ := exec_pointwise sepiaPixel runs rfl
  refine ⟨t, step, completed, fun y x inside => ?_⟩
  obtain ⟨red, green, blue, alpha⟩ := output y x inside
  exact ⟨red.trans (sepiaChannel_toNat ..), green.trans (sepiaChannel_toNat ..),
    blue.trans (sepiaChannel_blue_toNat _), alpha⟩

end Sys2Proof.Machine
end

section
/-! PROOF. The kernel ROM and the FIR passes (spec/41_convolution.md R120, R121, R125, R126, R131, R132): the taps, the
range of a pass result, and constant planes. -/

namespace Sys2Proof.Machine

open Sys2Proof

/-! ## The ROM -/

/-- Settles O39, by evaluating the four kernels of the ROM. -/
theorem kernelsAreNormalised : Obligations.KernelsAreNormalised := by
  intro k
  cases k
  all_goals decide

theorem kernelRom_norm_pos (k : KernelSel) : 0 < (kernelRom k).norm := by
  obtain ⟨-, -, -, -, pos⟩ := kernelsAreNormalised k
  exact pos

theorem kernelRom_taps_sum (k : KernelSel) : (kernelRom k).taps.sum = (kernelRom k).norm := by
  obtain ⟨-, -, -, sum, -⟩ := kernelsAreNormalised k
  exact sum

/-- R121: GAUSS25 has the largest norm. -/
theorem kernelRom_norm_le (k : KernelSel) : (kernelRom k).norm ≤ 65536 := by
  cases k
  all_goals decide

/-! ## The accumulator and the rounded quotient -/

theorem Kernel.accumulate_mono (K : Kernel) {f g : Int → Nat} (h : ∀ v, f v ≤ g v) :
    K.accumulate f ≤ K.accumulate g :=
  List.sum_le_sum fun _ _ => Nat.mul_le_mul_left _ (h _)

theorem Kernel.accumulate_const (K : Kernel) (C : Nat) : K.accumulate (fun _ => C) = K.taps.sum * C := by
  calc K.accumulate (fun _ => C) = (K.taps.zipIdx.map Prod.fst).sum * C := List.sum_map_mul_right ..
    _ = K.taps.sum * C := by rw [List.zipIdx_map_fst]

theorem rdiv_mul_self (C : Nat) {n : Nat} (h : 0 < n) : rdiv (n * C) n = C := by
  have split : 2 * (n * C) + n = n + 2 * n * C := by ring
  rw [rdiv, split, Nat.add_mul_div_left _ _ (by omega), Nat.div_eq_of_lt (by omega), Nat.zero_add]

theorem rdiv_mono {a b : Nat} (n : Nat) (h : a ≤ b) : rdiv a n ≤ rdiv b n :=
  Nat.div_le_div_right (by omega)

/-- R131: the accumulator of bounded samples. -/
theorem accumulate_le (k : KernelSel) {B : Nat} {sample : Int → Nat} (h : ∀ v, sample v ≤ B) :
    (kernelRom k).accumulate sample ≤ (kernelRom k).norm * B := by
  rw [← kernelRom_taps_sum, ← Kernel.accumulate_const]
  exact Kernel.accumulate_mono _ h

/-- R131: an upper bound of the samples bounds the quotient. -/
theorem rdiv_accumulate_le (k : KernelSel) {B : Nat} {sample : Int → Nat} (h : ∀ v, sample v ≤ B) :
    rdiv ((kernelRom k).accumulate sample) (kernelRom k).norm ≤ B :=
  calc rdiv ((kernelRom k).accumulate sample) (kernelRom k).norm
      ≤ rdiv ((kernelRom k).norm * B) (kernelRom k).norm := rdiv_mono _ (accumulate_le k h)
    _ = B := rdiv_mul_self B (kernelRom_norm_pos k)

/-- R132: equal samples are their own quotient. -/
theorem rdiv_accumulate_const (k : KernelSel) {C : Nat} {sample : Int → Nat} (h : ∀ v, sample v = C) :
    rdiv ((kernelRom k).accumulate sample) (kernelRom k).norm = C := by
  rw [funext h, Kernel.accumulate_const, kernelRom_taps_sum, rdiv_mul_self C (kernelRom_norm_pos k)]

/-! ## The passes over bounded and constant planes -/

theorem Plane.get_tabulate_le {W H B : Nat} {f : Nat → Nat → Nat} (h : ∀ y x, f y x ≤ B) (y x : Nat) :
    Plane.get (Plane.tabulate W H f) y x ≤ B := by
  by_cases inside : y < H ∧ x < W
  · rw [Plane.get_tabulate _ _ _ inside.1 inside.2]
    exact h y x
  · rw [Plane.get_tabulate_outside _ _ _ inside]
    exact Nat.zero_le B

theorem passH_le (k : KernelSel) (W H : Nat) {B : Nat} {P : Plane Nat} (h : ∀ y x, Plane.get P y x ≤ B) (y x : Nat) :
    Plane.get (passH (kernelRom k) W H P) y x ≤ B :=
  Plane.get_tabulate_le (fun _ _ => rdiv_accumulate_le k fun _ => h _ _) y x

theorem passV_le (k : KernelSel) (W H : Nat) {B : Nat} {P : Plane Nat} (h : ∀ y x, Plane.get P y x ≤ B) (y x : Nat) :
    Plane.get (passV (kernelRom k) W H P) y x ≤ B :=
  Plane.get_tabulate_le (fun _ _ => rdiv_accumulate_le k fun _ => h _ _) y x

/-- R131: no clamp is needed after either pass. -/
theorem blur2d_le (k : KernelSel) (W H : Nat) {B : Nat} {P : Plane Nat} (h : ∀ y x, Plane.get P y x ≤ B) (y x : Nat) :
    Plane.get (blur2d (kernelRom k) W H P) y x ≤ B :=
  passV_le k W H (passH_le k W H h) y x

/-- Settles O40: samples of at most 255 weigh at most 255 times the sum of the taps, which is the norm. -/
theorem passResultsAreBytes : Obligations.PassResultsAreBytes := by
  intro k W H P bytes
  refine ⟨fun sample h => ?_, fun y x => ⟨passH_le k W H bytes y x, passV_le k W H bytes y x⟩⟩
  have bound := accumulate_le k h
  have norm := kernelRom_norm_le k
  constructor <;> omega

/-- R125: the clamp keeps a sample coordinate inside a line that is not empty. -/
theorem clampIndex_lt (v : Int) {n : Nat} (h : 0 < n) : clampIndex v n < n := by
  unfold clampIndex clamp
  split
  · omega
  · split <;> omega

theorem passH_const (k : KernelSel) {W H C : Nat} {P : Plane Nat}
    (const : ∀ y x, y < H → x < W → Plane.get P y x = C) {y x : Nat} (hy : y < H) (hx : x < W) :
    Plane.get (passH (kernelRom k) W H P) y x = C := by
  rw [passH, Plane.get_tabulate _ _ _ hy hx]
  exact rdiv_accumulate_const k fun _ => const _ _ hy (clampIndex_lt _ (by omega))

theorem passV_const (k : KernelSel) {W H C : Nat} {P : Plane Nat}
    (const : ∀ y x, y < H → x < W → Plane.get P y x = C) {y x : Nat} (hy : y < H) (hx : x < W) :
    Plane.get (passV (kernelRom k) W H P) y x = C := by
  rw [passV, Plane.get_tabulate _ _ _ hy hx]
  exact rdiv_accumulate_const k fun _ => const _ _ (clampIndex_lt _ (by omega)) hx

/-- R132: both passes keep a constant plane. -/
theorem blur2d_const (k : KernelSel) {W H C : Nat} {P : Plane Nat}
    (const : ∀ y x, y < H → x < W → Plane.get P y x = C) {y x : Nat} (hy : y < H) (hx : x < W) :
    Plane.get (blur2d (kernelRom k) W H P) y x = C :=
  passV_const k (fun _ _ => passH_const k const) hy hx

end Sys2Proof.Machine
end

section
/-! PROOF. The BLUR commands (spec/41_convolution.md R125 to R130): the model's passes are those of the reference, and a
command blurs each of the four channels. -/

namespace Sys2Proof.Machine

open Sys2Proof

/-! ## The passes and the reference -/

/-- R121, R124: the taps of the ROM are those of the reference. -/
theorem kernelRom_taps (k : KernelSel) :
    (kernelRom k).taps = (List.range (2 * Ref.radius k + 1)).map (Ref.tap k) := by
  cases k
  all_goals decide

theorem kernelRom_radius (k : KernelSel) : (kernelRom k).radius = Ref.radius k := by
  cases k
  all_goals rfl

theorem kernelRom_norm (k : KernelSel) : (kernelRom k).norm = Ref.norm k := by
  cases k
  all_goals rfl

theorem zipIdx_map_range {α : Type} (f : Nat → α) (n : Nat) :
    ((List.range n).map f).zipIdx = (List.range n).map fun j => (f j, j) :=
  List.ext_getElem (by simp) (by simp)

/-- R125: the accumulator as a sum over the positions of the taps. -/
theorem accumulate_eq_sum (k : KernelSel) (sample : Int → Nat) :
    (kernelRom k).accumulate sample
      = ∑ j ∈ Finset.range (2 * Ref.radius k + 1), Ref.tap k j * sample ((j : Int) - Ref.radius k) := by
  rw [Kernel.accumulate, kernelRom_taps, kernelRom_radius, zipIdx_map_range, List.map_map]
  rfl

theorem clampIndex_eq_edge (v : Int) (n : Nat) : clampIndex v n = Ref.edge v n := by
  unfold clampIndex clamp Ref.edge
  split
  · omega
  · split <;> omega

/-- R125, R126: a pass at position x, over samples that are those of a line of n elements. -/
theorem rdiv_accumulate_eq_fir (k : KernelSel) {n x : Nat} {sample : Int → Nat} {line : Nat → Nat}
    (h : ∀ d : Int, sample d = line (clampIndex (x + d) n)) :
    rdiv ((kernelRom k).accumulate sample) (kernelRom k).norm = Ref.fir k n line x := by
  rw [funext h, accumulate_eq_sum, kernelRom_norm]
  simp only [clampIndex_eq_edge, ← add_sub_assoc]
  rfl

/-- R126: the blur of a plane that agrees with `Q` inside the image. -/
theorem blur2d_eq_blur (k : KernelSel) {W H : Nat} {P : Plane Nat} {Q : Ref.Img}
    (agree : ∀ y x, y < H → x < W → Plane.get P y x = Q y x) {y x : Nat} (hy : y < H) (hx : x < W) :
    Plane.get (blur2d (kernelRom k) W H P) y x = Ref.blur k W H Q y x := by
  rw [blur2d, passV, Plane.get_tabulate _ _ _ hy hx]
  refine rdiv_accumulate_eq_fir k fun dy => ?_
  have row := clampIndex_lt (y + dy) (n := H) (by omega)
  rw [passH, Plane.get_tabulate _ _ _ row hx]
  exact rdiv_accumulate_eq_fir k fun dx => agree _ _ row (clampIndex_lt _ (by omega))

/-! ## A BLUR command that runs -/

theorem channelPlane_le (W H : Nat) (img : Plane Pixel) (c y x : Nat) :
    Plane.get (channelPlane W H img c) y x ≤ 255 :=
  Plane.get_tabulate_le (fun _ _ => Nat.le_of_lt_succ (BitVec.isLt _)) y x

/-- R62: a channel of the input planes is the input bytes of that channel. -/
theorem channelPlane_inputPlane (s : State) {y x c : Nat} (hy : y < s.latched.h.toNat) (hx : x < s.latched.w.toNat)
    (hc : c < 4) :
    Plane.get (channelPlane s.latched.w.toNat s.latched.h.toNat s.inputPlane c) y x = Ref.input s c y x := by
  rw [channelPlane, Plane.get_tabulate _ _ _ hy hx, s.inputPlane_get hy hx, s.inputPixel_channel y x c hc]
  rfl

/-- R127: each channel of the output, alpha included, is the blur of that channel of the input; its values fit a byte. -/
theorem blurImage_channel (k : KernelSel) {W H : Nat} (img : Plane Pixel) {y x c : Nat} (hy : y < H) (hx : x < W)
    (hc : c < 4) :
    ((Plane.get (blurImage (kernelRom k) W H img).out y x).channel c).toNat
      = Plane.get (blur2d (kernelRom k) W H (channelPlane W H img c)) y x := by
  have byte (c : Nat) : (BitVec.ofNat 8 (Plane.get (blur2d (kernelRom k) W H (channelPlane W H img c)) y x)).toNat
      = Plane.get (blur2d (kernelRom k) W H (channelPlane W H img c)) y x := by
    have bound := blur2d_le k W H (channelPlane_le W H img c) y x
    rw [BitVec.toNat_ofNat, Nat.mod_eq_of_lt (by omega)]
  rw [blurImage, Plane.get_tabulate _ _ _ hy hx]
  match c, hc with
  | 0, _ => exact byte 0
  | 1, _ => exact byte 1
  | 2, _ => exact byte 2
  | 3, _ => exact byte 3

/-- R127: what a BLUR command leaves behind. -/
theorem exec_blur {i : Instr} {k : KernelSel} {s : State} (rule : workOf i s.latched = blurImage (kernelRom k))
    (runs : Ref.runs i s) :
    ∃ t, exec i s = .next t ∧ Ref.completed i s t 0
      ∧ ∀ y x c, Ref.inImage s y x → c < 4 →
          Ref.output s t c y x
            = Plane.get (blur2d (kernelRom k) s.latched.w.toNat s.latched.h.toNat
                (channelPlane s.latched.w.toNat s.latched.h.toNat s.inputPlane c)) y x := by
  obtain ⟨t, step, completed, output⟩ := exec_runs runs rfl (by rw [rule]; exact Nat.two_pow_pos 32)
  rw [rule] at completed output
  refine ⟨t, step, completed, fun y x c inside hc => ?_⟩
  obtain ⟨hy, hx⟩ := inside
  rw [output y x c ⟨hy, hx⟩ hc, blurImage_channel k _ hy hx hc]

/-! ## The commands -/

/-- R127 to R130: a command of OP 3 with the kernel `k`. -/
theorem blur_command {i : Instr} {k : KernelSel} (command : i.isReserved = false) (mask : i.readMask = 0x0CF#12)
    (rule : ∀ l, workOf i l = blurImage (kernelRom k)) :
    (∀ w : CmdWord, decode w = i ↔ w &&& 0x0CF#12 = encode i)
    ∧ (∀ p l, check i p l ≠ .config)
    ∧ ∀ s : State, Ref.runs i s →
        ∃ t, exec i s = .next t ∧ Ref.completed i s t 0
          ∧ ∀ y x c, Ref.inImage s y x → c < 4 →
              Ref.output s t c y x = Ref.blur k s.latched.w.toNat s.latched.h.toNat (Ref.input s c) y x := by
  refine ⟨fun w => mask ▸ decode_eq_iff w i, check_ne_config command, fun s runs => ?_⟩
  obtain ⟨t, step, completed, output⟩ := exec_blur (rule s.latched) runs
  refine ⟨t, step, completed, fun y x c inside hc => ?_⟩
  obtain ⟨hy, hx⟩ := inside
  rw [output y x c ⟨hy, hx⟩ hc]
  exact blur2d_eq_blur k (fun _ _ hv hu => channelPlane_inputPlane s hv hu hc) hy hx

/-- Settles O38: the four commands differ in their kernel and in KSEL alone. -/
theorem blurConvolvesChannels : Obligations.BlurConvolvesChannels := by
  intro row hrow
  simp only [List.mem_cons, List.not_mem_nil, or_false] at hrow
  rcases hrow with rfl | rfl | rfl | rfl
  all_goals exact blur_command rfl rfl fun _ => rfl

/-- R121: each BLUR command blurs with one kernel of the ROM. -/
theorem workOf_blur {i : Instr} (h : i ∈ [Instr.blurG25, .blurB7, .blurB5, .blurB3]) (l : ConfigRegs) :
    ∃ k, workOf i l = blurImage (kernelRom k) := by
  simp only [List.mem_cons, List.not_mem_nil, or_false] at h
  rcases h with rfl | rfl | rfl | rfl
  all_goals exact ⟨_, rfl⟩

/-- Settles O41: equal samples are their own rounded quotient, so each pass keeps a constant plane, and a BLUR command runs
both passes on each channel. -/
theorem constantPlaneIsFixed : Obligations.ConstantPlaneIsFixed := by
  refine ⟨fun k W H C P const y x hy hx => blur2d_const k const hy hx, fun i hi s C runs const => ?_⟩
  obtain ⟨k, rule⟩ := workOf_blur hi s.latched
  obtain ⟨t, step, -, output⟩ := exec_blur rule runs
  refine ⟨t, step, fun y x c inside hc => ?_⟩
  obtain ⟨hy, hx⟩ := inside
  rw [output y x c ⟨hy, hx⟩ hc]
  exact blur2d_const k (fun v u hv hu => (channelPlane_inputPlane s hv hu hc).trans (const v u c ⟨hv, hu⟩ hc)) hy hx

end Sys2Proof.Machine
end

section
/-! PROOF. The gradient field (spec/42_gradient.md R140 to R143): its value inside and at the border, and the range of Gx, Gy
and S over u8 samples. -/

namespace Sys2Proof.Machine

open Sys2Proof

/-- R143: the sum of squares is not negative, so nothing is lost in `toNat`. -/
theorem squaredMagnitude_cast (gx gy : Int) : (squaredMagnitude gx gy : Int) = gx ^ 2 + gy ^ 2 := by
  rw [squaredMagnitude, Int.toNat_of_nonneg (add_nonneg (mul_self_nonneg gx) (mul_self_nonneg gy))]
  ring

/-- R142: over u8 samples each component fits s12, and a corner sample adds to one component what it takes from the room of
the other: |Gx| + |Gy| is at most 6 · 255. -/
theorem sobel_bounds {p1 p2 p3 p4 p6 p7 p8 p9 : Int} (h1 : 0 ≤ p1 ∧ p1 ≤ 255) (h2 : 0 ≤ p2 ∧ p2 ≤ 255)
    (h3 : 0 ≤ p3 ∧ p3 ≤ 255) (h4 : 0 ≤ p4 ∧ p4 ≤ 255) (h6 : 0 ≤ p6 ∧ p6 ≤ 255) (h7 : 0 ≤ p7 ∧ p7 ≤ 255)
    (h8 : 0 ≤ p8 ∧ p8 ≤ 255) (h9 : 0 ≤ p9 ∧ p9 ≤ 255) :
    |sobelX p1 p3 p4 p6 p7 p9| ≤ 1020 ∧ |sobelY p1 p2 p3 p7 p8 p9| ≤ 1020
      ∧ |sobelX p1 p3 p4 p6 p7 p9| + |sobelY p1 p2 p3 p7 p8 p9| ≤ 1530 := by
  unfold sobelX sobelY
  simp only [Int.abs_eq_natAbs]
  omega

/-- R143: the convex sum of squares is largest at a corner of the region that `sobel_bounds` leaves. -/
theorem sq_add_sq_le {a b : Int} (ha : 0 ≤ a) (hb : 0 ≤ b) (ha' : a ≤ 1020) (hb' : b ≤ 1020) (sum : a + b ≤ 1530) :
    a ^ 2 + b ^ 2 ≤ 1300500 := by
  rcases le_total a 510 with ha'' | ha''
  · nlinarith
  · rcases le_total b 510 with hb'' | hb''
    · nlinarith
    · nlinarith [mul_nonneg (sub_nonneg.2 ha'') (sub_nonneg.2 hb'')]

/-- R140, R143: what the widths of the field say of one cell. -/
def GradCell.fits (c : GradCell) : Prop :=
  |c.gx| ≤ 1020 ∧ |c.gy| ≤ 1020 ∧ (c.s : Int) = c.gx ^ 2 + c.gy ^ 2 ∧ c.s ≤ 1300500

theorem GradCell.border_fits : GradCell.border.fits := by
  unfold GradCell.fits GradCell.border
  decide

theorem gradInterior_fits {Q : Plane Nat} (u8 : ∀ y x, Plane.get Q y x ≤ 255) (y x : Nat) :
    (gradInterior Q y x).fits := by
  have sample (v u : Nat) : 0 ≤ ((Plane.get Q v u : Nat) : Int) ∧ ((Plane.get Q v u : Nat) : Int) ≤ 255 :=
    ⟨Int.natCast_nonneg _, mod_cast u8 v u⟩
  have square := squaredMagnitude_cast (gradInterior Q y x).gx (gradInterior Q y x).gy
  obtain ⟨hx, hy, sum⟩ := sobel_bounds (sample (y - 1) (x - 1)) (sample (y - 1) x) (sample (y - 1) (x + 1))
    (sample y (x - 1)) (sample y (x + 1)) (sample (y + 1) (x - 1)) (sample (y + 1) x) (sample (y + 1) (x + 1))
  have largest := sq_add_sq_le (abs_nonneg _) (abs_nonneg _) hx hy sum
  rw [sq_abs, sq_abs] at largest
  exact ⟨hx, hy, square, by exact_mod_cast square.trans_le largest⟩

/-- R140: a cell of the gradient field. -/
theorem gradient_get (W H : Nat) (Q : Plane Nat) {y x : Nat} (hy : y < H) (hx : x < W) :
    Plane.get (gradient W H Q) y x = if interior W H y x then gradInterior Q y x else GradCell.border :=
  Plane.get_tabulate _ _ _ hy hx

/-- The neighbourhood of R147's row Gx = 510, Gy = 1020: p6 to p9 are 255, the rest 0. -/
def steepestCorner : Plane Nat := [[0, 0, 0], [0, 0, 255], [255, 255, 255]]

theorem steepestCorner_le (y x : Nat) : Plane.get steepestCorner y x ≤ 255 := by
  have : steepestCorner = Plane.tabulate 3 3 fun y x => if y = 2 ∨ y = 1 ∧ x = 2 then 255 else 0 := by decide
  rw [this]
  refine Plane.get_tabulate_le (fun y x => ?_) y x
  split <;> omega

/-- Settles O42: inside, the bounds of the Sobel components and of their squares; at the border, zeros; and R147's
neighbourhood reaches the largest S. -/
theorem gradientFitsItsWidths : Obligations.GradientFitsItsWidths := by
  refine ⟨fun W H Q u8 y x hy hx => ?_, steepestCorner, steepestCorner_le, by decide⟩
  have fits : (Plane.get (gradient W H Q) y x).fits := by
    rw [gradient_get W H Q hy hx]
    split
    · exact gradInterior_fits u8 y x
    · exact GradCell.border_fits
  obtain ⟨hgx, hgy, square, largest⟩ := fits
  obtain ⟨hgx, hgx'⟩ := abs_le.1 hgx
  obtain ⟨hgy, hgy'⟩ := abs_le.1 hgy
  refine ⟨hgx', hgx, hgy', hgy, square, largest, fun outside => ?_⟩
  rw [gradient_get W H Q hy hx, outside]
  exact ⟨rfl, rfl, rfl, rfl⟩

end Sys2Proof.Machine
end

section
/-! PROOF. The folded angle of a vector (spec/42_gradient.md R145): off the horizontal axis it is π/2 − arctan (x/y), so each
cut of the angle is a cut of the quotient x/y. -/

namespace Sys2Proof.Machine

open Sys2Proof

/-! ## The boundaries -/

/-- R145: tan 22.5° = √2 − 1. -/
theorem arctan_sqrt_two_sub_one : Real.arctan (√2 - 1) = Real.pi / 8 := by
  have root : √2 ^ 2 = 2 := Real.sq_sqrt zero_le_two
  have low : 1 < √2 := Real.one_lt_sqrt_two
  have double := Real.two_mul_arctan (x := √2 - 1) (by linarith) (by nlinarith)
  have one : 2 * (√2 - 1) / (1 - (√2 - 1) ^ 2) = 1 := by
    rw [div_eq_one_iff_eq (by nlinarith)]
    linarith
  rw [one, Real.arctan_one] at double
  linarith

/-- R145: tan 67.5° = √2 + 1, the inverse of tan 22.5°. -/
theorem arctan_sqrt_two_add_one : Real.arctan (√2 + 1) = 3 * (Real.pi / 8) := by
  have root : √2 ^ 2 = 2 := Real.sq_sqrt zero_le_two
  have inverse : √2 + 1 = (√2 - 1)⁻¹ := eq_inv_of_mul_eq_one_left (by linarith)
  rw [inverse, Real.arctan_inv_of_pos (sub_pos.2 Real.one_lt_sqrt_two), arctan_sqrt_two_sub_one]
  ring

/-! ## The folded angle -/

theorem arg_of_polar {r θ x y : ℝ} (hr : 0 < r) (hθ : θ ∈ Set.Ioc (-Real.pi) Real.pi) (hx : r * Real.cos θ = x)
    (hy : r * Real.sin θ = y) : Complex.arg ⟨x, y⟩ = θ := by
  have polar : (⟨x, y⟩ : ℂ) = r * (Complex.cos θ + Complex.sin θ * Complex.I) := by
    apply Complex.ext
    · simpa [Complex.cos_ofReal_re, Complex.sin_ofReal_im] using hx.symm
    · simpa [Complex.cos_ofReal_im, Complex.sin_ofReal_re] using hy.symm
  rw [polar, Complex.arg_mul_cos_add_sin_mul_I hr hθ]

/-- The polar form of a vector above the axis has r = y √(1 + (x/y)²). -/
theorem arg_eq_of_im_pos (x : ℝ) {y : ℝ} (hy : 0 < y) : Complex.arg ⟨x, y⟩ = Real.pi / 2 - Real.arctan (x / y) := by
  have low := Real.neg_pi_div_two_lt_arctan (x / y)
  have high := Real.arctan_lt_pi_div_two (x / y)
  have root : 0 < √(1 + (x / y) ^ 2) := by positivity
  refine arg_of_polar (mul_pos hy root) ⟨by linarith, by linarith⟩ ?_ ?_
  · rw [Real.cos_pi_div_two_sub, Real.sin_arctan]
    field_simp
  · rw [Real.sin_pi_div_two_sub, Real.cos_arctan]
    field_simp

/-- R145: an angle in (−π, π] folded into [0, π). -/
noncomputable def foldAngle (θ : ℝ) : ℝ := if θ < 0 then θ + Real.pi else if θ = Real.pi then 0 else θ

/-- A vector below the axis folds to the angle of its opposite, and both have the same quotient. -/
theorem foldAngle_arg (x : ℝ) {y : ℝ} (hy : y ≠ 0) :
    foldAngle (Complex.arg ⟨x, y⟩) = Real.pi / 2 - Real.arctan (x / y) := by
  unfold foldAngle
  rcases hy.lt_or_gt with below | above
  · have opposite := Complex.arg_neg_eq_arg_add_pi_of_im_neg (x := ⟨x, y⟩) below
    rw [if_pos (Complex.arg_neg_iff.2 below), ← opposite, ← neg_div_neg_eq x y]
    exact arg_eq_of_im_pos (-x) (neg_pos.2 below)
  · have bent : Complex.arg ⟨x, y⟩ ≠ Real.pi := fun straight => hy (Complex.arg_eq_pi_iff.1 straight).2
    rw [if_neg (Complex.arg_nonneg_iff.2 above.le).not_gt, if_neg bent, arg_eq_of_im_pos x above]

theorem foldAngle_arg_of_im_eq_zero (x : ℝ) {y : ℝ} (hy : y = 0) : foldAngle (Complex.arg ⟨x, y⟩) = 0 := by
  unfold foldAngle
  rw [if_neg (Complex.arg_nonneg_iff.2 hy.ge).not_gt]
  split
  case isTrue => rfl
  case isFalse bent =>
    exact Complex.arg_eq_zero_iff.2 ⟨not_lt.1 fun left => bent (Complex.arg_eq_pi_iff.2 ⟨left, hy⟩), hy⟩

/-- The quotient x/y is the cotangent of the folded angle, which falls as the angle grows. -/
theorem foldAngle_arg_lt_iff (x : ℝ) {y c α : ℝ} (hy : y ≠ 0) (cut : Real.arctan c = Real.pi / 2 - α) :
    foldAngle (Complex.arg ⟨x, y⟩) < α ↔ c < x / y := by
  rw [foldAngle_arg x hy, sub_lt_comm, ← cut, Real.arctan_lt_arctan_iff]

end Sys2Proof.Machine
end

section
/-! PROOF. The direction quantizer (spec/42_gradient.md R145): its integer tests are cuts of the quotient Gx/Gy at ±(√2 ± 1),
which are those of the folded angle. -/

namespace Sys2Proof.Machine

open Sys2Proof

/-! ## The integer tests as cuts of the quotient -/

/-- The test of class 0, for a = |Gx| and b = |Gy|. -/
theorem add_sq_lt_iff {a b : ℝ} (ha : 0 ≤ a) (hb : 0 < b) : (a + b) ^ 2 < 2 * a ^ 2 ↔ √2 + 1 < a / b := by
  have root : √2 ^ 2 = 2 := Real.sq_sqrt zero_le_two
  have low : 1 < √2 := Real.one_lt_sqrt_two
  calc (a + b) ^ 2 < 2 * a ^ 2
      ↔ (a + b) ^ 2 < (√2 * a) ^ 2 := by rw [mul_pow, root]
    _ ↔ a + b < √2 * a := pow_lt_pow_iff_left₀ (by positivity) (by positivity) two_ne_zero
    _ ↔ (√2 + 1) * b < a := by constructor <;> intro h <;> nlinarith
    _ ↔ √2 + 1 < a / b := (lt_div_iff₀ hb).symm

/-- The test of class 90. -/
theorem le_and_le_sub_sq_iff {a b : ℝ} (ha : 0 ≤ a) (hb : 0 < b) : a ≤ b ∧ 2 * a ^ 2 ≤ (b - a) ^ 2 ↔ a / b ≤ √2 - 1 := by
  have root : √2 ^ 2 = 2 := Real.sq_sqrt zero_le_two
  have low : 1 < √2 := Real.one_lt_sqrt_two
  calc a ≤ b ∧ 2 * a ^ 2 ≤ (b - a) ^ 2
      ↔ 0 ≤ b - a ∧ (√2 * a) ^ 2 ≤ (b - a) ^ 2 := by rw [mul_pow, root, sub_nonneg]
    _ ↔ 0 ≤ b - a ∧ √2 * a ≤ b - a :=
      and_congr_right fun le => pow_le_pow_iff_left₀ (by positivity) le two_ne_zero
    _ ↔ √2 * a ≤ b - a := and_iff_right_of_imp (le_trans (by positivity))
    _ ↔ a ≤ (√2 - 1) * b := by constructor <;> intro h <;> nlinarith
    _ ↔ a / b ≤ √2 - 1 := (div_le_iff₀ hb).symm

/-- R145: the quantizer off the horizontal axis, its tests read on the quotient Gx/Gy. -/
theorem qdir_eq_cuts {gx gy : Int} (h : gy ≠ 0) :
    qdir gx gy = if √2 + 1 < |(gx : ℝ) / gy| then .d0 else if |(gx : ℝ) / gy| ≤ √2 - 1 then .d90
      else if 0 < (gx : ℝ) / gy then .d45 else .d135 := by
  have pos : 0 < |(gy : ℝ)| := abs_pos.2 (mod_cast h)
  have nonzero : ¬((gx.natAbs : Int) = 0 ∧ (gy.natAbs : Int) = 0) := by omega
  have flat : ((gx.natAbs : Int) + gy.natAbs) ^ 2 < 2 * (gx.natAbs : Int) ^ 2 ↔ √2 + 1 < |(gx : ℝ) / gy| := by
    rw [abs_div, ← add_sq_lt_iff (abs_nonneg _) pos, Int.natCast_natAbs, Int.natCast_natAbs]
    exact_mod_cast Iff.rfl
  have steep : ((gy.natAbs : Int) ≥ gx.natAbs ∧ ((gy.natAbs : Int) - gx.natAbs) ^ 2 ≥ 2 * (gx.natAbs : Int) ^ 2)
      ↔ |(gx : ℝ) / gy| ≤ √2 - 1 := by
    rw [abs_div, ← le_and_le_sub_sq_iff (abs_nonneg _) pos, Int.natCast_natAbs, Int.natCast_natAbs]
    exact_mod_cast Iff.rfl
  have same : gx * gy > 0 ↔ 0 < (gx : ℝ) / gy := by
    rw [gt_iff_lt, mul_pos_iff, div_pos_iff]
    exact_mod_cast Iff.rfl
  simp only [qdir, if_neg nonzero, flat, steep, same]

/-- R145: a horizontal vector, zero included, is of class 0. -/
theorem qdir_zero (gx : Int) : qdir gx 0 = .d0 := by
  by_cases h : gx = 0
  · rw [h]
    rfl
  · have flat : ((gx.natAbs : Int) + (0 : Int).natAbs) ^ 2 < 2 * (gx.natAbs : Int) ^ 2 := by
      have pos : 0 < (gx.natAbs : Int) := by omega
      rw [Int.natAbs_zero, Nat.cast_zero, add_zero]
      nlinarith
    simp only [qdir, if_pos flat, ite_self]

/-! ## The classes as intervals -/

theorem intCast_div_ne_of_irrational {r : ℝ} (irrational : Irrational r) (m n : Int) : (m : ℝ) / n ≠ r := by
  rintro rfl
  exact irrational ⟨m / n, by push_cast; rfl⟩

/-- R145: the classes as intervals of the quotient Gx/Gy. The tests on its absolute value treat both signs alike, where the
table's intervals are closed at one end only; the quotient is rational and the boundaries are not, so no end matters. -/
theorem qdir_eq_iff {gx gy : Int} (h : gy ≠ 0) :
    (qdir gx gy = .d0 ↔ √2 + 1 < (gx : ℝ) / gy ∨ (gx : ℝ) / gy ≤ -(√2 + 1))
      ∧ (qdir gx gy = .d45 ↔ (gx : ℝ) / gy ≤ √2 + 1 ∧ √2 - 1 < (gx : ℝ) / gy)
      ∧ (qdir gx gy = .d90 ↔ (gx : ℝ) / gy ≤ √2 - 1 ∧ -(√2 - 1) < (gx : ℝ) / gy)
      ∧ (qdir gx gy = .d135 ↔ (gx : ℝ) / gy ≤ -(√2 - 1) ∧ -(√2 + 1) < (gx : ℝ) / gy) := by
  have outer := intCast_div_ne_of_irrational (irrational_sqrt_two.add_natCast 1).neg gx gy
  have inner := intCast_div_ne_of_irrational (irrational_sqrt_two.sub_natCast 1).neg gx gy
  have low := Real.one_lt_sqrt_two
  rw [Nat.cast_one] at outer inner
  rw [qdir_eq_cuts h]
  generalize (gx : ℝ) / gy = q at *
  simp only [lt_abs, abs_le]
  split_ifs with flat steep same
  · grind
  · grind
  · grind
  · grind

/-- Settles O43: on the axis the folded angle is 0 and the class is 0; off it, the cuts of the angle and the tests of the
quantizer are the same cuts of Gx/Gy. -/
theorem quantizerIsAtan2 : Obligations.QuantizerIsAtan2 := by
  intro gx gy θ φ u
  by_cases h : gy = 0
  · have hφ : φ = 0 := foldAngle_arg_of_im_eq_zero gx (by rw [h, Int.cast_zero])
    have hu : 0 < u := div_pos Real.pi_pos (by norm_num)
    rw [h, qdir_zero, hφ]
    refine ⟨iff_of_true rfl (.inl hu), iff_of_false nofun fun cut => ?_, iff_of_false nofun fun cut => ?_,
      iff_of_false nofun fun cut => ?_⟩
    all_goals linarith [cut.1]
  · have hy : (gy : ℝ) ≠ 0 := mod_cast h
    have cut (c α : ℝ) (tan : Real.arctan c = Real.pi / 2 - α) : φ < α ↔ c < (gx : ℝ) / gy :=
      foldAngle_arg_lt_iff gx hy tan
    have cut1 := cut (√2 + 1) u (by rw [arctan_sqrt_two_add_one]; ring)
    have cut3 := cut (√2 - 1) (3 * u) (by rw [arctan_sqrt_two_sub_one]; ring)
    have cut5 := cut (-(√2 - 1)) (5 * u) (by rw [Real.arctan_neg, arctan_sqrt_two_sub_one]; ring)
    have cut7 := cut (-(√2 + 1)) (7 * u) (by rw [Real.arctan_neg, arctan_sqrt_two_add_one]; ring)
    have classes := qdir_eq_iff h (gx := gx)
    simpa only [← not_lt, cut1, cut3, cut5, cut7] using classes

end Sys2Proof.Machine
end

section
/-! PROOF. The threshold of SOBEL.P (spec/43_sobel.md R162): a position of a sorted list bounds the number of elements
below its element and at or below it, and the list of magnitudes counts the interior pixels. -/

namespace Sys2Proof.Machine

open Sys2Proof

/-! ## Order statistics of a sorted list -/

/-- No element from position i on lies below the one at i. -/
theorem countP_lt_getElem_le {l : List Nat} (sorted : l.Pairwise (· ≤ ·)) {i : Nat} (hi : i < l.length) :
    l.countP (· < l[i]) ≤ i := by
  have upper : (l.drop i).countP (· < l[i]) = 0 := by
    rw [List.countP_eq_zero]
    intro m hm
    rw [List.drop_eq_getElem_cons hi] at hm
    have tail := (List.pairwise_cons.1 (List.drop_eq_getElem_cons hi ▸ sorted.drop)).1
    rcases List.mem_cons.1 hm with rfl | hm
    · simp
    · simpa using tail m hm
  calc l.countP (· < l[i]) = (l.take i).countP (· < l[i]) + (l.drop i).countP (· < l[i]) := by
        rw [← List.countP_append, List.take_append_drop]
    _ ≤ i := by
        rw [upper]
        exact List.countP_le_length.trans (List.length_take_le i l)

/-- Every element up to position i is at most the one at i. -/
theorem lt_countP_le_getElem {l : List Nat} (sorted : l.Pairwise (· ≤ ·)) {i : Nat} (hi : i < l.length) :
    i < l.countP (· ≤ l[i]) := by
  have lower : (l.take (i + 1)).countP (· ≤ l[i]) = i + 1 := by
    have length : (l.take (i + 1)).length = i + 1 := List.length_take_of_le hi
    refine (List.countP_eq_length.2 fun m hm => ?_).trans length
    obtain ⟨j, hj, rfl⟩ := List.mem_take_iff_getElem.1 hm
    exact decide_eq_true (sorted.rel_get_of_le (a := ⟨j, by omega⟩) (b := ⟨i, hi⟩) (Fin.mk_le_mk.2 (by omega)))
  have := (List.take_sublist (i + 1) l).countP_le (p := (· ≤ l[i]))
  omega

/-- R162: the index of the threshold is a valid one. -/
theorem percentileThreshold_eq_getElem {mags : List Nat} (p : Nat) (h : 0 < mags.length) :
    ∃ hi : min (mags.length * p / 10000) (mags.length - 1) < (mags.insertionSort (· ≤ ·)).length,
      percentileThreshold mags p = (mags.insertionSort (· ≤ ·))[min (mags.length * p / 10000) (mags.length - 1)] := by
  have hi : min (mags.length * p / 10000) (mags.length - 1) < (mags.insertionSort (· ≤ ·)).length := by
    rw [List.length_insertionSort]
    omega
  refine ⟨hi, ?_⟩
  rw [percentileThreshold, if_neg (by omega), List.getD_eq_getElem _ _ hi]

/-- R162: the threshold is the (idx+1)-th smallest value, counted with multiplicity. -/
theorem percentileThreshold_orderStatistic {mags : List Nat} (p : Nat) (h : 0 < mags.length) :
    mags.countP (· < percentileThreshold mags p) ≤ min (mags.length * p / 10000) (mags.length - 1)
      ∧ min (mags.length * p / 10000) (mags.length - 1) < mags.countP (· ≤ percentileThreshold mags p) := by
  obtain ⟨hi, thr⟩ := percentileThreshold_eq_getElem p h
  have sorted := List.pairwise_insertionSort (· ≤ ·) mags
  have count (q : Nat → Bool) := (List.perm_insertionSort (· ≤ ·) mags).countP_eq q
  rw [← count, ← count, thr]
  exact ⟨countP_lt_getElem_le sorted hi, lt_countP_le_getElem sorted hi⟩

/-- R162: the threshold is one of the values, or 0, so an upper bound of the values bounds it. -/
theorem percentileThreshold_le {mags : List Nat} {B : Nat} (h : ∀ m ∈ mags, m ≤ B) (p : Nat) :
    percentileThreshold mags p ≤ B := by
  rcases Nat.eq_zero_or_pos mags.length with empty | nonempty
  · rw [percentileThreshold, if_pos empty]
    exact Nat.zero_le B
  · obtain ⟨hi, thr⟩ := percentileThreshold_eq_getElem p nonempty
    rw [thr]
    exact h _ ((List.mem_insertionSort (· ≤ ·)).1 (List.getElem_mem hi))

/-! ## The interior pixels -/

theorem interior_iff (W H y x : Nat) : interior W H y x = true ↔ Ref.isInterior W H y x := by
  simp [interior, Ref.isInterior, and_assoc]

/-- R162: `mags` lists S over the interior pixels of the image. -/
theorem interiorMagnitudes_eq_map (W H : Nat) (S : Plane Nat) :
    interiorMagnitudes W H S
      = ((List.range H ×ˢ List.range W).filter fun q => interior W H q.1 q.2).map fun q => Plane.get S q.1 q.2 := by
  simp [interiorMagnitudes, List.product, SProd.sprod, List.filter_flatMap, List.map_flatMap, List.filter_map,
    Function.comp_def]

open Classical in
/-- 00_scope.md R13: the interior pixels of a W×H image, as (row, column). -/
noncomputable def interiorPixels (W H : Nat) : Finset (Nat × Nat) :=
  (Finset.range H ×ˢ Finset.range W).filter fun q => Ref.isInterior W H q.1 q.2

theorem mem_interiorPixels {W H : Nat} {q : Nat × Nat} :
    q ∈ interiorPixels W H ↔ (q.1 < H ∧ q.2 < W) ∧ Ref.isInterior W H q.1 q.2 := by
  simp [interiorPixels]

/-- R162: the interior is a rectangle, two rows and two columns smaller than the image. -/
theorem card_interiorPixels (W H : Nat) : (interiorPixels W H).card = (W - 2) * (H - 2) := by
  have rectangle : interiorPixels W H = Finset.Ico 1 (H - 1) ×ˢ Finset.Ico 1 (W - 1) := by
    ext ⟨y, x⟩
    rw [mem_interiorPixels, Ref.isInterior, Finset.mem_product, Finset.mem_Ico, Finset.mem_Ico]
    omega
  rw [rectangle, Finset.card_product, Nat.card_Ico, Nat.card_Ico, Nat.mul_comm]
  rfl

/-- R162: counting in `mags` is counting interior pixels. -/
theorem countP_interiorMagnitudes (W H : Nat) (S : Plane Nat) (p : Nat → Prop) [DecidablePred p] :
    (interiorMagnitudes W H S).countP (p ·) = ((interiorPixels W H).filter fun q => p (Plane.get S q.1 q.2)).card := by
  have image : (Finset.range H ×ˢ Finset.range W).val = ↑(List.range H ×ˢ List.range W) := Multiset.coe_product _ _
  rw [interiorMagnitudes_eq_map, List.countP_map, List.countP_filter, interiorPixels, Finset.filter_filter, Finset.card,
    Finset.filter_val, image, ← Multiset.countP_eq_card_filter, Multiset.coe_countP]
  simp only [← interior_iff, Function.comp_apply, Bool.decide_and, Bool.decide_eq_true, Bool.and_comm]

theorem length_interiorMagnitudes (W H : Nat) (S : Plane Nat) :
    (interiorMagnitudes W H S).length = (W - 2) * (H - 2) := by
  have all := countP_interiorMagnitudes W H S fun _ => True
  simpa [card_interiorPixels] using all

/-- Settles O44: the order statistic of the list of magnitudes, its counts read as counts of interior pixels. -/
theorem percentileThresholdIsOrderStatistic : Obligations.PercentileThresholdIsOrderStatistic := by
  intro W H pct S thr inside count idx
  have length : (interiorMagnitudes W H S).length = count := length_interiorMagnitudes W H S
  refine ⟨card_interiorPixels W H, fun empty => if_pos (length.trans empty), fun nonempty => ?_⟩
  have statistic := percentileThreshold_orderStatistic pct (length ▸ nonempty)
  rw [length, countP_interiorMagnitudes, countP_interiorMagnitudes] at statistic
  exact statistic

end Sys2Proof.Machine
end

section
/-! PROOF. The SOBEL commands (spec/43_sobel.md R160 to R164): the model's S plane is that of the reference, and the two
modes differ in the threshold and in the border pixel. -/

namespace Sys2Proof.Machine

open Sys2Proof

/-! ## The magnitudes and the reference -/

theorem Plane.tabulate_congr {α : Type} {W H : Nat} {f g : Nat → Nat → α}
    (h : ∀ y x, y < H → x < W → f y x = g y x) : Plane.tabulate W H f = Plane.tabulate W H g :=
  List.map_congr_left fun y hy => List.map_congr_left fun x hx => h y x (List.mem_range.1 hy) (List.mem_range.1 hx)

/-- R103: the luma plane of the input. -/
theorem lumaPlane_inputPlane (s : State) {y x : Nat} (hy : y < s.latched.h.toNat) (hx : x < s.latched.w.toNat) :
    Plane.get (lumaPlane s.latched.w.toNat s.latched.h.toNat s.inputPlane) y x = Ref.luma s y x := by
  rw [lumaPlane, Plane.get_tabulate _ _ _ hy hx, s.inputPlane_get hy hx]
  exact lumaI_eq_div ..

/-- R103: the luma of an image fits a byte. -/
theorem lumaPlane_le (W H : Nat) (img : Plane Pixel) (y x : Nat) : Plane.get (lumaPlane W H img) y x ≤ 255 :=
  Plane.get_tabulate_le (fun _ _ => Nat.le_of_lt_succ (lumaI_lt ..)) y x

/-- R141, R142: the Sobel components at an interior pixel of a plane that agrees with `Q` inside the image. -/
theorem gradInterior_components {W H : Nat} {P : Plane Nat} {Q : Ref.Img}
    (agree : ∀ y x, y < H → x < W → Plane.get P y x = Q y x) {y x : Nat} (inside : Ref.isInterior W H y x) :
    (gradInterior P y x).gx = Ref.gx Q y x ∧ (gradInterior P y x).gy = Ref.gy Q y x := by
  obtain ⟨left, right, top, bottom⟩ := inside
  have sample (v u : Nat) (hv : v ≤ y + 1) (hu : u ≤ x + 1) : Plane.get P v u = Q v u :=
    agree v u (by omega) (by omega)
  constructor
  · simp (disch := omega) only [gradInterior, sobelX, Ref.gx, sample]
  · simp (disch := omega) only [gradInterior, sobelY, Ref.gy, sample]

/-- R143: the squared magnitude as the reference squares it. -/
theorem squaredMagnitude_eq_natAbs (gx gy : Int) : squaredMagnitude gx gy = gx.natAbs ^ 2 + gy.natAbs ^ 2 := by
  zify
  rw [squaredMagnitude_cast, sq_abs, sq_abs]

/-- R140, R143: the S plane of the gradient of a plane that agrees with `Q` inside the image. -/
theorem magnitudePlane_gradient {W H : Nat} {P : Plane Nat} {Q : Ref.Img}
    (agree : ∀ y x, y < H → x < W → Plane.get P y x = Q y x) :
    magnitudePlane W H (gradient W H P) = Plane.tabulate W H (Ref.mag W H Q) := by
  refine Plane.tabulate_congr fun y x hy hx => ?_
  rw [gradient_get W H P hy hx, Ref.mag]
  by_cases inside : Ref.isInterior W H y x
  · obtain ⟨gx, gy⟩ := gradInterior_components agree inside
    rw [if_pos ((interior_iff W H y x).2 inside), if_pos inside, ← gx, ← gy]
    exact squaredMagnitude_eq_natAbs ..
  · rw [if_neg (mt (interior_iff W H y x).1 inside), if_neg inside]
    rfl

/-- R160: S of the input, without a blur. -/
theorem sobelMagnitudes_inputPlane (s : State) :
    sobelMagnitudes s.latched.w.toNat s.latched.h.toNat s.inputPlane
      = Plane.tabulate s.latched.w.toNat s.latched.h.toNat
          (Ref.mag s.latched.w.toNat s.latched.h.toNat (Ref.luma s)) :=
  magnitudePlane_gradient fun _ _ => lumaPlane_inputPlane s

/-! ## The threshold as RESULT -/

theorem mem_interiorMagnitudes {W H m : Nat} {S : Plane Nat} (h : m ∈ interiorMagnitudes W H S) :
    ∃ y x, y < H ∧ x < W ∧ Plane.get S y x = m := by
  rw [interiorMagnitudes_eq_map] at h
  obtain ⟨⟨y, x⟩, pixel, value⟩ := List.mem_map.1 h
  obtain ⟨hy, hx⟩ := List.mem_product.1 (List.mem_of_mem_filter pixel)
  exact ⟨y, x, List.mem_range.1 hy, List.mem_range.1 hx, value⟩

/-- R143, R162: the threshold is at most the largest S of u8 samples, so RESULT holds it as it stands. -/
theorem percentileThreshold_sobel_lt (W H : Nat) (img : Plane Pixel) (p : Nat) :
    percentileThreshold (interiorMagnitudes W H (sobelMagnitudes W H img)) p < 2 ^ 32 := by
  have largest : ∀ m ∈ interiorMagnitudes W H (sobelMagnitudes W H img), m ≤ 1300500 := by
    intro m hm
    obtain ⟨y, x, hy, hx, rfl⟩ := mem_interiorMagnitudes hm
    obtain ⟨-, -, -, -, -, bound, -⟩ := gradientFitsItsWidths.1 W H _ (lumaPlane_le W H img) y x hy hx
    rw [sobelMagnitudes, magnitudePlane, Plane.get_tabulate _ _ _ hy hx]
    exact bound
  have := percentileThreshold_le largest p
  omega

/-! ## A SOBEL command that runs -/

/-- R62: the four channels of an output pixel. -/
theorem outputIs_of_channels {s t : State} {y x : Nat} {p : Pixel}
    (h : ∀ c < 4, Ref.output s t c y x = (p.channel c).toNat) :
    Ref.outputIs s t y x p.r.toNat p.g.toNat p.b.toNat p.a.toNat :=
  ⟨h 0 (by decide), h 1 (by decide), h 2 (by decide), h 3 (by decide)⟩

/-- R161: the pixel that a SOBEL mode renders at (x, y). -/
theorem sobelRender_tabulate {W H : Nat} (border : Pixel) (thr : Nat) (S : Ref.Img) {y x : Nat} (hy : y < H)
    (hx : x < W) :
    Plane.get (sobelRender W H border thr (Plane.tabulate W H S)) y x
      = if interior W H y x then (if isEdge thr (S y x) then Pixel.white else Pixel.black) else border := by
  rw [sobelRender, Plane.get_tabulate _ _ _ hy hx, Plane.get_tabulate _ _ _ hy hx]

theorem isEdge_iff (thr S : Nat) : isEdge thr S = true ↔ 0 < S ∧ thr ≤ S := by
  simp [isEdge]

/-- R161, R163, R164: what a SOBEL mode leaves behind, by its threshold and its border pixel. -/
theorem exec_sobel {i : Instr} {s : State} {border : Pixel} {thr : Nat} (runs : Ref.runs i s)
    (rule : workOf i s.latched s.latched.w.toNat s.latched.h.toNat s.inputPlane
      = { out := sobelRender s.latched.w.toNat s.latched.h.toNat border thr
            (sobelMagnitudes s.latched.w.toNat s.latched.h.toNat s.inputPlane), result := thr })
    (fits : thr < 2 ^ 32) :
    let W := s.latched.w.toNat
    let H := s.latched.h.toNat
    let S := Ref.mag W H (Ref.luma s)
    ∃ t, exec i s = .next t ∧ Ref.completed i s t thr
      ∧ ∀ y x, Ref.inImage s y x →
          (¬Ref.isInterior W H y x → Ref.outputIs s t y x border.r.toNat border.g.toNat border.b.toNat border.a.toNat)
          ∧ (Ref.isInterior W H y x → 0 < S y x ∧ thr ≤ S y x → Ref.outputIs s t y x 255 255 255 255)
          ∧ (Ref.isInterior W H y x → ¬(0 < S y x ∧ thr ≤ S y x) → Ref.outputIs s t y x 0 0 0 255) := by
  intro W H S
  obtain ⟨t, step, completed, output⟩ := exec_runs runs rule fits
  refine ⟨t, step, completed, fun y x image => ?_⟩
  have shown := outputIs_of_channels fun c hc => output y x c image hc
  rw [sobelMagnitudes_inputPlane, sobelRender_tabulate border thr S image.1 image.2] at shown
  refine ⟨fun outside => ?_, fun inside edge => ?_, fun inside flat => ?_⟩
  · rwa [if_neg (mt (interior_iff W H y x).1 outside)] at shown
  · rwa [if_pos ((interior_iff W H y x).2 inside), if_pos ((isEdge_iff ..).2 edge)] at shown
  · rwa [if_pos ((interior_iff W H y x).2 inside), if_neg (mt (isEdge_iff ..).1 flat)] at shown

/-! ## The commands -/

/-- Settles O45: the border pixel of SOBEL.P is the pixel of an interior pixel that is no edge. -/
theorem sobelPercentileResult : Obligations.SobelPercentileResult := by
  refine ⟨fun w => decode_eq_iff w .sobelP, check_ne_config rfl, ?_⟩
  intro s runs W H S
  obtain ⟨t, step, completed, output⟩ := exec_sobel runs rfl (percentileThreshold_sobel_lt W H s.inputPlane _)
  refine ⟨t, _, step, completed, by rw [sobelMagnitudes_inputPlane], fun y x image => ?_⟩
  obtain ⟨border, edge, flat⟩ := output y x image
  refine ⟨fun ⟨inside, above⟩ => edge inside above, fun noEdge => ?_⟩
  by_cases inside : Ref.isInterior W H y x
  · exact flat inside fun above => noEdge ⟨inside, above⟩
  · exact border inside

/-- Settles O46: FTHR is a register of 32 bits, so RESULT holds it as it stands, and the border pixel is transparent. -/
theorem sobelFixedResult : Obligations.SobelFixedResult :=
  ⟨fun w => decode_eq_iff w .sobelF, check_ne_config rfl, fun s runs => exec_sobel runs rfl s.latched.fthr.isLt⟩

end Sys2Proof.Machine
end

section
/-! PROOF. The hysteresis state machine (spec/44_canny.md R188, R189): an invariant of its promotions and visits, the bound
on its visits, and the linked set that it ends with. -/

namespace Sys2Proof.Machine

open Sys2Proof

/-! ## Windows -/

/-- R188, R191: the square window of radius `r`, cut to the image. -/
theorem mem_window {r W H y x v u : Nat} :
    (v, u) ∈ window r W H y x ↔ v < H ∧ u < W ∧ v ≤ y + r ∧ y ≤ v + r ∧ u ≤ x + r ∧ x ≤ u + r := by
  simp only [window, List.bind_eq_flatMap, List.pure_def, List.mem_flatMap, List.mem_filterMap, List.mem_range,
    List.mem_singleton]
  constructor
  · rintro ⟨_, ⟨dy, hdy, rfl⟩, _, ⟨dx, hdx, rfl⟩, shown⟩
    split at shown
    · injection shown with pixel
      injection pixel with row column
      omega
    · contradiction
  · intro near
    refine ⟨_, ⟨v + r - y, by omega, rfl⟩, _, ⟨u + r - x, by omega, rfl⟩, ?_⟩
    rw [if_pos (by omega)]
    congr 2 <;> omega

theorem mem_neighbours8 {W H y x v u : Nat} :
    (v, u) ∈ neighbours8 W H y x ↔ v < H ∧ u < W ∧ Ref.adjacent y x v u := by
  rw [neighbours8, List.mem_filter, mem_window, Ref.adjacent, bne_iff_ne, ne_comm (a := (v, u))]
  tauto

/-- R13: an update of one pixel, read at any pixel. -/
theorem Plane.get_put_pixel {α : Type} [Inhabited α] {E : Plane α} {W H : Nat} (shape : Plane.shape E W H)
    {n : Nat × Nat} (hv : n.1 < H) (hu : n.2 < W) (a : α) (q : Nat × Nat) :
    Plane.get (Plane.put E n.1 n.2 a) q.1 q.2 = if q = n then a else Plane.get E q.1 q.2 :=
  (Plane.get_put shape hv hu a q.1 q.2).trans (if_congr Prod.ext_iff.symm rfl rfl)

/-! ## The pixels that the worklist has yet to reach -/

/-- The pixels of a W×H plane that are weak. -/
def weakPixels (W H : Nat) (E : Plane EdgeState) : Finset (Nat × Nat) :=
  (Finset.range H ×ˢ Finset.range W).filter fun q => Plane.get E q.1 q.2 = .weak

theorem mem_weakPixels {W H : Nat} {E : Plane EdgeState} {q : Nat × Nat} :
    q ∈ weakPixels W H E ↔ (q.1 < H ∧ q.2 < W) ∧ Plane.get E q.1 q.2 = .weak := by
  simp [weakPixels]

/-- R188: "at most W·H visits" are left: a visit takes a pixel from the worklist, and a promotion moves a weak pixel there. -/
def Hysteresis.visitsLeft (W H : Nat) (h : Hysteresis) : Nat := (weakPixels W H h.edges).card + h.worklist.length

/-- R189's set, from the tri-states `f`. -/
abbrev LinkedFrom (W H : Nat) (f : Nat → Nat → EdgeState) : Nat → Nat → Prop :=
  Ref.Linked W H (fun v u => f v u = .strong) (fun v u => f v u = .weak)

/-- R187 to R189: what the state machine keeps, from the tri-states `f` on. `pending` holds the strong pixels whose neighbours
may still be weak. -/
structure HystInv (W H : Nat) (f : Nat → Nat → EdgeState) (E : Plane EdgeState) (pending : List (Nat × Nat)) : Prop where
  shape : Plane.shape E W H
  kept : ∀ y x, y < H → x < W → Plane.get E y x = f y x ∨ (f y x = .weak ∧ Plane.get E y x = .strong)
  linked : ∀ y x, y < H → x < W → Plane.get E y x = .strong → LinkedFrom W H f y x
  pendingStrong : ∀ q ∈ pending, q.1 < H ∧ q.2 < W ∧ Plane.get E q.1 q.2 = .strong
  closed : ∀ y x, y < H → x < W → Plane.get E y x = .strong → (y, x) ∉ pending →
    ∀ n ∈ neighbours8 W H y x, Plane.get E n.1 n.2 ≠ .weak

section
variable {W H : Nat} {f : Nat → Nat → EdgeState}

/-! ## Promotions -/

/-- R188: what a promotion can do. -/
theorem hystPromote_cases (h : Hysteresis) (n : Nat × Nat) :
    (Plane.get h.edges n.1 n.2 = .weak
        ∧ hystPromote h n = { edges := Plane.put h.edges n.1 n.2 .strong, worklist := n :: h.worklist })
      ∨ (Plane.get h.edges n.1 n.2 ≠ .weak ∧ hystPromote h n = h) := by
  unfold hystPromote
  split
  case isTrue weak => exact .inl ⟨weak, rfl⟩
  case isFalse notWeak => exact .inr ⟨notWeak, rfl⟩

/-- R188, R189: a weak pixel of the linked set may become strong, if it becomes pending. -/
theorem HystInv.put {E : Plane EdgeState} {pending pending' : List (Nat × Nat)} {n : Nat × Nat}
    (inv : HystInv W H f E pending) (hv : n.1 < H) (hu : n.2 < W) (was : f n.1 n.2 = .weak)
    (joined : LinkedFrom W H f n.1 n.2) (added : ∀ q, q ∈ pending' ↔ q = n ∨ q ∈ pending) :
    HystInv W H f (Plane.put E n.1 n.2 .strong) pending' := by
  refine ⟨Plane.shape_put inv.shape _ _ _, ?kept, ?linked, ?pendingStrong, ?closed⟩
  all_goals simp only [Plane.get_put inv.shape hv hu]
  case kept =>
    intro y x hy hx
    split
    case isTrue here => exact .inr ⟨here.1 ▸ here.2 ▸ was, rfl⟩
    case isFalse => exact inv.kept y x hy hx
  case linked =>
    intro y x hy hx
    split
    case isTrue here => exact fun _ => here.1 ▸ here.2 ▸ joined
    case isFalse => exact inv.linked y x hy hx
  case pendingStrong =>
    intro q hq
    split
    case isTrue here => exact ⟨here.1 ▸ hv, here.2 ▸ hu, rfl⟩
    case isFalse elsewhere =>
      exact inv.pendingStrong q (((added q).1 hq).resolve_left (mt Prod.ext_iff.1 elsewhere))
  case closed =>
    intro y x hy hx strong done m hm
    obtain ⟨elsewhere, done⟩ := not_or.1 (mt (added (y, x)).2 done)
    rw [if_neg (mt Prod.ext_iff.2 elsewhere)] at strong
    split
    · exact EdgeState.noConfusion
    · exact inv.closed y x hy hx strong done m hm

/-- R188: a promotion of a pixel next to `p` keeps the invariant: a weak pixel next to a linked one is linked. -/
theorem HystInv.promote {h : Hysteresis} {p n : Nat × Nat} (inv : HystInv W H f h.edges (p :: h.worklist))
    (hn : n ∈ neighbours8 W H p.1 p.2) :
    HystInv W H f (hystPromote h n).edges (p :: (hystPromote h n).worklist) := by
  obtain ⟨hv, hu, near⟩ := mem_neighbours8.1 hn
  rcases hystPromote_cases h n with ⟨weak, promoted⟩ | ⟨-, same⟩
  · have was : f n.1 n.2 = .weak := by
      rcases inv.kept n.1 n.2 hv hu with same | ⟨was, -⟩
      · exact same ▸ weak
      · exact was
    obtain ⟨hy, hx, strong⟩ := inv.pendingStrong p List.mem_cons_self
    have joined : LinkedFrom W H f n.1 n.2 := .grow p.1 p.2 n.1 n.2 (inv.linked _ _ hy hx strong) hv hu near was
    rw [promoted]
    exact inv.put hv hu was joined fun q => by simp only [List.mem_cons, or_left_comm]
  · rw [same]
    exact inv

/-- R188: a promotion moves one pixel from the weak ones to the worklist. -/
theorem hystPromote_visitsLeft {h : Hysteresis} {n : Nat × Nat} (shape : Plane.shape h.edges W H) (hv : n.1 < H)
    (hu : n.2 < W) : (hystPromote h n).visitsLeft W H = h.visitsLeft W H := by
  rcases hystPromote_cases h n with ⟨weak, promoted⟩ | ⟨-, same⟩
  · have moved : weakPixels W H (Plane.put h.edges n.1 n.2 .strong) = (weakPixels W H h.edges).erase n := by
      ext q
      rw [Finset.mem_erase, mem_weakPixels, mem_weakPixels, Plane.get_put_pixel shape hv hu]
      split
      case isTrue here => simp [here]
      case isFalse elsewhere => simp [elsewhere]
    have one := Finset.card_erase_add_one (mem_weakPixels.2 ⟨⟨hv, hu⟩, weak⟩)
    rw [promoted, Hysteresis.visitsLeft, Hysteresis.visitsLeft, moved, List.length_cons]
    omega
  · rw [same]

/-- R188: after a promotion its pixel is not weak, and no other pixel has become weak. -/
theorem hystPromote_ne_weak {h : Hysteresis} {n m : Nat × Nat} (shape : Plane.shape h.edges W H) (hv : n.1 < H)
    (hu : n.2 < W) (hm : m = n ∨ Plane.get h.edges m.1 m.2 ≠ .weak) :
    Plane.get (hystPromote h n).edges m.1 m.2 ≠ .weak := by
  rcases hystPromote_cases h n with ⟨-, promoted⟩ | ⟨notWeak, same⟩
  · rw [promoted, Plane.get_put_pixel shape hv hu]
    split
    case isTrue => exact EdgeState.noConfusion
    case isFalse elsewhere => exact hm.resolve_left elsewhere
  · rw [same]
    exact hm.elim (fun here => here ▸ notWeak) id

/-! ## Visits -/

/-- R188: promotions of pixels next to `p` keep the invariant and the number of visits left, and leave none of them weak. -/
theorem HystInv.promoteAll {p : Nat × Nat} {ns : List (Nat × Nat)} (hns : ∀ n ∈ ns, n ∈ neighbours8 W H p.1 p.2)
    {h : Hysteresis} (inv : HystInv W H f h.edges (p :: h.worklist)) :
    HystInv W H f (ns.foldl hystPromote h).edges (p :: (ns.foldl hystPromote h).worklist)
      ∧ (ns.foldl hystPromote h).visitsLeft W H = h.visitsLeft W H
      ∧ ∀ m, m ∈ ns ∨ Plane.get h.edges m.1 m.2 ≠ .weak → Plane.get (ns.foldl hystPromote h).edges m.1 m.2 ≠ .weak := by
  induction ns generalizing h with
  | nil => exact ⟨inv, rfl, fun m hm => hm.resolve_left List.not_mem_nil⟩
  | cons n ns ih =>
    obtain ⟨next, others⟩ := List.forall_mem_cons.1 hns
    obtain ⟨hv, hu, -⟩ := mem_neighbours8.1 next
    obtain ⟨inv', left, settled⟩ := ih others (inv.promote next)
    refine ⟨inv', left.trans (hystPromote_visitsLeft inv.shape hv hu), fun m hm => settled m ?_⟩
    rw [List.mem_cons, or_assoc, or_left_comm] at hm
    exact hm.imp_right (hystPromote_ne_weak inv.shape hv hu)

/-- R188: a visit keeps the invariant, and the visited pixel is pending no more. -/
theorem HystInv.visit {h : Hysteresis} {p : Nat × Nat} (inv : HystInv W H f h.edges (p :: h.worklist)) :
    HystInv W H f (hystVisit W H h p.1 p.2).edges (hystVisit W H h p.1 p.2).worklist
      ∧ (hystVisit W H h p.1 p.2).visitsLeft W H = h.visitsLeft W H := by
  obtain ⟨inv', left, settled⟩ := inv.promoteAll (ns := neighbours8 W H p.1 p.2) fun _ hn => hn
  refine ⟨⟨inv'.shape, inv'.kept, inv'.linked, (List.forall_mem_cons.1 inv'.pendingStrong).2, ?_⟩, left⟩
  intro y x hy hx strong done n hn
  by_cases visited : (y, x) = p
  · subst visited
    exact settled n (.inl hn)
  · exact inv'.closed y x hy hx strong (List.not_mem_cons_of_ne_of_not_mem visited done) n hn

/-- R188: with as many visits as are left, the worklist empties. -/
theorem HystInv.run {fuel : Nat} {h : Hysteresis} (inv : HystInv W H f h.edges h.worklist)
    (enough : h.visitsLeft W H ≤ fuel) : HystInv W H f (hystRun W H fuel h) [] := by
  induction fuel generalizing h with
  | zero =>
    have empty : h.worklist = [] := List.eq_nil_of_length_eq_zero (by rw [Hysteresis.visitsLeft] at enough; omega)
    exact empty ▸ inv
  | succ fuel ih =>
    rw [hystRun]
    split
    case h_1 empty => exact empty ▸ inv
    case h_2 p rest popped =>
      obtain ⟨inv', left⟩ := HystInv.visit (h := { h with worklist := rest }) (popped ▸ inv)
      have taken : h.visitsLeft W H = Hysteresis.visitsLeft W H { h with worklist := rest } + 1 := by
        rw [Hysteresis.visitsLeft, popped]
        rfl
      exact ih inv' (by omega)

end

/-! ## The seeds -/

/-- R188: SEED lists the strong pixels in raster order. -/
theorem hystSeed_worklist (W H : Nat) (E : Plane EdgeState) :
    (hystSeed W H E).worklist
      = (List.range H ×ˢ List.range W).filter fun q => Plane.get E q.1 q.2 = .strong := by
  simp [hystSeed, List.product, SProd.sprod, List.filter_flatMap, List.filter_map, Function.comp_def]

theorem mem_hystSeed_worklist {W H : Nat} {E : Plane EdgeState} {q : Nat × Nat} :
    q ∈ (hystSeed W H E).worklist ↔ (q.1 < H ∧ q.2 < W) ∧ Plane.get E q.1 q.2 = .strong := by
  rw [hystSeed_worklist, List.mem_filter, List.mem_product, List.mem_range, List.mem_range, decide_eq_true_iff]

/-- R188: no pixel is both weak and strong, so the bound of W·H visits is enough. -/
theorem hystSeed_visitsLeft (W H : Nat) (E : Plane EdgeState) : (hystSeed W H E).visitsLeft W H ≤ W * H := by
  have distinct : (hystSeed W H E).worklist.Nodup := by
    rw [hystSeed_worklist]
    exact (List.nodup_range.product List.nodup_range).filter _
  have apart : Disjoint (weakPixels W H E) (hystSeed W H E).worklist.toFinset := by
    refine Finset.disjoint_left.2 fun q weak strong => ?_
    have strong := (mem_hystSeed_worklist.1 (List.mem_toFinset.1 strong)).2
    rw [(mem_weakPixels.1 weak).2] at strong
    contradiction
  have inImage : weakPixels W H E ∪ (hystSeed W H E).worklist.toFinset ⊆ Finset.range H ×ˢ Finset.range W := by
    refine Finset.union_subset (Finset.filter_subset ..) fun q hq => ?_
    simpa using (mem_hystSeed_worklist.1 (List.mem_toFinset.1 hq)).1
  calc (weakPixels W H E).card + (hystSeed W H E).worklist.length
      = (weakPixels W H E ∪ (hystSeed W H E).worklist.toFinset).card := by
        rw [Finset.card_union_of_disjoint apart, List.toFinset_card_of_nodup distinct]
    _ ≤ (Finset.range H ×ˢ Finset.range W).card := Finset.card_le_card inImage
    _ = W * H := by rw [Finset.card_product, Finset.card_range, Finset.card_range, Nat.mul_comm]

/-- R188: the seeds of a tabulated plane meet the invariant. -/
theorem HystInv.seed (W H : Nat) (f : Nat → Nat → EdgeState) :
    HystInv W H f (Plane.tabulate W H f) (hystSeed W H (Plane.tabulate W H f)).worklist where
  shape := Plane.shape_tabulate W H f
  kept _ _ hy hx := .inl (Plane.get_tabulate W H f hy hx)
  linked y x hy hx strong := .seed y x hy hx ((Plane.get_tabulate W H f hy hx).symm.trans strong)
  pendingStrong _ hq := and_assoc.1 (mem_hystSeed_worklist.1 hq)
  closed _ _ hy hx strong notListed := absurd (mem_hystSeed_worklist.2 ⟨⟨hy, hx⟩, strong⟩) notListed

/-- R188, R189: the state machine ends with nothing pending. -/
theorem hysteresis_inv (W H : Nat) (f : Nat → Nat → EdgeState) :
    HystInv W H f (hysteresis W H (Plane.tabulate W H f)) [] :=
  (HystInv.seed W H f).run (hystSeed_visitsLeft W H _)

/-- R189: with nothing pending, every linked pixel is strong: the strong pixels are closed under weak neighbours. -/
theorem HystInv.strong_of_linked {W H : Nat} {f : Nat → Nat → EdgeState} {E : Plane EdgeState} (inv : HystInv W H f E [])
    {y x : Nat} (joined : LinkedFrom W H f y x) :
    y < H ∧ x < W ∧ Plane.get E y x = .strong := by
  induction joined with
  | seed y x hy hx was =>
    rcases inv.kept y x hy hx with same | ⟨-, strong⟩
    · exact ⟨hy, hx, same.trans was⟩
    · exact ⟨hy, hx, strong⟩
  | grow y x v u _ hv hu near was ih =>
    obtain ⟨hy, hx, strong⟩ := ih
    have notWeak := inv.closed y x hy hx strong List.not_mem_nil (v, u) (mem_neighbours8.2 ⟨hv, hu, near⟩)
    rcases inv.kept v u hv hu with same | ⟨-, promoted⟩
    · exact absurd (same.trans was) notWeak
    · exact ⟨hv, hu, promoted⟩

/-- Settles O49: the run keeps the invariant from the seeds on and has visits enough to empty the worklist, and with an empty
worklist the invariant says that the strong pixels are the linked ones. -/
theorem hysteresisIsLinkedSet : Obligations.HysteresisIsLinkedSet := by
  intro W H f y x hy hx E
  have inv : HystInv W H f E [] := hysteresis_inv W H f
  have strong_iff : Plane.get E y x = .strong ↔ LinkedFrom W H f y x :=
    ⟨inv.linked y x hy hx, fun joined => (inv.strong_of_linked joined).2.2⟩
  refine ⟨strong_iff, fun apart => ?_⟩
  rcases inv.kept y x hy hx with same | ⟨-, strong⟩
  · exact same
  · exact absurd (strong_iff.1 strong) apart

end Sys2Proof.Machine
end

section
/-! PROOF. The values along the Canny pipeline (spec/44_canny.md R181 to R187): the strength preset, the suppressed
magnitudes, their maximum and the double threshold, each against the reference. -/

namespace Sys2Proof.Machine

open Sys2Proof

/-! ## The strength preset -/

/-- Settles O47: STRENGTH stands for itself, and `legacy` is decided by SIGMA alone. -/
theorem legacySigmaResolves : Obligations.LegacySigmaResolves := by
  intro s100
  refine ⟨rfl, rfl, rfl, fun wide => if_pos wide, fun narrow => ?_, fun large small => ?_⟩
  · exact (if_neg (by omega)).trans (if_pos narrow)
  · exact (if_neg (by omega)).trans (if_neg (by omega))

theorem presetTable_kernel (st : Strength) : (presetTable st).kernel = Ref.presetKernel st := by
  cases st
  all_goals rfl

/-! ## Non-maximum suppression and the reference -/

section
variable {W H : Nat} {P : Plane Nat} {Q : Ref.Img} (agree : ∀ y x, y < H → x < W → Plane.get P y x = Q y x)
include agree

/-- R143: S of the gradient of a plane that agrees with `Q` inside the image, at the border too. -/
theorem gradient_s {y x : Nat} (hy : y < H) (hx : x < W) :
    (Plane.get (gradient W H P) y x).s = Ref.mag W H Q y x := by
  have plane := congrArg (Plane.get · y x) (magnitudePlane_gradient agree)
  simpa only [magnitudePlane, Plane.get_tabulate, hy, hx] using plane

/-- R145: D of the gradient at an interior pixel. -/
theorem gradient_d {y x : Nat} (inside : Ref.isInterior W H y x) :
    (Plane.get (gradient W H P) y x).d = qdir (Ref.gx Q y x) (Ref.gy Q y x) := by
  obtain ⟨gx, gy⟩ := gradInterior_components agree inside
  obtain ⟨left, right, top, bottom⟩ := inside
  rw [gradient_get W H P (by omega) (by omega), if_pos ((interior_iff W H y x).2 ⟨left, right, top, bottom⟩), ← gx, ← gy]
  rfl

open Classical in
/-- R185: the comparator at an interior pixel. Both neighbours along any direction lie in the image. -/
theorem nmsAt_gradient {y x : Nat} (inside : Ref.isInterior W H y x) :
    nmsAt (gradient W H P) y x
      = if Ref.alongDirection (qdir (Ref.gx Q y x) (Ref.gy Q y x)) y x
            (fun v u => Ref.mag W H Q v u ≤ Ref.mag W H Q y x) then Ref.mag W H Q y x else 0 := by
  have direction := gradient_d agree inside
  obtain ⟨left, right, top, bottom⟩ := inside
  have magnitude (v u : Nat) (hv : v ≤ y + 1) (hu : u ≤ x + 1) :
      (Plane.get (gradient W H P) v u).s = Ref.mag W H Q v u := gradient_s agree (by omega) (by omega)
  simp only [nmsAt, direction, magnitude y x (by omega) (by omega)]
  refine if_congr ?_ rfl rfl
  cases qdir (Ref.gx Q y x) (Ref.gy Q y x)
  all_goals simp (disch := omega) only [nmsNeighbours, Ref.alongDirection, magnitude]

open Classical in
/-- R185: the plane N of the gradient of a plane that agrees with `Q` inside the image. -/
theorem nms_gradient : nms W H (gradient W H P) = Plane.tabulate W H (Ref.nmsPlane W H Q) := by
  refine Plane.tabulate_congr fun y x _ _ => ?_
  rw [Ref.nmsPlane]
  by_cases inside : Ref.isInterior W H y x
  · rw [if_pos ((interior_iff W H y x).2 inside), nmsAt_gradient agree inside]
    exact if_congr (and_iff_right inside).symm rfl rfl
  · rw [if_neg (mt (interior_iff W H y x).1 inside), if_neg fun kept => inside kept.1]

end

/-- R183 to R185: the plane N of the input. -/
theorem cannyNms_inputPlane (s : State) (st : Strength) :
    cannyNms st s.latched.w.toNat s.latched.h.toNat s.inputPlane
      = Plane.tabulate s.latched.w.toNat s.latched.h.toNat (Ref.cannyN s st) := by
  rw [cannyNms, presetTable_kernel]
  exact nms_gradient fun _ _ => blur2d_eq_blur _ fun _ _ => lumaPlane_inputPlane s

/-! ## The largest N -/

/-- R186: Smax as the largest element of a list. -/
theorem planeMax_eq_foldr (N : Plane Nat) : planeMax N = N.flatten.foldr max 0 := by
  rw [planeMax, ← List.foldl_flatten, List.foldl_eq_foldr]

theorem foldr_max_zero_or_mem (l : List Nat) : l.foldr max 0 = 0 ∨ l.foldr max 0 ∈ l := by
  by_cases empty : l = []
  · exact .inl (empty ▸ rfl)
  · exact .inr (List.maximum_mem (List.foldr_max_of_ne_nil empty).symm)

theorem Plane.mem_flatten_tabulate {α : Type} {W H : Nat} {f : Nat → Nat → α} {v : α} :
    v ∈ (Plane.tabulate W H f).flatten ↔ ∃ y x, y < H ∧ x < W ∧ f y x = v := by
  simp [Plane.tabulate, ← List.flatMap_def]

/-- R186: Smax is the largest value of a tabulated plane. -/
theorem planeMax_isMax (W H : Nat) (N : Ref.Img) : Ref.isMax W H N (planeMax (Plane.tabulate W H N)) := by
  rw [planeMax_eq_foldr]
  refine ⟨fun y x hy hx => ?_, ?_⟩
  · exact List.le_max_of_le' 0 (Plane.mem_flatten_tabulate.2 ⟨y, x, hy, hx, rfl⟩) le_rfl
  · exact (foldr_max_zero_or_mem _).imp_right Plane.mem_flatten_tabulate.1

/-- R143, R185: N of an image of bytes is at most the largest S of u8 samples. -/
theorem cannyN_le (s : State) (st : Strength) {y x : Nat} (hy : y < s.latched.h.toNat) (hx : x < s.latched.w.toNat) :
    Ref.cannyN s st y x ≤ 1300500 := by
  have samples : ∀ v u, Plane.get (blur2d (kernelRom (Ref.presetKernel st)) s.latched.w.toNat s.latched.h.toNat
      (lumaPlane s.latched.w.toNat s.latched.h.toNat s.inputPlane)) v u ≤ 255 :=
    blur2d_le _ _ _ (lumaPlane_le _ _ s.inputPlane)
  obtain ⟨-, -, -, -, -, bound, -⟩ := gradientFitsItsWidths.1 _ _ _ samples y x hy hx
  rw [gradient_s (fun _ _ => blur2d_eq_blur _ fun _ _ => lumaPlane_inputPlane s) hy hx] at bound
  unfold Ref.cannyN Ref.nmsPlane
  split
  · exact bound
  · exact Nat.zero_le _

/-- R186: Smax fits RESULT. -/
theorem planeMax_cannyN_lt (s : State) (st : Strength) :
    planeMax (Plane.tabulate s.latched.w.toNat s.latched.h.toNat (Ref.cannyN s st)) < 2 ^ 32 := by
  rcases (planeMax_isMax s.latched.w.toNat s.latched.h.toNat (Ref.cannyN s st)).2 with zero | ⟨y, x, hy, hx, attained⟩
  · omega
  · have := cannyN_le s st hy hx
    omega

/-! ## The double threshold and the reference -/

theorem reaches_iff (num den v smax : Nat) : reaches num den v smax = true ↔ num * num * smax ≤ v * (den * den) :=
  decide_eq_true_iff

/-- R187: a value above the high threshold is strong. -/
theorem classify_strong (p : Preset) (smax v : Nat) :
    classify p smax v = .strong ↔ 0 < v ∧ reaches p.highNum p.highDen v smax = true := by
  unfold classify
  repeat' split
  all_goals simp [*, Nat.pos_iff_ne_zero]

/-- R187: a value between the thresholds is weak. -/
theorem classify_weak (p : Preset) (smax v : Nat) :
    classify p smax v = .weak
      ↔ 0 < v ∧ ¬reaches p.highNum p.highDen v smax = true ∧ reaches p.lowNum p.lowDen v smax = true := by
  unfold classify
  repeat' split
  all_goals simp [*, Nat.pos_iff_ne_zero]

/-- R182, R187: the strong test of each preset on squares. -/
theorem classify_eq_strong_iff (st : Strength) (smax v : Nat) :
    classify (presetTable st) smax v = .strong ↔ Ref.strong st smax v := by
  rw [classify_strong, reaches_iff, Ref.strong.eq_def]
  cases st
  all_goals
    dsimp only [presetTable]
    omega

/-- R182, R187: the weak test of each preset on squares. -/
theorem classify_eq_weak_iff (st : Strength) (smax v : Nat) :
    classify (presetTable st) smax v = .weak ↔ Ref.weak st smax v := by
  rw [classify_weak, reaches_iff, reaches_iff, Ref.weak.eq_def, Ref.strong.eq_def]
  cases st
  all_goals
    dsimp only [presetTable]
    omega

end Sys2Proof.Machine
end

section
/-! PROOF. The CANNY commands (spec/44_canny.md R188 to R195): their words, the linked and dilated edge mask, and the
statement on the three strokes. -/

namespace Sys2Proof

/-! ## The words of a CANNY command -/

/-- R80, R90: the bits of a stroke's row are those of its encoding, whatever STRENGTH is. -/
theorem Stroke.encode_instr_and_rowMask (k : Stroke) (f : StrengthField) :
    encode (k.instr f) &&& 0xC0F#12 = (k.instr f).row.pattern := by
  cases k
  all_goals
    cases f
    all_goals rfl

/-- R80, R85: a stroke's encoding is the pattern of its row with STRENGTH in bits 9:8. -/
theorem Stroke.encode_instr (k : Stroke) (f : StrengthField) :
    encode (k.instr f) = (k.instr f).row.pattern ||| (f.encode.setWidth 12 <<< 8) := by
  cases k
  all_goals
    cases f
    all_goals rfl

theorem Stroke.row_instr (k : Stroke) (f g : StrengthField) : (k.instr f).row = (k.instr g).row := by
  cases k
  all_goals rfl

theorem Stroke.readMask_instr (k : Stroke) (f : StrengthField) : (k.instr f).readMask = 0xF0F#12 := by
  cases k
  all_goals rfl

theorem Stroke.isReserved_instr (k : Stroke) (f : StrengthField) : (k.instr f).isReserved = false := by
  cases k
  all_goals rfl

/-- R85: what the mask of a CANNY instruction adds to the mask of its row is STRENGTH. -/
theorem CmdWord.and_cannyMask_eq (w : CmdWord) :
    w &&& 0xF0F#12 = (w &&& 0xC0F#12) ||| (w.strength.setWidth 12 <<< 8) := by
  rw [CmdWord.strength, ← w.and_fieldMask 8 2, ← BitVec.and_or_distrib_left]
  rfl

/-- R85, R90: the words of a stroke, whatever STRENGTH is. -/
theorem decode_eq_stroke_iff (k : Stroke) (w : CmdWord) :
    (∃ f, decode w = k.instr f) ↔ w &&& 0xC0F#12 = (k.instr .low).row.pattern := by
  constructor
  · rintro ⟨f, decoded⟩
    have read := (decode_eq_iff w _).1 decoded
    rw [k.readMask_instr] at read
    rw [k.row_instr .low f, ← k.encode_instr_and_rowMask, ← read, BitVec.and_assoc]
    rfl
  · intro row
    refine ⟨StrengthField.decode w.strength, (decode_eq_iff w _).2 ?_⟩
    rw [k.readMask_instr, w.and_cannyMask_eq, k.encode_instr, StrengthField.encode_decode, row, k.row_instr]

/-- R87: a word that decodes to an instruction agrees with its encoding in the bits that the instruction reads. -/
theorem and_readMask_eq_of_decode_eq {w : CmdWord} {i : Instr} (decoded : decode w = i) :
    w &&& i.readMask = encode i &&& i.readMask :=
  ((decode_eq_iff w i).1 decoded).trans ((decode_eq_iff _ i).1 (decode_encode i)).symm

/-- R85: STRENGTH stands in bits 9:8. -/
theorem strength_of_decode_eq {k : Stroke} {w : CmdWord} {f : StrengthField} (decoded : decode w = k.instr f) :
    f.encode = w.extractLsb' 8 2 := by
  have read : w.extractLsb' 8 2 = (encode (k.instr f)).extractLsb' 8 2 :=
    CmdWord.field_eq_of_agree (and_readMask_eq_of_decode_eq decoded) (by rw [k.readMask_instr]; rfl)
  rw [read]
  cases k
  all_goals
    cases f
    all_goals rfl

end Sys2Proof

namespace Sys2Proof.Machine

open Sys2Proof

/-! ## The edge mask and the reference -/

theorem strokeRadius_eq_reach (k : Stroke) : strokeRadius k = Ref.reach k := by
  cases k
  all_goals rfl

/-- R187 to R190: the mask before thickening is the linked set of the reference's tests. -/
theorem cannyMask_iff (st : Strength) {W H : Nat} (N : Ref.Img) {y x : Nat} (hy : y < H) (hx : x < W) :
    let smax := planeMax (Plane.tabulate W H N)
    Plane.get (cannyMask st W H (Plane.tabulate W H N)) y x = true
      ↔ Ref.Linked W H (fun v u => Ref.strong st smax (N v u)) (fun v u => Ref.weak st smax (N v u)) y x := by
  intro smax
  have states : doubleThreshold W H (presetTable st) smax (Plane.tabulate W H N)
      = Plane.tabulate W H fun v u => classify (presetTable st) smax (N v u) :=
    Plane.tabulate_congr fun v u hv hu => by rw [Plane.get_tabulate _ _ _ hv hu]
  obtain ⟨linked, -⟩ := hysteresisIsLinkedSet W H (fun v u => classify (presetTable st) smax (N v u)) y x hy hx
  simp only [classify_eq_strong_iff, classify_eq_weak_iff] at linked
  rw [cannyMask, edgeMask, Plane.get_tabulate _ _ _ hy hx, decide_eq_true_iff, states]
  exact linked

/-- R191: a pixel of the dilated mask has a pixel of the mask in its window. -/
theorem dilate_iff {r W H : Nat} {M : Plane Bool} {M0 : Nat → Nat → Prop}
    (mask : ∀ v u, v < H → u < W → (Plane.get M v u = true ↔ M0 v u)) {y x : Nat} (hy : y < H) (hx : x < W) :
    Plane.get (dilate r W H M) y x = true ↔ Ref.dilated W H r M0 y x := by
  rw [dilate, Plane.get_tabulate _ _ _ hy hx, List.any_eq_true, Prod.exists]
  refine exists₂_congr fun v u => ?_
  rw [mem_window]
  constructor
  · rintro ⟨⟨hv, hu, above, below, left, right⟩, edge⟩
    exact ⟨hv, hu, above, below, left, right, (mask v u hv hu).1 edge⟩
  · rintro ⟨hv, hu, above, below, left, right, edge⟩
    exact ⟨⟨hv, hu, above, below, left, right⟩, (mask v u hv hu).2 edge⟩

/-- R192: the pixel that is rendered at (x, y). -/
theorem cannyRender_get (W H : Nat) (M : Plane Bool) {y x : Nat} (hy : y < H) (hx : x < W) :
    Plane.get (cannyRender W H M) y x = if Plane.get M y x then Pixel.white else Pixel.black :=
  Plane.get_tabulate _ _ _ hy hx

/-! ## A CANNY command that runs -/

theorem workOf_stroke (k : Stroke) (f : StrengthField) (l : ConfigRegs) :
    workOf (k.instr f) l = canny (resolveStrength f l.sigma.toNat) k := by
  cases k
  all_goals rfl

/-- R180, R193 to R195: what a CANNY command leaves behind. -/
theorem exec_stroke (k : Stroke) {f : StrengthField} {s : State} (runs : Ref.runs (k.instr f) s) :
    let st := resolveStrength f s.latched.sigma.toNat
    ∃ t smax, exec (k.instr f) s = .next t ∧ Ref.completed (k.instr f) s t smax
      ∧ Ref.isMax s.latched.w.toNat s.latched.h.toNat (Ref.cannyN s st) smax
      ∧ ∀ y x, Ref.inImage s y x →
          (Ref.cannyEdge s st k smax y x → Ref.outputIs s t y x 255 255 255 255)
          ∧ (¬Ref.cannyEdge s st k smax y x → Ref.outputIs s t y x 0 0 0 255) := by
  intro st
  have work := congrFun₃ (workOf_stroke k f s.latched) s.latched.w.toNat s.latched.h.toNat s.inputPlane
  rw [canny, cannyNms_inputPlane, strokeRadius_eq_reach] at work
  obtain ⟨t, step, completed, output⟩ := exec_runs runs work (planeMax_cannyN_lt s st)
  refine ⟨t, _, step, completed, planeMax_isMax .., fun y x image => ?_⟩
  have shown := outputIs_of_channels fun c hc => output y x c image hc
  have edge_iff := dilate_iff (r := Ref.reach k) (fun v u => cannyMask_iff st (Ref.cannyN s st)) image.1 image.2
  rw [cannyRender_get _ _ _ image.1 image.2] at shown
  refine ⟨fun edge => ?_, fun noEdge => ?_⟩
  · rwa [if_pos (edge_iff.2 edge)] at shown
  · rwa [if_neg (mt edge_iff.1 noEdge)] at shown

/-- Settles O50: the three commands differ in STROKE alone, which selects the radius of the dilation. -/
theorem cannyResult : Obligations.CannyResult := by
  intro row hrow
  obtain ⟨k, rfl⟩ : ∃ k : Stroke, row = (k.instr, k, (k.instr .low).row.pattern) := by
    simp only [List.mem_cons, List.not_mem_nil, or_false] at hrow
    rcases hrow with rfl | rfl | rfl
    · exact ⟨.thin, rfl⟩
    · exact ⟨.medium, rfl⟩
    · exact ⟨.thick, rfl⟩
  exact ⟨decode_eq_stroke_iff k, fun _ _ => strength_of_decode_eq, fun f => check_ne_config (k.isReserved_instr f),
    fun _ _ => exec_stroke k⟩

end Sys2Proof.Machine
end

section
/-! PROOF. The interrupt line (spec/60_exceptions.md R235): it is the conjunction of DONE and IRQ_EN, so it is low when
either is, and what a write of STATUS or CTRL leaves of the two. -/

namespace Sys2Proof.Machine

open Sys2Proof

/-! ## The line -/

theorem State.irq_eq_true_iff (s : State) : s.irq = true ↔ s.done = true ∧ s.irqEn = true := Bool.and_eq_true_iff

theorem State.irq_of_not_done {s : State} (h : s.done = false) : s.irq = false := by rw [State.irq, h, Bool.false_and]

theorem State.irq_of_disabled {s : State} (h : s.irqEn = false) : s.irq = false := by rw [State.irq, h, Bool.and_false]

/-! ## DONE and IRQ_EN after a register write -/

theorem State.writeReg_status_done (s : State) (v : Word) :
    (s.writeReg .status v).done = (s.done && !v.getLsbD 1) := s.writeStatus_done v

theorem State.writeReg_ctrl_start (s : State) {v : Word} (start : v.getLsbD 0 = true) (idle : s.busy = false) :
    s.writeReg .ctrl v = s.acceptStart (v.getLsbD 1) := by
  have accepted : (v.getLsbD 0 && !s.busy) = true := by rw [start, idle, Bool.not_false, Bool.and_true]
  exact if_pos accepted

/-- R22: IRQ_EN takes bit 1 of every CTRL write, whether or not the write launches a command. -/
theorem State.writeReg_ctrl_irqEn (s : State) (v : Word) : (s.writeReg .ctrl v).irqEn = v.getLsbD 1 := by
  show (s.writeCtrl v).irqEn = v.getLsbD 1
  unfold State.writeCtrl
  split
  · exact s.acceptStart_irqEn _
  · rfl

/-- Settles O22: a W1C write, an accepted START and reset leave DONE = 0, the CTRL write leaves IRQ_EN = 0. -/
theorem interruptLineFalls : Obligations.InterruptLineFalls := by
  intro s
  refine ⟨s.irq_eq_true_iff, fun v clear => ?w1c, fun v start idle => ?start, fun v disable => ?disable, ?reset⟩
  case w1c =>
    refine State.irq_of_not_done ?_
    rw [s.writeReg_status_done, clear, Bool.not_true, Bool.and_false]
  case start =>
    rw [s.writeReg_ctrl_start start idle]
    exact State.irq_of_not_done (s.acceptStart_done _)
  case disable => exact State.irq_of_disabled ((s.writeReg_ctrl_irqEn v).trans disable)
  case reset => exact State.irq_of_not_done s.platformReset_done

end Sys2Proof.Machine
end

section
/-! PROOF. The checks of a command and its failure (spec/60_exceptions.md R222, R223, R226): the code of each check and
their order, the failure effect with the STATUS word it leaves, and the words that are ConfigError. -/

namespace Sys2Proof

/-! ## The words that are ConfigError -/

/-- R222, R91: the reserved words, along the decoder's choice by OP and, for OP 5, by STROKE. -/
theorem isReserved_decode_iff (w : CmdWord) :
    (decode w).isReserved = true ↔ w.op = 0#4 ∨ 6 ≤ w.op.toNat ∨ (w.op = 5#4 ∧ w.stroke = 3#2) := by
  have op_zero : w.op = 0#4 ↔ w.op.toNat = 0 := BitVec.toNat_inj.symm
  have op_canny : w.op = 5#4 ↔ w.op.toNat = 5 := BitVec.toNat_inj.symm
  have stroke_three : w.stroke = 3#2 ↔ w.stroke.toNat = 3 := BitVec.toNat_inj.symm
  rw [op_zero, op_canny, stroke_three]
  unfold decode
  split
  case h_1 | h_7 | h_8 => exact iff_of_true rfl (by omega)
  case h_9 n0 n1 n2 n3 n4 n5 _ _ =>
    simp only [imp_false] at n0 n1 n2 n3 n4 n5
    exact iff_of_true rfl (by omega)
  case h_3 => exact iff_of_false Bool.false_ne_true (by omega)
  case h_2 | h_4 | h_5 =>
    split
    all_goals exact iff_of_false Bool.false_ne_true (by omega)
  case h_6 =>
    split
    case h_1 | h_2 | h_3 => exact iff_of_false Bool.false_ne_true (by omega)
    case h_4 n0 n1 n2 =>
      have stroke := stroke_three.1 (eq_three_of_ne n0 n1 n2)
      exact iff_of_true rfl (by omega)

end Sys2Proof

namespace Sys2Proof.Machine

open Sys2Proof

/-! ## The checks -/

/-- R61: with positive sides REQ is the exact product of the reference. -/
theorem req_cast (i : Instr) {l : ConfigRegs} (wPos : 0 < l.w) (hPos : 0 < l.h) :
    (req i l : Int) = Ref.scratchFactor i * (l.w * l.h) := by
  rw [req_eq_scratchFactor, Nat.cast_mul, Nat.cast_mul, Int.toNat_of_nonneg wPos.le, Int.toNat_of_nonneg hPos.le]

/-- Settles O30: down the chain of `check`, each condition either gives its code (the first goal of each `refine`) or
leaves the rest of the chain (the second). -/
theorem checkOrder : Obligations.CheckOrder := by
  intro i p l
  have need : 0 < l.width.toInt → 0 < l.height.toInt →
      (req i l : Int) = Ref.scratchFactor i * (l.width.toInt * l.height.toInt) := req_cast i
  unfold check ConfigRegs.w ConfigRegs.h
  dsimp only
  refine ⟨fun reserved => ?_, fun command => ?_⟩
  · rw [if_pos reserved, Ref.errNumber]
  rw [if_neg (by simp [command])]
  refine ⟨fun side => ?_, fun wPos hPos => ?_⟩
  · rw [if_pos side, Ref.errNumber]
  rw [if_neg (by omega), ← need wPos hPos]
  refine ⟨fun mismatch => ?_, fun length => ?_⟩
  · rw [if_pos mismatch, Ref.errNumber]
  rw [if_neg (not_not_intro length)]
  refine ⟨fun large => ?_, fun widthFits heightFits => ?_⟩
  · rw [if_pos large, Ref.errNumber]
  rw [if_neg (by omega)]
  refine ⟨fun outside => ?_, fun bufFits => ?_⟩
  · rw [if_pos (by omega), Ref.errNumber]
  rw [if_neg (by omega)]
  refine ⟨fun needed outside => ?_, fun scrFits => ?_⟩
  · rw [if_pos (by omega), Ref.errNumber]
  rw [if_neg (by omega)]
  refine ⟨fun short => ?_, fun scrLen => ?_⟩
  · rw [if_pos (by omega), Ref.errNumber]
  rw [if_neg (by omega)]
  refine ⟨fun needed above below => ?_, fun disjoint => ?_⟩
  · rw [if_pos (by omega), Ref.errNumber]
  · rw [if_neg (by omega), Ref.errNumber]

/-! ## The failure -/

/-- R23, R226: the STATUS word of a failure has DONE and ERR set and the code in ERRCODE. -/
theorem statusWord_failed (code : ErrCode) :
    statusWord false true true code .idle = BitVec.ofNat 32 (0x06 + 0x10 * Ref.errNumber code) := by
  cases code
  all_goals rfl

/-- Settles O32: `exec` is then the shared failure effect with the check's code. -/
theorem failureWritesStatusOnly : Obligations.FailureWritesStatusOnly := fun i s failed =>
  ⟨_, exec_fails i s failed, s.fail_busy _, s.fail_stage _, s.fail_done _, s.fail_err _, s.fail_errCode _,
    statusWord_failed _, s.fail_result _, s.fail_mem _, rfl, rfl, rfl, rfl, rfl, rfl, rfl⟩

/-- Settles O33: a reserved instruction fails its first check, so its step is the failure with ERR_CONFIG. -/
theorem reservedEncodingsFail : Obligations.ReservedEncodingsFail := by
  refine ⟨isReserved_decode_iff, fun i s reserved => ?failure, fun i p l command => check_ne_config command p l⟩
  have code := check_reserved i s.params s.latched reserved
  obtain ⟨t, ran, busy, stage, done, err, errCode, -, result, mem, setup⟩ :=
    failureWritesStatusOnly i s (by rw [code]; exact ErrCode.noConfusion)
  exact ⟨t, ran, busy, stage, done, err, by rw [errCode, code, ErrCode.code], result, mem, setup⟩

end Sys2Proof.Machine
end

section
/-! PROOF. Reading back a configuration register (spec/10_state.md R24 to R33, spec/70_reset_and_hazards.md R259): what the
block reads as after an idle engine took a write of one of the ten. -/

namespace Sys2Proof.Machine

open Sys2Proof

/-! ## The block after a configuration write -/

theorem State.writeReg_config_idle (s : State) {r : Reg} (v : Word) (hr : Ref.isConfig r = true) (idle : s.busy = false) :
    s.writeReg r v = { s with regs := ConfigRegs.write s.regs r v } := by
  rw [s.writeReg_config v hr, idle, if_neg Bool.false_ne_true]

/-- Three of the ten registers keep fewer bits than a word; reading them extends by zeros, which is the mask. -/
theorem State.regWord_config_write_same (s : State) {r : Reg} (v : Word) (hr : Ref.isConfig r = true) :
    State.regWord { s with regs := ConfigRegs.write s.regs r v } r = v &&& Ref.rwMask r := by
  cases r
  case cmd => exact setWidth_eq_and v 12
  case pct => exact setWidth_eq_and v 14
  case sigma => exact setWidth_eq_and v 16
  case bufAddr | bufLen | width | height | scrAddr | scrLen | fthr => exact BitVec.and_allOnes.symm
  case id | ctrl | status | result | reserved38 | reserved3C => cases hr

/-- A register outside the ten does not read `regs`; one of the ten reads the one field that its own write sets. -/
theorem State.regWord_config_write_other (s : State) {r q : Reg} (v : Word) (other : q ≠ r) :
    State.regWord { s with regs := ConfigRegs.write s.regs r v } q = s.regWord q := by
  cases q
  case id | ctrl | status | result | reserved38 | reserved3C => rfl
  case cmd | bufAddr | bufLen | width | height | scrAddr | scrLen | pct | fthr | sigma =>
    cases r <;> try rfl
    exact absurd rfl other

/-- Settles O13: the write is a step that runs `writeReg`, which sets one field of `regs` when idle and nothing when
busy. -/
theorem configWriteReadsBack : Obligations.ConfigWriteReadsBack := by
  intro s r v rest hr he
  refine ⟨fun idle => ?idle, fun busy => (busyKeepsConfiguration s v rest busy).1 r hr he⟩
  have write : step s = .next { s with regs := ConfigRegs.write s.regs r v, events := rest } := by
    rw [step_wr s r v rest he, State.writeReg_config_idle { s with events := rest } v hr idle]
  exact ⟨_, write, State.regWord_config_write_same { s with events := rest } v hr,
    fun q other => State.regWord_config_write_other { s with events := rest } v other,
    rfl, idle, rfl, rfl, rfl, rfl, rfl, rfl⟩

end Sys2Proof.Machine
end

section
/-! PROOF. What one step of the machine can change (spec/70_reset_and_hazards.md R262): the shared inversion lemma refined
for the engine's own step and for register writes, and the rules that hold of every step: the legal states, the parameters,
BUSY and RESULT. -/

namespace Sys2Proof.Machine

open Sys2Proof

/-! ## The engine's own step -/

section
variable {s u : State} (moved : EngineFrom s u)
include moved

theorem EngineFrom.latched_eq : u.latched = s.latched := by rw [moved.eq]

theorem EngineFrom.params_eq : u.params = s.params := by rw [moved.eq]

theorem EngineFrom.result_eq : u.result = s.result := by rw [moved.eq]

theorem EngineFrom.mem_eq : u.mem = s.mem := by rw [moved.eq]

theorem EngineFrom.running_eq : u.running = s.running := by rw [State.running, moved.latched_eq, State.running]

/-- R257: the failed poll of a busy engine's WAIT observes no end. -/
theorem EngineFrom.unseen_eq (busy : s.busy = true) : u.unseen = s.unseen := by
  cases moved with
  | now es => rfl
  | polled off w => rw [State.readBlock_unseen, if_neg (by simp [busy])]

end

/-- How a command ends (R226, R229): with its checks failed or passed, from the state the engine moves from. -/
inductive EngineEnds (s : State) : State → Prop
  | fails (u : State) (moved : EngineFrom s u) (failed : check s.running s.params s.latched ≠ .none) :
      EngineEnds s (u.fail (check s.running s.params s.latched))
  | completes (u : State) (out : Nat → Byte) (r : Nat) (moved : EngineFrom s u)
      (passed : check s.running s.params s.latched = .none) : EngineEnds s (u.complete s.running out r)

/-- The inversion of `step` in the given state's own command. -/
theorem step_ends_or_moves {s t : State} (h : step s = .next t) :
    (s.busy = true ∧ EngineEnds s t) ∨ OtherMove s t := by
  refine (step_cases h).imp_left ?_
  rintro ⟨u, busy, moved, ran⟩
  refine ⟨busy, ?_⟩
  have ends := exec_running_cases ran
  rw [moved.running_eq, moved.params_eq, moved.latched_eq] at ends
  rcases ends with ⟨failed, rfl⟩ | ⟨passed, out, r, rfl⟩
  · exact .fails u moved failed
  · exact .completes u out r moved passed

theorem EngineEnds.busy_eq {s t : State} (ends : EngineEnds s t) : t.busy = false := by
  cases ends
  all_goals rfl

/-! ## The legal states -/

/-- The fields that the invariant does not speak of take any value. -/
theorem State.Inv.withBookkeeping {s : State} (h : s.Inv) (irqEn : Bool) (result : Word) (input : Memory)
    (inputDraw : Option Nat) (touched : Bool) (unseen : List EndedCommand) (posted : List Host.Cell) (events : List Event)
    (reply : Reply) (draws : Nat) :
    State.Inv { s with
      irqEn := irqEn, result := result, input := input, inputDraw := inputDraw, touched := touched, unseen := unseen,
      posted := posted, events := events, reply := reply, draws := draws } :=
  ⟨h.memCanonical, h.memInside, h.errIff, h.busyClean, h.idleStage, h.latchedIsRegs, h.stageInSequence⟩

/-- 20_memory.md R60: a memory that is canonical and inside takes the place of another. -/
theorem State.Inv.withMemory {s : State} (h : s.Inv) {m : Memory} (canonical : Memory.wf m)
    (inside : Memory.within m s.params.memSize) : State.Inv { s with mem := m } :=
  ⟨canonical, inside, h.errIff, h.busyClean, h.idleStage, h.latchedIsRegs, h.stageInSequence⟩

/-- R63: the output and the scratch range of a command whose checks pass lie in memory. -/
theorem State.writeBack_within {s : State} {i : Instr} (passed : check i s.params s.latched = .none) (out : Nat → Byte)
    (inside : Memory.within s.mem s.params.memSize) : Memory.within (s.writeBack i out) s.params.memSize := by
  have passes := (check_eq_none_iff ..).1 passed
  have buffer := passes.bufFits
  rw [← passes.bufBytes] at buffer
  have scratch : req i s.latched = 0 ∨ s.latched.scrAddr.toNat + req i s.latched ≤ s.params.memSize :=
    (Nat.eq_zero_or_pos _).imp_right passes.scrFits
  exact Memory.fill_within _ _ _ _ _ (Memory.fill_within _ _ _ _ _ inside (.inr buffer)) scratch

theorem State.Inv.fail {s : State} (h : s.Inv) {code : ErrCode} (failed : code ≠ .none) : (s.fail code).Inv where
  memCanonical := h.memCanonical
  memInside := h.memInside
  errIff := iff_of_false nofun failed
  busyClean busy := nomatch busy
  idleStage _ := rfl
  latchedIsRegs busy := nomatch busy
  stageInSequence busy := nomatch busy

theorem State.Inv.complete {s : State} (h : s.Inv) {i : Instr} (passed : check i s.params s.latched = .none)
    (out : Nat → Byte) (r : Nat) : (s.complete i out r).Inv where
  memCanonical := Memory.fill_wf _ _ _ _ (Memory.fill_wf _ _ _ _ h.memCanonical)
  memInside := s.writeBack_within passed out h.memInside
  errIff := h.errIff
  busyClean busy := nomatch busy
  idleStage _ := rfl
  latchedIsRegs busy := nomatch busy
  stageInSequence busy := nomatch busy

theorem State.Inv.acceptStart {s : State} (h : s.Inv) (e : Bool) : (s.acceptStart e).Inv where
  memCanonical := h.memCanonical
  memInside := h.memInside
  errIff := iff_of_true rfl rfl
  busyClean _ := ⟨rfl, rfl⟩
  idleStage idle := nomatch idle
  latchedIsRegs _ := rfl
  stageInSequence _ := (s.acceptStart e).check_mem_stageSequence

/-- R23: ERR and ERRCODE are cleared together. -/
theorem State.Inv.writeStatus {s : State} (h : s.Inv) (v : Word) : (s.writeStatus v).Inv where
  memCanonical := h.memCanonical
  memInside := h.memInside
  errIff := by
    rw [State.writeStatus_err, State.writeStatus_errCode]
    cases v.getLsbD 2 with
    | true => simp
    | false => simpa using h.errIff
  busyClean busy := by
    obtain ⟨done, err⟩ := h.busyClean busy
    rw [State.writeStatus_done, State.writeStatus_err, done, err]
    exact ⟨rfl, rfl⟩
  idleStage := h.idleStage
  latchedIsRegs := h.latchedIsRegs
  stageInSequence := h.stageInSequence

theorem State.Inv.blockWrite {s t : State} (h : s.Inv) (wrote : BlockWrite s t) : t.Inv := by
  cases wrote with
  | ignored => exact h
  | start e _ => exact h.acceptStart e
  | irqEn e => exact h.withBookkeeping ..
  | status v => exact h.writeStatus v
  | config r v idle =>
    exact ⟨h.memCanonical, h.memInside, h.errIff, h.busyClean, h.idleStage,
      fun busy => absurd busy (by simp [idle]), h.stageInSequence⟩

/-- R36: the stage a read shows is drawn from the running command's sequence. -/
theorem State.Inv.readBlock {s : State} (h : s.Inv) (off : Nat) (w : AccessWidth) : (s.readBlock off w).Inv := by
  have idle : s.busy = false → (s.readBlock off w).stage = .idle := fun idle => by
    rcases s.readBlock_stage off w with same | ⟨busy, -⟩
    · exact same.trans (h.idleStage idle)
    · exact absurd busy (by simp [idle])
  have running : s.busy = true → (s.readBlock off w).stage ∈ s.stageSequence := fun busy => by
    rcases s.readBlock_stage off w with same | ⟨-, drawn⟩
    · exact same ▸ h.stageInSequence busy
    · exact drawn ▸ s.stagesLeft_sub _ (s.drawStage_mem (h.stageInSequence busy))
  rw [State.readBlock_eq]
  exact ⟨h.memCanonical, h.memInside, h.errIff, h.busyClean, idle, h.latchedIsRegs, running⟩

theorem State.Inv.hostStore {s : State} (h : s.Inv) {addr : Nat} {bs : List Byte}
    (reaches : bs.length = 0 ∨ addr + bs.length ≤ s.params.memSize) : (s.hostStore addr bs).Inv :=
  (h.withMemory (s.memAfterStore_wf addr bs h.memCanonical)
    (s.memAfterStore_within addr bs h.memInside reaches)).withBookkeeping ..

theorem State.Inv.platformReset {s : State} (h : s.Inv) : s.platformReset.Inv where
  memCanonical := by
    rw [State.platformReset_mem, State.memAfterReset]
    split
    · exact Memory.freeRanges_wf _ _ _ _ h.memCanonical
    · exact h.memCanonical
  memInside := by
    rw [State.platformReset_mem, State.memAfterReset]
    split
    · exact Memory.freeRanges_within _ _ _ _ h.memInside
    · exact h.memInside
  errIff := iff_of_true rfl rfl
  busyClean busy := nomatch busy
  idleStage _ := rfl
  latchedIsRegs busy := nomatch busy
  stageInSequence busy := nomatch busy

theorem Params.reaches_iff (p : Params) (addr n : Nat) : p.reaches addr n = true ↔ n = 0 ∨ addr + n ≤ p.memSize := by
  rw [Params.reaches, Bool.or_eq_true, decide_eq_true_iff, decide_eq_true_iff]

theorem State.Inv.otherMove {s t : State} (h : s.Inv) (move : OtherMove s t) : t.Inv := by
  cases move with
  | stays => exact h
  | passes rest => exact h.withBookkeeping ..
  | writes rest addr w v => exact State.Inv.blockWrite (h.withBookkeeping ..) (State.writeBlock_cases _ _ w v)
  | reads rest addr w => exact State.Inv.readBlock (h.withBookkeeping ..) _ w
  | polls es rest r => exact (h.readBlock r.offset .word).withBookkeeping ..
  | sees rest => exact h.withBookkeeping ..
  | loads rest addr n => exact h.withBookkeeping ..
  | stores rest addr bs _ inside =>
    exact State.Inv.hostStore (h.withBookkeeping ..) ((Params.reaches_iff ..).1 inside)
  | posts rest addr bs => exact h.withBookkeeping ..
  | performs rest k c _ _ inside => exact State.Inv.hostStore (h.withBookkeeping ..) (.inr inside)
  | resets rest => exact State.Inv.platformReset (h.withBookkeeping ..)

theorem State.Inv.engineFrom {s u : State} (h : s.Inv) (moved : EngineFrom s u) : u.Inv := by
  cases moved with
  | now es => exact h.withBookkeeping ..
  | polled off w => exact h.readBlock off w

/-- Settles O8: the engine's step ends the command, by a failure or a completion; every other move keeps the invariant by
the rule of its operation. -/
theorem stepKeepsLegalStates : Obligations.StepKeepsLegalStates := by
  intro s t h stepped
  rcases step_ends_or_moves stepped with ⟨-, ends⟩ | move
  · cases ends with
    | fails u moved failed => exact (h.engineFrom moved).fail failed
    | completes u out r moved passed =>
      exact (h.engineFrom moved).complete (by rw [moved.params_eq, moved.latched_eq]; exact passed) out r
  · exact h.otherMove move

/-- Settles O7: no byte of memory is written, STATUS is 0, the sequencer is idle. -/
theorem resetStateIsLegal : Obligations.ResetStateIsLegal where
  memCanonical := List.Pairwise.nil
  memInside _ listed := nomatch listed
  errIff := iff_of_true rfl rfl
  busyClean busy := nomatch busy
  idleStage _ := rfl
  latchedIsRegs busy := nomatch busy
  stageInSequence busy := nomatch busy

/-! ## What a move of the host or of the platform leaves as it was -/

/-- R22, R23, R37, R255: what no write of the block touches, and what none touches while busy. -/
theorem BlockWrite.frame {s t : State} (wrote : BlockWrite s t) :
    t.params = s.params ∧ t.mem = s.mem ∧ t.result = s.result ∧ t.unseen = s.unseen
      ∧ (s.busy = true → t.busy = true ∧ t.touched = s.touched ∧ t.latched = s.latched) := by
  cases wrote with
  | start e idle => exact ⟨rfl, rfl, rfl, rfl, fun busy => absurd busy (by simp [idle])⟩
  | ignored | irqEn | status | config => exact ⟨rfl, rfl, rfl, rfl, fun busy => ⟨busy, rfl, rfl⟩⟩

theorem State.readBlock_touched (s : State) (off : Nat) (w : AccessWidth) :
    (s.readBlock off w).touched = s.touched := by rw [State.readBlock_eq]

theorem OtherMove.params_eq {s t : State} (move : OtherMove s t) : t.params = s.params := by
  cases move with
  | writes rest addr w v =>
    obtain ⟨params, -⟩ := (State.writeBlock_cases { s with events := rest } (addr - s.params.base) w v).frame
    exact params
  | reads | polls => exact State.readBlock_params ..
  | stays | passes | sees | loads | stores | posts | performs | resets => rfl

/-- No move but a reset writes RESULT, clears BUSY, or takes a busy engine's command or its note of a hazard away. -/
theorem OtherMove.frame_or_reset {s t : State} (move : OtherMove s t) :
    (t.result = s.result
        ∧ (s.busy = true → t.busy = true ∧ t.latched = s.latched ∧ (s.touched = true → t.touched = true)))
      ∨ ∃ rest, s.events = .reset :: rest := by
  cases move with
  | resets rest he => exact .inr ⟨rest, he⟩
  | writes rest addr w v =>
    obtain ⟨-, -, result, -, running⟩ :=
      (State.writeBlock_cases { s with events := rest } (addr - s.params.base) w v).frame
    refine .inl ⟨result, fun busy => ?_⟩
    obtain ⟨busy, touched, latched⟩ := running busy
    exact ⟨busy, latched, touched.trans⟩
  | reads | polls =>
    refine .inl ⟨State.readBlock_result .., fun busy => ⟨(State.readBlock_busy ..).trans busy, State.readBlock_latched ..,
      fun touched => (State.readBlock_touched ..).trans touched⟩⟩
  | stores | performs =>
    exact .inl ⟨rfl, fun busy => ⟨busy, rfl, fun touched => by simp [touched]⟩⟩
  | stays | passes | sees | loads | posts => exact .inl ⟨rfl, fun busy => ⟨busy, rfl, id⟩⟩

/-- Settles O9: neither the end of a command nor a move of the host or of the platform writes the parameters. -/
theorem stepKeepsParameters : Obligations.StepKeepsParameters := by
  intro s t stepped
  rcases step_ends_or_moves stepped with ⟨-, ends⟩ | move
  · cases ends with
    | fails u moved | completes u out r moved => exact moved.params_eq
  · exact move.params_eq

/-! ## BUSY and RESULT -/

/-- R22: without START, a write of CTRL reaches IRQ_EN alone. -/
theorem State.writeReg_ctrl_noStart (s : State) {v : Word} (noStart : v.getLsbD 0 = false) :
    s.writeReg .ctrl v = { s with irqEn := v.getLsbD 1 } :=
  if_neg (by rw [noStart, Bool.false_and]; exact Bool.false_ne_true)

/-- R37, R255: a register write that makes the engine busy is one of CTRL with START. -/
theorem State.writeReg_starts {s : State} {r : Reg} {v : Word} (idle : s.busy = false)
    (started : (s.writeReg r v).busy = true) : r = .ctrl ∧ v.getLsbD 0 = true := by
  have stays : s.busy ≠ true := by simp [idle]
  cases r
  case ctrl =>
    refine ⟨rfl, ?_⟩
    by_contra noStart
    rw [s.writeReg_ctrl_noStart (Bool.eq_false_of_not_eq_true noStart)] at started
    exact stays started
  case id | status | result | reserved38 | reserved3C => exact absurd started stays
  all_goals
    rw [s.writeReg_config_idle v rfl idle] at started
    exact absurd started stays

theorem regOfOffset_eq_ctrl {off : Nat} (h : regOfOffset off = .ctrl) : off / 4 = 1 := by
  unfold regOfOffset at h
  split at h
  case h_2 quotient => exact quotient
  all_goals cases h

theorem State.writeBlock_starts {s : State} {off : Nat} {w : AccessWidth} {v : Word} (idle : s.busy = false)
    (started : (s.writeBlock off w v).busy = true) :
    w = .word ∧ off = Reg.ctrl.offset ∧ v.getLsbD 0 = true ∧ (s.writeBlock off w v).latched = s.regs := by
  unfold State.writeBlock at started ⊢
  split at started
  case isTrue whole =>
    obtain ⟨ctrl, start⟩ := State.writeReg_starts idle started
    have lanes : off % 4 = 0 := by
      obtain ⟨rfl, aligned⟩ := whole
      exact of_decide_eq_true aligned
    have quotient := regOfOffset_eq_ctrl ctrl
    rw [if_pos whole, ctrl, s.writeReg_ctrl_start start idle]
    exact ⟨whole.1, show off = 4 by omega, start, rfl⟩
  case isFalse => exact absurd started (by simp [idle])

/-- Settles O53: BUSY rises at a register write alone, and there at a CTRL write with START. -/
theorem onlyStartSetsBusy : Obligations.OnlyStartSetsBusy := by
  intro s t stepped idle busy
  have stays : s.busy ≠ true := by simp [idle]
  rcases step_ends_or_moves stepped with ⟨was, -⟩ | move
  · exact absurd was stays
  cases move with
  | writes rest addr w v he inside =>
    obtain ⟨rfl, offset, start, latched⟩ := State.writeBlock_starts (s := { s with events := rest }) idle busy
    have base := (inRange_iff ..).1 inside
    exact ⟨addr, v, rest, he, by omega, start, latched⟩
  | reads | polls => exact absurd ((State.readBlock_busy ..).symm.trans busy) stays
  | resets => exact absurd busy Bool.false_ne_true
  | stays | passes | sees | loads | stores | posts | performs => exact absurd busy stays

/-- Settles O54: the end of the command notes it with whether its checks passed; of the other moves a reset alone clears
BUSY. -/
theorem onlyEndOrResetClearsBusy : Obligations.OnlyEndOrResetClearsBusy := by
  intro s t stepped busy ended
  rcases step_ends_or_moves stepped with ⟨-, ends⟩ | move
  · left
    cases ends with
    | fails u moved failed =>
      refine ⟨rfl, false, ?_, iff_of_false Bool.false_ne_true failed⟩
      rw [State.fail_unseen, moved.latched_eq, moved.unseen_eq busy]
    | completes u out r moved passed =>
      refine ⟨rfl, true, ?_, iff_of_true rfl passed⟩
      rw [State.complete_unseen, moved.latched_eq, moved.unseen_eq busy]
  · refine move.frame_or_reset.imp_left fun ⟨_, running⟩ => ?_
    obtain ⟨still, -⟩ := running busy
    exact absurd (still.symm.trans ended) (by decide)

/-- Settles O55: a failure keeps RESULT, and of the other moves a reset alone writes it. -/
theorem onlySuccessWritesResult : Obligations.OnlySuccessWritesResult := by
  intro s t stepped changed
  rcases step_ends_or_moves stepped with ⟨busy, ends⟩ | move
  · left
    cases ends with
    | fails u moved failed => exact absurd moved.result_eq changed
    | completes u out r moved passed => exact ⟨busy, rfl, rfl, passed⟩
  · exact move.frame_or_reset.imp_left fun ⟨result, _⟩ => absurd result changed

end Sys2Proof.Machine
end

section
/-! PROOF. The bytes of shared memory (spec/20_memory.md R61 to R67, R70; spec/70_reset_and_hazards.md R252, R256 to R258):
the ranges of a command against the reference's, what a byte is after each operation on memory, and the statements on
ranges, reset, host stores and host loads. -/

namespace Sys2Proof.Machine

open Sys2Proof

/-! ## The ranges of a command -/

theorem ConfigRegs.owns_iff_ownedBy (l : ConfigRegs) (a : Nat) : l.owns a = true ↔ Ref.ownedBy l a := by
  rw [l.owns_iff, req_eq_scratchFactor]
  rfl

/-- R256, R257: the model's disturbed bytes are the reference's. -/
theorem State.disturbs_iff (s : State) (addr n a : Nat) : s.disturbs addr n a ↔ Ref.disturbs s addr n a := by
  unfold State.disturbs Ref.disturbs
  simp only [ConfigRegs.ownsSome_iff, ConfigRegs.owns_iff_ownedBy]
  exact exists_congr fun e => and_congr_right fun _ => and_congr_right fun _ => and_comm

/-- R67, R257: a host load that returns a free byte where no store is outstanding. -/
theorem State.unsettled_iff (s : State) (a : Nat) :
    ((s.busy && s.owns a) || s.ownsUnseen a) = true ↔ Ref.unsettled s a := by
  rw [Bool.or_eq_true, Bool.and_eq_true, s.ownsUnseen_iff, State.owns]
  simp only [ConfigRegs.owns_iff_ownedBy]
  rfl

theorem State.hostByte_settled {s : State} {a : Nat} (posted : s.posted = []) (settled : ¬Ref.unsettled s a) :
    s.hostByte a = Memory.byteAt s.mem a := by
  rw [← s.unsettled_iff] at settled
  rw [State.hostByte, if_neg (by rw [posted, List.any_nil, Bool.or_false]; exact settled)]

theorem State.hostByte_unsettled {s : State} {a : Nat} (unsettled : Ref.unsettled s a) :
    s.hostByte a = Config.freeByte s.draws a := by
  rw [State.hostByte, if_pos (by rw [(s.unsettled_iff a).2 unsettled, Bool.true_or])]

/-- Settles O31: the checks on the buffer and on the scratch range, with the length check giving the buffer's size. -/
theorem passedChecksBoundRanges : Obligations.PassedChecksBoundRanges := by
  intro i s passed
  have passes := (check_eq_none_iff ..).1 passed
  have buffer : s.latched.bufLen.toNat = 4 * (s.latched.w.toNat * s.latched.h.toNat) := passes.bufBytes.symm
  have fits := passes.bufFits
  have scratchFits := passes.scrFits
  have disjoint := passes.disjoint
  rw [req_eq_scratchFactor] at scratchFits disjoint
  unfold Ref.inBuffer Ref.inScratch
  refine ⟨fun a owned => ?_, fun a ⟨inBuffer, inScratch⟩ => ?_⟩
  · omega
  · omega

/-! ## A byte after the end of a command -/

/-- R63: no byte outside the two ranges changes. -/
theorem State.byteAt_writeBack_off {s : State} {i : Instr} {a : Nat} (out : Nat → Byte) (offBuffer : ¬Ref.inBuffer s a)
    (offScratch : ¬Ref.inScratch i s a) : Memory.byteAt (s.writeBack i out) a = Memory.byteAt s.mem a := by
  unfold Ref.inScratch at offScratch
  rw [← req_eq_scratchFactor] at offScratch
  rw [s.byteAt_writeBack, if_neg offScratch]
  exact if_neg offBuffer

theorem State.byteAt_writeBack_scratch {s : State} {i : Instr} {a : Nat} (out : Nat → Byte) (h : Ref.inScratch i s a) :
    Memory.byteAt (s.writeBack i out) a = Config.freeByte s.draws a := by
  unfold Ref.inScratch at h
  rw [← req_eq_scratchFactor] at h
  rw [s.byteAt_writeBack, if_pos h]

theorem State.byteAt_writeBack_buffer {s : State} {i : Instr} {a : Nat} (out : Nat → Byte)
    (passed : check i s.params s.latched = .none) (h : Ref.inBuffer s a) :
    Memory.byteAt (s.writeBack i out) a
      = if s.touched then Config.freeByte s.draws a else out (a - s.latched.bufAddr.toNat) := by
  have offScratch := not_and.1 ((passedChecksBoundRanges i s passed).2 a) h
  unfold Ref.inScratch at offScratch
  rw [← req_eq_scratchFactor] at offScratch
  rw [s.byteAt_writeBack, if_neg offScratch]
  exact if_pos h

theorem State.byteAt_writeBack_untouched {s : State} {i : Instr} {a : Nat} (out : Nat → Byte)
    (passed : check i s.params s.latched = .none) (untouched : s.touched = false) (h : Ref.inBuffer s a) :
    Memory.byteAt (s.writeBack i out) a = out (a - s.latched.bufAddr.toNat) := by
  rw [State.byteAt_writeBack_buffer out passed h, untouched, if_neg Bool.false_ne_true]

/-- R256: after a hazard the completion leaves every byte of both ranges free. -/
theorem State.byteAt_writeBack_touched {s : State} {i : Instr} {a : Nat} (out : Nat → Byte)
    (passed : check i s.params s.latched = .none) (touched : s.touched = true)
    (owned : Ref.inBuffer s a ∨ Ref.inScratch i s a) :
    Memory.byteAt (s.writeBack i out) a = Config.freeByte s.draws a := by
  rcases owned with inBuffer | inScratch
  · rw [State.byteAt_writeBack_buffer out passed inBuffer, if_pos touched]
  · exact State.byteAt_writeBack_scratch out inScratch

/-- Settles O34: the completion, whose result is taken modulo 2^32 into RESULT. -/
theorem passedCommandCompletes : Obligations.PassedCommandCompletes := by
  intro i s passed
  have ran := exec_completes i s passed
  generalize imageByte _ _ = out at ran
  generalize Work.result _ = r at ran
  have result : s.complete i out r = s.complete i out (BitVec.ofNat 32 r).toNat := by
    rw [State.complete, State.complete, BitVec.ofNat_toNat, BitVec.setWidth_eq]
  rw [result] at ran
  exact ⟨_, _, ran, s.complete_completed i out (BitVec.isLt _), fun a => State.byteAt_writeBack_scratch out⟩

/-! ## A byte after a reset -/

theorem step_reset (s : State) (rest : List Event) (h : s.events = .reset :: rest) :
    step s = .next (State.platformReset { s with events := rest }) := by
  simp only [step, State.nextMove, h, State.eventMove]

/-- R252: the bytes of the running command's ranges that lie in memory are free. -/
theorem State.byteAt_memAfterReset_owned {s : State} {a : Nat} (busy : s.busy = true) (owned : Ref.ownedBy s.latched a)
    (inside : a < s.params.memSize) : Memory.byteAt s.memAfterReset a = Config.freeByte s.draws a := by
  rw [State.memAfterReset, if_pos busy, Memory.byteAt_freeRanges,
    if_pos ⟨(ConfigRegs.owns_iff_ownedBy ..).2 owned, inside⟩]

/-- R251, R252: no other byte changes. -/
theorem State.byteAt_memAfterReset_off {s : State} {a : Nat} (off : ¬(s.busy = true ∧ Ref.ownedBy s.latched a)) :
    Memory.byteAt s.memAfterReset a = Memory.byteAt s.mem a := by
  unfold State.memAfterReset
  split
  case isTrue busy =>
    rw [Memory.byteAt_freeRanges, if_neg]
    rintro ⟨owned, -⟩
    exact off ⟨busy, (ConfigRegs.owns_iff_ownedBy ..).1 owned⟩
  case isFalse => rfl

/-- Settles O11: the running command's ranges, as far as they lie in memory, are freed and nothing else is written. -/
theorem resetWhileBusyFreesRanges : Obligations.ResetWhileBusyFreesRanges := by
  intro s rest busy he
  refine ⟨_, step_reset s rest he, rfl, rfl, rfl, fun a inside owned => ?_, fun a offBuffer offScratch => ?_⟩
  · exact State.byteAt_memAfterReset_owned (s := { s with events := rest }) busy owned inside
  · exact State.byteAt_memAfterReset_off fun ⟨_, owned⟩ => owned.elim offBuffer offScratch

/-- Settles O12: with BUSY = 0 no range is freed. -/
theorem resetWhileIdleKeepsMemory : Obligations.ResetWhileIdleKeepsMemory := by
  intro s rest idle he
  refine ⟨_, step_reset s rest he, ?_⟩
  rw [State.platformReset_mem, State.memAfterReset, if_neg (by simp [idle])]

/-- Settles O10: every register is a field that `platformReset` takes from `State.reset`. -/
theorem resetValuesOfRegisters : Obligations.ResetValuesOfRegisters := by
  have atReset : ∀ r, State.reset.regWord r = Ref.resetWord r := by
    intro r
    cases r
    all_goals rfl
  have afterReset (s : State) : ∀ r, s.platformReset.regWord r = State.reset.regWord r := by
    intro r
    cases r
    all_goals rfl
  exact ⟨atReset, fun s rest he => ⟨_, step_reset s rest he, fun r => (afterReset _ r).trans (atReset r),
    rfl, rfl, rfl, rfl, rfl, rfl, rfl, rfl⟩⟩

/-! ## A byte after a host store -/

theorem State.byteAt_memAfterStore_disturbed {s : State} {addr a : Nat} {bs : List Byte} (inside : a < s.params.memSize)
    (disturbed : Ref.disturbs s addr bs.length a) :
    Memory.byteAt (s.memAfterStore addr bs) a = Config.freeByte s.draws a := by
  rw [s.byteAt_memAfterStore, if_pos ⟨inside, (s.disturbs_iff ..).2 disturbed⟩]

theorem State.byteAt_memAfterStore_undisturbed {s : State} {addr a : Nat} {bs : List Byte}
    (undisturbed : ¬Ref.disturbs s addr bs.length a) :
    Memory.byteAt (s.memAfterStore addr bs) a
      = if addr ≤ a ∧ a < addr + bs.length then bs.getD (a - addr) 0#8 else Memory.byteAt s.mem a := by
  rw [s.byteAt_memAfterStore, if_neg]
  exact fun ⟨_, disturbed⟩ => undisturbed ((s.disturbs_iff ..).1 disturbed)

theorem State.byteAt_memAfterStore_off {s : State} {addr a : Nat} {bs : List Byte}
    (off : ¬((addr ≤ a ∧ a < addr + bs.length) ∨ Ref.disturbs s addr bs.length a)) :
    Memory.byteAt (s.memAfterStore addr bs) a = Memory.byteAt s.mem a := by
  obtain ⟨outside, undisturbed⟩ := not_or.1 off
  rw [State.byteAt_memAfterStore_undisturbed undisturbed, if_neg outside]

/-! ## Every change of a byte has an owner -/

theorem EngineEnds.byteAt_off {s t : State} {a : Nat} (ends : EngineEnds s t) (off : ¬Ref.ownedBy s.latched a) :
    Memory.byteAt t.mem a = Memory.byteAt s.mem a := by
  cases ends with
  | fails u moved => rw [State.fail_mem, moved.mem_eq]
  | completes u out r moved =>
    rw [← moved.latched_eq] at off
    obtain ⟨offBuffer, offScratch⟩ : ¬Ref.inBuffer u a ∧ ¬Ref.inScratch u.running u a := not_or.1 off
    rw [← moved.running_eq, State.complete_mem, State.byteAt_writeBack_off out offBuffer offScratch, moved.mem_eq]

/-- Settles O56: the end of a command writes its ranges, a reset frees those of the running one, a host store writes its
bytes and the ranges it disturbs; no other move writes memory. -/
theorem onlyOwnersChangeMemory : Obligations.OnlyOwnersChangeMemory := by
  intro s t a stepped changed
  rcases step_ends_or_moves stepped with ⟨busy, ends⟩ | move
  · exact .inl ⟨busy, not_not.1 fun off => changed (ends.byteAt_off off)⟩
  cases move with
  | resets rest he =>
    exact .inl (not_not.1 fun off => changed (State.byteAt_memAfterReset_off (s := { s with events := rest }) off))
  | stores rest addr bs he inside =>
    exact .inr (.inl ⟨addr, bs, rest, he, not_not.1 fun off =>
      changed (State.byteAt_memAfterStore_off (s := { s with events := rest }) off)⟩)
  | performs rest k c he hc inside =>
    refine .inr (.inr ⟨k, c, rest, he, hc, not_not.1 fun off => changed ?_⟩)
    obtain ⟨other, undisturbed⟩ := not_or.1 off
    refine State.byteAt_memAfterStore_off (s := { s with events := rest, posted := s.posted.eraseIdx k }) ?_
    exact not_or.2 ⟨fun ⟨_, _⟩ => other (by simp only [List.length_singleton] at *; omega), undisturbed⟩
  | writes rest addr w v =>
    obtain ⟨-, mem, -⟩ := (State.writeBlock_cases { s with events := rest } (addr - s.params.base) w v).frame
    exact absurd (congrArg (Memory.byteAt · a) mem) changed
  | reads | polls => exact absurd (congrArg (Memory.byteAt · a) (State.readBlock_mem ..)) changed
  | stays | passes | sees | loads | posts => exact absurd rfl changed

/-! ## A host store and the load after it -/

/-- A host load inside memory, as a step (R70). -/
theorem step_memRead (s : State) (addr n : Nat) (rest : List Event) (inside : addr + n ≤ s.params.memSize)
    (h : s.events = .memRead addr n :: rest) : step s = .next (State.hostLoad { s with events := rest } addr n) := by
  have reaches := (Params.reaches_iff s.params addr n).2 (.inr inside)
  simp only [step, State.nextMove, h, State.eventMove, reaches, if_true]

/-- Settles O23: no byte stored is unsettled, so no range is disturbed by the store and none is free to the load. -/
theorem hostStoreThenLoad : Obligations.HostStoreThenLoad := by
  intro s addr bs rest idle posted inside settled he
  have undisturbed (a : Nat) : ¬Ref.disturbs s addr bs.length a := by
    rintro ⟨e, noted, -, -, hit, above, below, owned⟩
    exact settled hit above below (.inr ⟨e, noted, owned⟩)
  let t := State.hostStore { s with events := .memRead addr bs.length :: rest } addr bs
  have stored (a : Nat) : Memory.byteAt t.mem a
      = if addr ≤ a ∧ a < addr + bs.length then bs.getD (a - addr) 0#8 else Memory.byteAt s.mem a :=
    State.byteAt_memAfterStore_undisturbed (s := { s with events := _ }) (undisturbed a)
  have storedAt (k : Nat) (hk : k < bs.length) : Memory.byteAt t.mem (addr + k) = bs.getD k 0#8 := by
    rw [stored, if_pos (by omega), Nat.add_sub_cancel_left]
  have loaded : (List.range bs.length).map (fun k => State.hostByte { t with events := rest } (addr + k)) = bs := by
    refine List.ext_getElem (by simp) fun k _ hk => ?_
    rw [List.getElem_map, List.getElem_range,
      State.hostByte_settled (s := { t with events := rest }) posted (settled _ (by omega) (by omega))]
    exact (storedAt k hk).trans (List.getD_eq_getElem ..)
  refine ⟨t, _, step_memWrite s addr bs _ inside he, step_memRead t addr bs.length rest inside rfl,
    congrArg Reply.bytes loaded, rfl, rfl, fun a outside => ?_, storedAt, rfl, rfl, idle, rfl, rfl, rfl, rfl, rfl, rfl, rfl,
    rfl, rfl⟩
  exact (stored a).trans (if_neg (by omega))

/-! ## What a host load returns, and until when -/

/-- R257: of the moves, those that observe the end are a read of an idle engine's STATUS, by itself or in a WAIT, and a wait
that sees the interrupt. -/
theorem OtherMove.unseen_eq_or_observes {s t : State} (move : OtherMove s t) :
    t.unseen = s.unseen
      ∨ (s.busy = false ∧ ∃ w rest, s.events = .regRead (s.params.base + Reg.status.offset) w :: rest)
      ∨ (s.busy = false ∧ ∃ hi lo v polls rest, s.events = .wait .status hi lo v polls :: rest)
      ∨ (s.irq = true ∧ ∃ rest, s.events = .waitIrq :: rest) := by
  cases move with
  | reads rest addr w he inBlock =>
    rw [State.readBlock_unseen]
    split
    case isTrue observes =>
      obtain ⟨-, offset, idle⟩ := observes
      have base := (inRange_iff ..).1 inBlock
      have status : addr = s.params.base + Reg.status.offset := by omega
      exact .inr (.inl ⟨idle, w, rest, status ▸ he⟩)
    case isFalse => exact .inl rfl
  | polls es rest r hi lo v n he =>
    show (s.readBlock r.offset .word).unseen = s.unseen ∨ _
    rw [State.readBlock_unseen]
    split
    case isTrue observes =>
      obtain ⟨-, offset, idle⟩ := observes
      exact .inr (.inr (.inl ⟨idle, hi, lo, v, n, rest, Reg.offset_injective offset ▸ he⟩))
    case isFalse => exact .inl rfl
  | sees rest he shown => exact .inr (.inr (.inr ⟨shown, rest, he⟩))
  | writes rest addr w v =>
    obtain ⟨-, -, -, unseen, -⟩ := (State.writeBlock_cases { s with events := rest } (addr - s.params.base) w v).frame
    exact .inl unseen
  | stays | passes | loads | stores | posts | performs | resets => exact .inl rfl

/-- Settles O24: the load's one byte is `hostByte`, and the end of a command adds to the unobserved ones. -/
theorem hostLoadUntilEndIsSeen : Obligations.HostLoadUntilEndIsSeen := by
  constructor
  · intro s addr rest posted inside he
    exact ⟨_, s.hostByte addr, step_memRead s addr 1 rest inside he, rfl, State.hostByte_settled posted,
      State.hostByte_unsettled⟩
  · rintro s t stepped ⟨e, noted, observed⟩
    rcases step_ends_or_moves stepped with ⟨busy, ends⟩ | move
    · refine absurd ?_ observed
      cases ends with
      | fails u moved | completes u out r moved => exact List.mem_cons_of_mem _ (moved.unseen_eq busy ▸ noted)
    · exact move.unseen_eq_or_observes.resolve_left fun same => observed (same ▸ noted)

end Sys2Proof.Machine
end

section
/-! PROOF. Host stores while a command runs and before its end is observed (spec/70_reset_and_hazards.md R256 to R258;
spec/20_memory.md R67, R70; log 13, 14, 26, 27): a store and the completion after it, the hazard, and posted stores. -/

namespace Sys2Proof.Machine

open Sys2Proof

/-! ## A host store, at once or outstanding -/

/-- R70, R258: the next event performs a host store of `bs` at `addr`, a new one or an outstanding one, `rest` being the
events after it. -/
def State.storesNext (s : State) (addr : Nat) (bs : List Byte) (rest : List Event) : Prop :=
  s.events = .memWrite addr bs :: rest
    ∨ ∃ k b, bs = [b] ∧ s.posted[k]? = some (addr, b) ∧ s.events = .memPerform k :: rest

/-- The state after a host store, with `posted` outstanding and `events` to come. -/
def State.stored (s : State) (addr : Nat) (bs : List Byte) (posted : List Host.Cell) (events : List Event) : State :=
  State.hostStore { s with posted := posted, events := events } addr bs

theorem step_storesNext {s : State} {addr : Nat} {bs : List Byte} {rest : List Event}
    (inside : addr + bs.length ≤ s.params.memSize) (next : s.storesNext addr bs rest) :
    ∃ posted, step s = .next (s.stored addr bs posted rest) := by
  rcases next with he | ⟨k, b, rfl, hc, he⟩
  · exact ⟨s.posted, step_memWrite s addr bs rest inside he⟩
  · exact ⟨s.posted.eraseIdx k, step_memPerform s k (addr, b) rest hc inside he⟩

section
variable {s : State} {addr a : Nat} {bs : List Byte} {posted : List Host.Cell} {events : List Event}

theorem State.byteAt_stored (undisturbed : ¬Ref.disturbs s addr bs.length a) :
    Memory.byteAt (s.stored addr bs posted events).mem a
      = if addr ≤ a ∧ a < addr + bs.length then bs.getD (a - addr) 0#8 else Memory.byteAt s.mem a :=
  State.byteAt_memAfterStore_undisturbed (s := { s with posted := posted, events := events }) undisturbed

theorem State.byteAt_stored_disturbed (inside : a < s.params.memSize) (disturbed : Ref.disturbs s addr bs.length a) :
    Memory.byteAt (s.stored addr bs posted events).mem a = Config.freeByte s.draws a :=
  State.byteAt_memAfterStore_disturbed (s := { s with posted := posted, events := events }) inside disturbed

/-- R256: a store is noted as the hazard exactly where a busy engine owns a byte of it. -/
theorem State.stored_touched_iff :
    (s.stored addr bs posted events).touched = true ↔
      s.touched = true ∨ (s.busy = true ∧ ∃ hit, addr ≤ hit ∧ hit < addr + bs.length ∧ Ref.ownedBy s.latched hit) := by
  simp only [← ConfigRegs.owns_iff_ownedBy]
  exact State.hostStore_touched_iff { s with posted := posted, events := events } addr bs

end

/-- R262: a store changes neither the latched command nor its input, so the engine's step after it completes with the output
and the result of the run without the store. -/
theorem store_then_completion {s : State} {addr : Nat} {bs : List Byte} {rest : List Event} (busy : s.busy = true)
    (passed : check s.running s.params s.latched = .none) (inside : addr + bs.length ≤ s.params.memSize)
    (next : s.storesNext addr bs (.engine :: rest)) :
    ∃ posted out r, step s = .next (s.stored addr bs posted (.engine :: rest))
      ∧ step (s.stored addr bs posted (.engine :: rest))
          = .next ((s.stored addr bs posted rest).complete s.running out r)
      ∧ exec s.running s = .next (s.complete s.running out r) := by
  obtain ⟨posted, stored⟩ := step_storesNext inside next
  refine ⟨posted, _, _, stored, ?_, exec_completes s.running s passed⟩
  rw [step_engine (s.stored addr bs posted (.engine :: rest)) rest busy rfl]
  exact exec_completes s.running (s.stored addr bs posted rest) passed

/-! ## The hazard -/

/-- Settles O25: the store is noted in `touched`, every move but the end and a reset keeps the note, and a completion with it
frees both ranges; after the end, the store itself frees the ranges it disturbs. -/
theorem hazardStoreFreesRanges : Obligations.HazardStoreFreesRanges := by
  refine ⟨fun s addr bs hit rest busy passed above below inside owned => ⟨fun next => ?store, fun he => ?load⟩,
    fun s t stepped busy still touched => ?kept, fun s touched passed => ?completion,
    fun s e addr bs hit rest noted completed above below inside owned next => ?afterEnd⟩
  case store =>
    obtain ⟨posted, out, r, stored, completed, ran⟩ := store_then_completion busy passed inside next
    have touched : (s.stored addr bs posted rest).touched = true :=
      State.stored_touched_iff.2 (.inr ⟨busy, hit, above, below, owned⟩)
    refine ⟨_, _, _, stored, completed, ran, fun a owned => ?_, fun a offBuffer offScratch undisturbed => ?_,
      rfl, rfl, rfl, rfl, rfl, rfl, rfl⟩
    · exact State.byteAt_writeBack_touched out passed touched owned
    · exact (State.byteAt_writeBack_off (s := s.stored addr bs posted rest) out offBuffer offScratch).trans
        (State.byteAt_stored undisturbed)
  case load =>
    rw [step_memRead s hit 1 rest (by omega) he]
    have free : State.hostByte { s with events := rest } hit = Config.freeByte s.draws hit :=
      State.hostByte_unsettled (s := { s with events := rest }) (.inl ⟨busy, owned⟩)
    rw [← free]
    rfl
  case kept =>
    rcases step_ends_or_moves stepped with ⟨-, ends⟩ | move
    · exact absurd (ends.busy_eq.symm.trans still) Bool.false_ne_true
    rcases move.frame_or_reset with ⟨-, running⟩ | ⟨rest, he⟩
    · obtain ⟨-, latched, note⟩ := running busy
      exact ⟨note touched, latched⟩
    · rw [step_reset s rest he] at stepped
      cases stepped
      exact absurd still Bool.false_ne_true
  case completion =>
    exact ⟨_, exec_completes s.running s passed, fun a => State.byteAt_writeBack_touched _ passed touched⟩
  case afterEnd =>
    obtain ⟨posted, stored⟩ := step_storesNext inside next
    exact ⟨_, stored,
      fun a owner inMemory => State.byteAt_stored_disturbed inMemory ⟨e, noted, completed, owner, hit, above, below, owned⟩,
      fun a => State.byteAt_stored⟩

/-- Settles O26: such a store is not noted as a hazard, so the completion writes the output of the run without it. -/
theorem storeOutsideRangesLands : Obligations.StoreOutsideRangesLands := by
  intro s addr bs rest busy untouched passed inside off next
  obtain ⟨posted, out, r, stored, completed, ran⟩ := store_then_completion busy passed inside next
  have stillUntouched : (s.stored addr bs posted rest).touched = false := by
    refine Bool.eq_false_of_not_eq_true fun touched => ?_
    rcases State.stored_touched_iff.1 touched with before | ⟨-, hit, above, below, owned⟩
    · exact absurd before (by simp [untouched])
    · obtain ⟨offBuffer, offScratch⟩ := off hit above below
      exact owned.elim offBuffer offScratch
  refine ⟨_, _, _, stored, completed, ran, fun a inBuffer => ?_, fun a offBuffer offScratch undisturbed => ?_,
    rfl, rfl, rfl, rfl, rfl, rfl, rfl⟩
  · have output := State.byteAt_writeBack_untouched out passed untouched inBuffer
    exact (State.byteAt_writeBack_untouched (s := s.stored addr bs posted rest) out passed stillUntouched inBuffer).trans
      output.symm
  · exact (State.byteAt_writeBack_off (s := s.stored addr bs posted rest) out offBuffer offScratch).trans
        (State.byteAt_stored undisturbed)

/-! ## Posted stores -/

/-- R258, log 13: the bytes of a posted store, one by one. -/
theorem zipIdx_map_cells (addr : Nat) (bs : List Byte) :
    bs.zipIdx.map (fun bk => (addr + bk.2, bk.1)) = (List.range bs.length).map fun k => (addr + k, bs.getD k 0#8) := by
  refine List.ext_getElem (by simp) fun k hk _ => ?_
  have : k < bs.length := by simpa using hk
  simp [List.getElem?_eq_getElem this]

theorem step_memPost (s : State) (addr : Nat) (bs : List Byte) (rest : List Event)
    (inside : addr + bs.length ≤ s.params.memSize) (h : s.events = .memPost addr bs :: rest) :
    step s = .next (State.hostPost { s with events := rest } addr bs) := by
  have reaches := (Params.reaches_iff s.params addr bs.length).2 (.inr inside)
  simp only [step, State.nextMove, h, State.eventMove, reaches, if_true]

/-- Settles O27: posting appends cells, and performing one is the host store of one byte. -/
theorem postedStoreLands : Obligations.PostedStoreLands := by
  refine ⟨fun s addr bs rest inside he => ?post, fun s k a b rest hc inside he => ?perform⟩
  case post =>
    rw [step_memPost s addr bs rest inside he, State.hostPost, zipIdx_map_cells]
  case perform =>
    have performed : step s = .next (s.stored a [b] (s.posted.eraseIdx k) rest) :=
      step_memPerform s k (a, b) rest hc inside he
    refine ⟨_, performed, fun x undisturbed => ?_, fun x disturbed inMemory => ?_, ?_, rfl⟩
    · rw [State.byteAt_stored undisturbed, List.length_singleton]
      by_cases same : x = a
      · subst same
        simp
      · rw [if_neg (by omega), if_neg same]
    · exact State.byteAt_stored_disturbed inMemory disturbed
    · have one : (∃ hit, a ≤ hit ∧ hit < a + [b].length ∧ Ref.ownedBy s.latched hit) ↔ Ref.ownedBy s.latched a := by
        constructor
        · rintro ⟨hit, above, below, owned⟩
          rw [List.length_singleton] at below
          obtain rfl : hit = a := by omega
          exact owned
        · exact fun owned => ⟨a, le_rfl, Nat.lt_succ_self a, owned⟩
      rw [State.stored_touched_iff, one]
      rfl

end Sys2Proof.Machine
end

section
/-! PROOF. The register block (spec/10_state.md §2, §3, §6; spec/70_reset_and_hazards.md §2): the fields of STATUS, writes of
CTRL and STATUS, the accepted START, and reads of any width. -/

namespace Sys2Proof.Machine

open Sys2Proof

/-! ## The STATUS word -/

theorem ErrCode.code_lt (c : ErrCode) : c.code < 16 := by
  cases c
  all_goals decide

theorem Stage.code_lt (g : Stage) : g.code < 16 := by
  cases g
  all_goals decide

theorem Stage.code_eq_stageNumber (g : Stage) : g.code = Ref.stageNumber g := by
  cases g
  all_goals rfl

theorem ErrCode.code_eq_errNumber (c : ErrCode) : c.code = Ref.errNumber c := by
  cases c
  all_goals rfl

theorem bit_le (b : Bool) : bit b ≤ 1 := by
  cases b
  all_goals decide

theorem decide_bit_eq_one (b : Bool) : decide (bit b = 1) = b := by
  cases b
  all_goals decide

/-- R23: the STATUS word as a number. -/
theorem statusWord_toNat (busy done err : Bool) (code : ErrCode) (stage : Stage) :
    (statusWord busy done err code stage).toNat
      = bit busy + 2 * bit done + 4 * bit err + 16 * code.code + 256 * stage.code := by
  have := bit_le busy
  have := bit_le done
  have := bit_le err
  have := ErrCode.code_lt code
  have := Stage.code_lt stage
  rw [statusWord, BitVec.toNat_ofNat, Nat.mod_eq_of_lt (by omega)]

/-- Settles O19: each field is a digit of the number, below the weight of the next field. -/
theorem statusWordFields : Obligations.StatusWordFields := by
  intro s w
  have value : w.toNat = bit s.busy + 2 * bit s.done + 4 * bit s.err + 16 * s.errCode.code + 256 * s.stage.code :=
    statusWord_toNat ..
  have := bit_le s.busy
  have := bit_le s.done
  have := bit_le s.err
  have := ErrCode.code_lt s.errCode
  have := Stage.code_lt s.stage
  have digit (k : Nat) : w.getLsbD k = decide (w.toNat / 2 ^ k % 2 = 1) := Nat.testBit_eq_decide_div_mod_eq
  refine ⟨?busy, ?done, ?err, ?reserved, ?code, ?stage, ?high⟩
  case busy =>
    have : w.toNat / 2 ^ 0 % 2 = bit s.busy := by omega
    rw [digit, this, decide_bit_eq_one]
  case done =>
    have : w.toNat / 2 ^ 1 % 2 = bit s.done := by omega
    rw [digit, this, decide_bit_eq_one]
  case err =>
    have : w.toNat / 2 ^ 2 % 2 = bit s.err := by omega
    rw [digit, this, decide_bit_eq_one]
  case reserved =>
    have : w.toNat / 2 ^ 3 % 2 ≠ 1 := by omega
    rw [digit, decide_eq_false this]
  case code =>
    rw [BitVec.extractLsb'_toNat, Nat.shiftRight_eq_div_pow, ← ErrCode.code_eq_errNumber]
    omega
  case stage =>
    rw [BitVec.extractLsb'_toNat, Nat.shiftRight_eq_div_pow, ← Stage.code_eq_stageNumber]
    omega
  case high =>
    apply BitVec.eq_of_toNat_eq
    rw [BitVec.extractLsb'_toNat, Nat.shiftRight_eq_div_pow, BitVec.toNat_zero]
    omega

/-! ## Writes of CTRL and STATUS -/

/-- Settles O17: IRQ_EN takes bit 1, which is the one bit that CTRL reads as. -/
theorem ctrlWriteWithoutStart : Obligations.CtrlWriteWithoutStart := by
  intro s v rest noStart he
  refine ⟨_, step_wr s .ctrl v rest he, State.writeReg_ctrl_noStart _ noStart, ?_⟩
  rw [State.writeReg_ctrl_noStart _ noStart]
  show BitVec.ofNat 32 (2 * bit (v.getLsbD 1)) = v &&& BitVec.twoPow 32 1
  rw [BitVec.and_twoPow]
  cases v.getLsbD 1
  all_goals rfl

/-- Settles O18: the write is `writeStatus`, field by field. -/
theorem statusWriteClearsBits : Obligations.StatusWriteClearsBits := by
  intro s v rest he
  exact ⟨_, step_wr s .status v rest he, rfl, rfl, fun clear => if_pos clear,
    fun keep => if_neg (ne_true_of_eq_false keep), rfl, rfl, rfl, rfl, rfl, rfl, rfl, rfl, rfl, rfl, rfl, rfl⟩

/-! ## The accepted START -/

/-- R255, R258: the input of the command launched. -/
theorem State.acceptStart_inputByte (s : State) (e : Bool) (a : Nat) :
    (s.acceptStart e).inputByte a = if s.inputUnperformed then Config.freeByte s.draws a else Memory.byteAt s.mem a := by
  rw [State.inputByte, State.acceptStart_inputDraw]
  cases s.inputUnperformed
  all_goals rfl

theorem State.inputUnperformed_iff_ownedBy (s : State) :
    s.inputUnperformed = true ↔ ∃ c ∈ s.posted, Ref.ownedBy s.regs c.1 := by
  simp only [s.inputUnperformed_iff, ConfigRegs.owns_iff_ownedBy]

/-- An accepted START as a step (R255). -/
theorem step_start (s : State) {v : Word} (rest : List Event) (idle : s.busy = false) (start : v.getLsbD 0 = true)
    (he : s.events = wr s.params .ctrl v :: rest) :
    step s = .next (State.acceptStart { s with events := rest } (v.getLsbD 1)) := by
  rw [step_wr s .ctrl v rest he, State.writeReg_ctrl_start { s with events := rest } start idle]

/-- Settles O16: the step is `acceptStart`, and no outstanding store of the host reaches the ranges of the command it
latches. -/
theorem acceptedStartLaunches : Obligations.AcceptedStartLaunches := by
  intro s v rest start he
  refine ⟨fun idle => ?idle, fun busy => ?busy⟩
  case idle =>
    refine ⟨_, step_start s rest idle start he, rfl, rfl, rfl, rfl, rfl, rfl, rfl, rfl, fun performed a => ?_,
      rfl, rfl, rfl, rfl, rfl, rfl, rfl, rfl⟩
    have settled : ¬∃ c ∈ s.posted, Ref.ownedBy s.regs c.1 := by
      rintro ⟨c, outstanding, owned⟩
      rcases performed with none | ⟨-, off⟩
      · exact List.not_mem_nil (none ▸ outstanding)
      · obtain ⟨offBuffer, offScratch⟩ := off c outstanding
        exact owned.elim offBuffer offScratch
    exact (State.acceptStart_inputByte ..).trans (if_neg (mt (State.inputUnperformed_iff_ownedBy _).1 settled))
  case busy =>
    obtain ⟨-, enable, -⟩ := busyKeepsConfiguration s v rest busy
    exact enable he

/-- Settles O28: the store outstanding is to a byte of the ranges of the command that START latches. -/
theorem unperformedStoreFreesInput : Obligations.UnperformedStoreFreesInput := by
  intro s v c rest idle start he outstanding
  refine ⟨_, step_start s rest idle start he, rfl, rfl, fun owned a => ?_⟩
  exact (State.acceptStart_inputByte ..).trans
    (if_pos ((State.inputUnperformed_iff_ownedBy _).2 ⟨c, outstanding, owned⟩))

/-! ## Reads of the block -/

/-- R41: an aligned read of byte k of a register. -/
theorem State.readBlock_aligned (s : State) (r : Reg) {k : Nat} {w : AccessWidth} (hk : k < 4)
    (whole : k % w.bytes = 0) :
    s.readBlock (r.offset + k) w
      = State.afterRead { s.beforeRead r with
          reply := .value (byteLanes ((s.beforeRead r).regWord r) (r.offset + k) w) } (r.offset + k) := by
  rw [State.readBlock, if_pos (by rw [aligned_add, whole]; rfl), regOfOffset_add r hk]

/-- Register map: a read takes in bits 1:0 of STATUS when it starts at the first byte of STATUS. -/
theorem Reg.offset_add_eq_status (r : Reg) {k : Nat} (hk : k < 4) :
    r.offset + k = Reg.status.offset ↔ r = .status ∧ k = 0 := by
  constructor
  · intro same
    have register := congrArg regOfOffset same
    rw [regOfOffset_add r hk] at register
    have register : r = .status := register
    subst register
    exact ⟨rfl, by omega⟩
  · rintro ⟨rfl, rfl⟩
    rfl

/-- R41: the byte lanes of an access, bit by bit. -/
theorem lanesAre_byteLanes (word : Word) (r : Reg) {k : Nat} (hk : k < 4) (w : AccessWidth) :
    Ref.lanesAre (byteLanes word (r.offset + k) w) word k w := by
  intro b hb
  have lane : (r.offset + k) % 4 = k := by
    have := r.offset_mod_four
    omega
  rw [byteLanes, lane, BitVec.getLsbD_and, BitVec.getLsbD_ushiftRight, BitVec.getLsbD_ofNat,
    Nat.testBit_two_pow_sub_one, decide_eq_true hb, Bool.true_and, Bool.and_comm]

theorem byteLanes_word (word : Word) (r : Reg) : byteLanes word r.offset .word = word := by
  have whole : BitVec.ofNat 32 (2 ^ (8 * AccessWidth.word.bytes) - 1) = BitVec.allOnes 32 := rfl
  rw [byteLanes, r.offset_mod_four, whole, BitVec.and_allOnes, Nat.mul_zero, BitVec.ushiftRight_zero]

/-- R36: a read of STATUS while busy shows the drawn stage, observes no end, and returns the word with that stage. -/
theorem State.readBlock_status_busy {s : State} (busy : s.busy = true) {k : Nat} {w : AccessWidth} (hk : k < 4)
    (whole : k % w.bytes = 0) :
    s.readBlock (Reg.status.offset + k) w = { s with
      stage := s.drawStage, draws := s.draws + 1,
      reply := .value (byteLanes (State.regWord { s with stage := s.drawStage } .status) (Reg.status.offset + k) w) } := by
  have before : s.beforeRead .status = { s with stage := s.drawStage, draws := s.draws + 1 } := if_pos ⟨rfl, busy⟩
  rw [s.readBlock_aligned .status hk whole, before, State.afterRead, if_neg]
  · rfl
  · exact fun ⟨_, idle⟩ => absurd (busy.symm.trans idle) (by decide)

/-- R41, R257: every other aligned read changes nothing but the reply and what the host has observed. -/
theorem State.readBlock_settled {s : State} {r : Reg} (settled : ¬(r = .status ∧ s.busy = true)) {k : Nat}
    {w : AccessWidth} (hk : k < 4) (whole : k % w.bytes = 0) :
    s.readBlock (r.offset + k) w = { s with
      reply := .value (byteLanes (s.regWord r) (r.offset + k) w),
      unseen := if r = .status ∧ k = 0 then [] else s.unseen } := by
  have before : s.beforeRead r = s := if_neg settled
  have observes : (r.offset + k = Reg.status.offset ∧ s.busy = false) ↔ (r = .status ∧ k = 0) := by
    rw [r.offset_add_eq_status hk, and_iff_left_iff_imp]
    rintro ⟨status, -⟩
    exact Bool.eq_false_of_not_eq_true fun busy => settled ⟨status, busy⟩
  rw [s.readBlock_aligned r hk whole, before, State.afterRead]
  by_cases status : r = .status ∧ k = 0
  · rw [if_pos status]
    exact if_pos (observes.2 status)
  · rw [if_neg status]
    exact if_neg (mt observes.1 status)

/-! ## The stages by number -/

theorem stageNumbers_eq_map (i : Instr) : Ref.stageNumbers i = i.stages.map Ref.stageNumber := by
  cases i
  all_goals rfl

theorem runningStages_eq_map (s : State) : Ref.runningStages s = s.stageSequence.map Ref.stageNumber := by
  unfold Ref.runningStages State.stageSequence
  rw [stageNumbers_eq_map, State.running]
  split
  all_goals rfl

theorem runningStages_nodup (s : State) : (Ref.runningStages s).Nodup := by
  unfold Ref.runningStages
  split
  · cases decode s.latched.cmd
    all_goals simp [Ref.stageNumbers]
  · exact List.nodup_singleton 1

/-- What is left of a list from an element on stands at no earlier position. -/
theorem idxOf_le_of_mem_dropWhile {α β : Type} [DecidableEq α] [DecidableEq β] (f : α → β) {a b : α} :
    ∀ {l : List α}, (l.map f).Nodup → b ∈ l.dropWhile (· != a) → (l.map f).idxOf (f a) ≤ (l.map f).idxOf (f b)
  | [], _, left => absurd left List.not_mem_nil
  | c :: l, distinct, left => by
    rw [List.map_cons] at distinct ⊢
    obtain ⟨fresh, distinct⟩ := List.nodup_cons.1 distinct
    by_cases first : f c = f a
    · rw [List.idxOf_cons_eq _ first]
      exact Nat.zero_le _
    · have skipped : (c != a) = true := bne_iff_ne.2 fun same => first (congrArg f same)
      rw [List.dropWhile_cons_of_pos (p := (· != a)) skipped] at left
      have later : f c ≠ f b := fun same =>
        fresh (same ▸ List.mem_map_of_mem ((List.dropWhile_suffix _).subset left))
      rw [List.idxOf_cons_ne _ first, List.idxOf_cons_ne _ later]
      exact Nat.succ_le_succ (idxOf_le_of_mem_dropWhile f distinct left)

theorem State.Inv.drawStage_mem_runningStages {s : State} (h : s.Inv) (busy : s.busy = true) :
    Ref.stageNumber s.drawStage ∈ Ref.runningStages s := by
  rw [runningStages_eq_map]
  exact List.mem_map_of_mem (s.stagesLeft_sub _ (s.drawStage_mem (h.stageInSequence busy)))

/-- Settles O20: the stage drawn is one of those left from the stage shown last on. -/
theorem statusReadShowsLaterStage : Obligations.StatusReadShowsLaterStage := by
  intro s rest h busy he
  have read := State.readBlock_status_busy (s := { s with events := rest }) (k := 0) (w := .word) busy (by decide) rfl
  rw [Nat.add_zero, byteLanes_word] at read
  refine ⟨_, (step_rd s .status rest he).trans (congrArg _ read), h.drawStage_mem_runningStages busy, ?_, rfl⟩
  have distinct := runningStages_nodup s
  rw [runningStages_eq_map] at distinct ⊢
  exact idxOf_le_of_mem_dropWhile Ref.stageNumber distinct (s.drawStage_mem (h.stageInSequence busy))

/-- Settles O21: a read is aligned, and then shows a stage or not, or it is misaligned; a write that is narrow or misaligned
fails the one guard of `writeBlock`. -/
theorem registerAccessWidths : Obligations.RegisterAccessWidths := by
  intro s r k w rest hk
  refine ⟨fun whole he => ⟨fun settled => ?_, fun status busy => ?_⟩, fun misaligned he => ?_, fun v narrow he => ?_⟩
  · rw [step_regRead s r hk w rest he, State.readBlock_settled (s := { s with events := rest }) settled hk whole]
    exact ⟨_, rfl, lanesAre_byteLanes _ r hk w⟩
  · subst status
    rw [step_regRead s .status hk w rest he, State.readBlock_status_busy (s := { s with events := rest }) busy hk whole]
    exact ⟨_, _, rfl, lanesAre_byteLanes _ .status hk w, fun h => h.drawStage_mem_runningStages busy⟩
  · rw [step_regRead s r hk w rest he, State.readBlock, if_neg]
    rw [aligned_add, decide_eq_true_iff]
    exact misaligned
  · rw [step_regWrite s r hk w v rest he, State.writeBlock, if_neg]
    rintro ⟨rfl, aligned⟩
    rw [aligned_add, decide_eq_true_iff] at aligned
    rcases narrow with notWord | notFirst
    · exact notWord rfl
    · exact notFirst ((Nat.mod_eq_of_lt hk).symm.trans aligned)

end Sys2Proof.Machine
end

section
/-! PROOF. Runs of several steps (spec/70_reset_and_hazards.md §4, §3; spec/60_exceptions.md §4; spec/30_encoding.md §5):
where the engine moves, waiting for the end of a command, the two orders of a DONE clear and a completion, and LAUNCH. -/

namespace Sys2Proof.Machine

open Sys2Proof

/-! ## Where the engine moves -/

/-- Settles O4: in each of the four cases `nextMove` is the engine's, from a state with the same latched word. -/
theorem engineStepRunsDecodedCommand : Obligations.EngineStepRunsDecodedCommand := by
  rintro s _ busy rfl
  refine ⟨fun none => ?_, fun rest he => step_engine s rest busy he, fun rest he low => ?_,
    fun r hi lo v rest he fails => ?_⟩
  · have move : s.nextMove = .engine s := by simp only [State.nextMove, none, busy, if_true]
    rw [step, move]
    rfl
  · have move : s.nextMove = .engine s := by
      simp only [State.nextMove, he, State.eventMove, low, busy, if_true, Bool.false_eq_true, if_false]
    rw [step, move]
    rfl
  · have move : s.nextMove = .engine (s.readBlock r.offset .word) := by
      simp only [State.nextMove, he, State.eventMove, State.waitMove, fails, busy, if_true, Bool.false_eq_true, if_false]
    rw [step, move]
    simp only [fetch, State.running, State.readBlock_latched]

/-- Settles O5: the word is launched with an `engine` event at the head. -/
theorem launchedWordRunsNext : Obligations.LaunchedWordRunsNext := fun _ _ _ => step_engine _ _ rfl rfl

/-- Settles O6: with BUSY = 0 neither an empty list nor an `engine` event moves the engine. -/
theorem idleMachineStays : Obligations.IdleMachineStays := by
  intro s idle
  constructor
  · intro none
    simp only [step, State.nextMove, none, idle, Bool.false_eq_true, if_false]
  · intro rest he
    simp only [step, State.nextMove, he, State.eventMove, idle, Bool.false_eq_true, if_false]

/-! ## Runs -/

theorem run_succ {s t : State} (first : step s = .next t) (k : Nat) : core.run (k + 1) s = core.run k t := by
  have first : core.step s = .next t := first
  simp only [Host.Core.run, first]

theorem run_two {s t u : State} (first : step s = .next t) (second : step t = .next u) : core.run 2 s = .next u := by
  rw [run_succ first, run_succ second]
  rfl

/-- Settles O29: the completion sets DONE and a W1C write clears it, so the later of the two decides. -/
theorem clearDoneRacesCompletion : Obligations.ClearDoneRacesCompletion := by
  intro s rest busy
  refine ⟨fun he => ?_, fun he => ?_⟩
  · let t := State.writeStatus { s with events := .engine :: rest } 0x2#32
    have clear : step s = .next t := step_wr s .status _ _ he
    obtain ⟨u, completion, idle, done, -⟩ := exec_ends t.running { t with events := rest }
    exact ⟨u, run_two clear ((step_engine t rest busy rfl).trans completion), idle, done⟩
  · obtain ⟨t, completion, idle, -, -, events, params⟩ :=
      exec_ends s.running { s with events := wr s.params .status 0x2#32 :: rest }
    have next : t.events = wr t.params .status 0x2#32 :: rest := by rw [events, params]
    exact ⟨_, run_two ((step_engine s _ busy he).trans completion) (step_wr t .status _ rest next), idle,
      Bool.and_false t.done⟩

/-! ## Waiting for the end -/

/-- The end of a command as the host knows it after a wait: observed, with `rest` to come. -/
def State.seesEnd (t : State) (rest : List Event) : Prop :=
  t.busy = false ∧ t.done = true ∧ t.events = rest ∧ t.unseen = []

/-- R92: the field of `WAIT STATUS.BUSY == 0` is BUSY. -/
theorem fieldEquals_busy (s : State) : fieldEquals (s.regWord .status) 0 0 0 = !s.busy := by
  have busy : (s.regWord .status).getLsbD 0 = s.busy := (statusWordFields s).1
  rw [← busy, fieldEquals, BitVec.getLsbD, Nat.testBit_zero, Nat.pow_zero, Nat.div_one, ← decide_not]
  refine decide_eq_decide.2 ?_
  omega

/-- R36: a read of STATUS while busy shows BUSY = 1, whatever stage is drawn. -/
theorem fieldEquals_beforeRead_busy {s : State} (busy : s.busy = true) :
    fieldEquals ((s.beforeRead .status).regWord .status) 0 0 0 = false := by
  have before : s.beforeRead .status = { s with stage := s.drawStage, draws := s.draws + 1 } := if_pos ⟨rfl, busy⟩
  rw [before, fieldEquals_busy, busy]
  rfl

theorem State.readBlock_done (s : State) (off : Nat) (w : AccessWidth) : (s.readBlock off w).done = s.done := by
  rw [State.readBlock_eq]

/-- A WAIT of an idle engine's BUSY is over in one read, which observes the end (R257). -/
theorem step_wait_idle {s : State} {polls : Nat} {rest : List Event} (idle : s.busy = false) (done : s.done = true)
    (he : s.events = .wait .status 0 0 0 polls :: rest) : ∃ t, step s = .next t ∧ t.seesEnd rest := by
  have holds : fieldEquals ((s.beforeRead .status).regWord .status) 0 0 0 = true := by
    have before : s.beforeRead .status = s := if_neg fun ⟨_, busy⟩ => absurd (idle.symm.trans busy) (by decide)
    rw [before, fieldEquals_busy, idle]
    rfl
  refine ⟨{ s.readBlock Reg.status.offset .word with events := rest }, ?_, ?_, ?_, rfl, ?_⟩
  · simp only [step, State.nextMove, he, State.eventMove, State.waitMove, holds, if_true]
  · exact (State.readBlock_busy ..).trans idle
  · exact (State.readBlock_done ..).trans done
  · exact (State.readBlock_unseen ..).trans (if_pos ⟨rfl, rfl, idle⟩)

/-- R261, log 16: the polls fail while the engine is busy, the engine then ends the command, and the next read sees it. -/
theorem run_wait_busy {polls : Nat} {rest : List Event} : ∀ {s : State}, s.busy = true →
    s.events = .wait .status 0 0 0 polls :: rest → ∃ t, core.run (polls + 2) s = .next t ∧ t.seesEnd rest := by
  induction polls with
  | zero =>
    intro s busy he
    obtain ⟨-, -, -, polled⟩ := engineStepRunsDecodedCommand s _ busy rfl
    have move := polled .status 0 0 0 rest he (fieldEquals_beforeRead_busy busy)
    obtain ⟨t, ended, idle, done, -, events, -⟩ := exec_ends s.running (s.readBlock Reg.status.offset .word)
    obtain ⟨u, observed, seen⟩ := step_wait_idle idle done (events.trans ((State.readBlock_events ..).trans he))
    exact ⟨u, run_two (move.trans ended) observed, seen⟩
  | succ n ih =>
    intro s busy he
    let t : State := { s.readBlock Reg.status.offset .word with events := .wait .status 0 0 0 n :: rest }
    have poll : step s = .next t := by
      simp only [step, State.nextMove, he, State.eventMove, State.waitMove, fieldEquals_beforeRead_busy busy,
        Bool.false_eq_true, if_false, t]
    obtain ⟨u, ran, seen⟩ := ih (s := t) ((State.readBlock_busy ..).trans busy) rfl
    exact ⟨u, (run_succ poll (n + 2)).trans ran, seen⟩

theorem exec_irqEn (i : Instr) {s t : State} (ran : exec i s = .next t) : t.irqEn = s.irqEn := by
  rcases exec_cases i s with ⟨-, failed⟩ | ⟨-, out, r, completed⟩
  · rw [failed] at ran
    cases ran
    rfl
  · rw [completed] at ran
    cases ran
    rfl

/-- R235: with IRQ_EN = 1 the end of the command raises the line, and the wait sees it. -/
theorem run_waitIrq {s : State} {rest : List Event} (busy : s.busy = true) (he : s.events = .waitIrq :: rest)
    (enabled : s.irqEn = true) (low : s.irq = false) : ∃ t, core.run 2 s = .next t ∧ t.seesEnd rest := by
  obtain ⟨-, -, waiting, -⟩ := engineStepRunsDecodedCommand s _ busy rfl
  have move := waiting rest he low
  obtain ⟨t, ended, idle, done, -, events, -⟩ := exec_ends s.running s
  have high : t.irq = true := t.irq_eq_true_iff.2 ⟨done, (exec_irqEn _ ended).trans enabled⟩
  have sees : step t = .next (State.observeEnd { t with events := rest }) := by
    simp only [step, State.nextMove, events.trans he, State.eventMove, high, if_true]
  exact ⟨_, run_two (move.trans ended) sees, idle, done, rfl, rfl⟩

/-- Settles O57: either wait ends with the end observed, and then no byte is unsettled. -/
theorem waitForEndTerminates : Obligations.WaitForEndTerminates := by
  intro s polls rest busy waits
  have run : ∃ k t, k ≤ polls + 2 ∧ core.run k s = .next t ∧ t.seesEnd rest := by
    rcases waits with he | ⟨he, enabled, low⟩
    · obtain ⟨t, ran, seen⟩ := run_wait_busy busy he
      exact ⟨polls + 2, t, le_rfl, ran, seen⟩
    · obtain ⟨t, ran, seen⟩ := run_waitIrq busy he enabled low
      exact ⟨2, t, Nat.le_add_left 2 polls, ran, seen⟩
  obtain ⟨k, t, bound, ran, idle, done, events, unseen⟩ := run
  refine ⟨k, t, bound, ran, idle, done, events, unseen, fun posted a => State.hostByte_settled posted ?_⟩
  rintro (⟨still, -⟩ | ⟨e, noted, -⟩)
  · exact absurd (idle.symm.trans still) (by decide)
  · exact List.not_mem_nil (unseen ▸ noted)

/-! ## LAUNCH -/

theorem startWord_bits (irqEn : Bool) : (startWord irqEn).getLsbD 0 = true ∧ (startWord irqEn).getLsbD 1 = irqEn := by
  cases irqEn
  all_goals decide

theorem commandWord_setWidth (i : Instr) : (commandWord i).setWidth 12 = encode i := by
  rw [commandWord, BitVec.setWidth_setWidth_of_le _ (by decide), BitVec.setWidth_eq]

/-- Settles O58: the first write puts the word into CMD, the second is an accepted START that latches it. -/
theorem launchRunsAssembledCommand : Obligations.LaunchRunsAssembledCommand := by
  intro s i irqEn polls rest idle he
  obtain ⟨start, enable⟩ := startWord_bits irqEn
  let later : List Event := .wait .status 0 0 0 polls :: rest
  let t : State := { s with
    regs := ConfigRegs.write s.regs .cmd (commandWord i), events := wr s.params .ctrl (startWord irqEn) :: later }
  have write : step s = .next t := by
    rw [step_wr s .cmd _ (wr s.params .ctrl (startWord irqEn) :: later) he]
    exact congrArg _ (State.writeReg_config_idle (r := .cmd) { s with events := _ } _ rfl idle)
  have latched : t.regs = { s.regs with cmd := encode i } := by
    rw [← commandWord_setWidth i]
    rfl
  refine ⟨_, run_two write (step_start t later idle start rfl), rfl, enable, ?_, latched, rfl, rfl⟩
  rw [State.acceptStart_latched, latched]
  exact decode_encode i

end Sys2Proof.Machine
end

section
/-! PROOF. Words and operands (spec/30_encoding.md §3, §4, §5): every CMD word lies in exactly one row of the opcode table,
and the assembler's encodings of a percentile and of a legacy sigma are exact. -/

namespace Sys2Proof

/-! ## The opcode table -/

/-- R90, R91: the word of an instruction lies in its row, and the row's mask in what its decoding reads. -/
theorem encodesRow (i : Instr) : Laws.EncodesRow.Statement i := by
  cases i
  case grayW => exact Laws.EncodesRow.grayW
  case grayI => exact Laws.EncodesRow.grayI
  case sepia => exact Laws.EncodesRow.sepia
  case blurG25 => exact Laws.EncodesRow.blurG25
  case blurB7 => exact Laws.EncodesRow.blurB7
  case blurB5 => exact Laws.EncodesRow.blurB5
  case blurB3 => exact Laws.EncodesRow.blurB3
  case sobelP => exact Laws.EncodesRow.sobelP
  case sobelF => exact Laws.EncodesRow.sobelF
  case cannyThin s => exact Laws.EncodesRow.cannyThin s
  case cannyMedium s => exact Laws.EncodesRow.cannyMedium s
  case cannyThick s => exact Laws.EncodesRow.cannyThick s
  case reservedOp0 => exact Laws.EncodesRow.reservedOp0
  case reservedOp6_7 => exact Laws.EncodesRow.reservedOp6_7
  case reservedOp8_F => exact Laws.EncodesRow.reservedOp8_F
  case reservedCannyStroke3 => exact Laws.EncodesRow.reservedCannyStroke3

/-- R87: refilling the bits that a word's instruction does not read gives the word back. -/
theorem encodeWith_decode (w : CmdWord) : encodeWith (decode w) w = w := by
  rw [encodeWith, ← and_readMask_decode, ← BitVec.and_or_distrib_left, BitVec.or_not_self, BitVec.and_allOnes]

theorem OpcodeRow.matches_iff (r : OpcodeRow) (w : CmdWord) : r.matches w = true ↔ w &&& r.mask = r.pattern := beq_iff_eq

theorem and_eq_self_of_and_not_eq_zero {m n : CmdWord} (h : m &&& ~~~n = 0#12) : n &&& m = m := by
  calc n &&& m = (m &&& n) ||| (m &&& ~~~n) := by rw [h, BitVec.or_zero, BitVec.and_comm]
    _ = m := by rw [← BitVec.and_or_distrib_left, BitVec.or_not_self, BitVec.and_allOnes]

/-- R90, R91: a word lies in the row of what it decodes to. -/
theorem row_decode_matches (w : CmdWord) : (decode w).row.matches w = true := by
  obtain ⟨pattern, -, within⟩ := encodesRow (decode w)
  rw [OpcodeRow.matches_iff, ← pattern, ← and_readMask_decode, BitVec.and_assoc, and_eq_self_of_and_not_eq_zero within]

theorem row_mem_opcodeTable (i : Instr) : i.row ∈ opcodeTable := by
  cases i
  all_goals simp [opcodeTable, Instr.row]

theorem opcodeTable_nodup : opcodeTable.Nodup := by decide

/-- R91: no two rows of the table agree in the bits that both fix. -/
theorem opcodeTable_apart : ∀ r ∈ opcodeTable, ∀ q ∈ opcodeTable, r.pattern &&& q.mask = q.pattern &&& r.mask → r = q := by
  decide

theorem eq_of_matches {r q : OpcodeRow} (hr : r ∈ opcodeTable) (hq : q ∈ opcodeTable) {w : CmdWord}
    (inR : r.matches w = true) (inQ : q.matches w = true) : r = q := by
  rw [OpcodeRow.matches_iff] at inR inQ
  refine opcodeTable_apart r hr q hq ?_
  rw [← inR, ← inQ, BitVec.and_assoc, BitVec.and_assoc, BitVec.and_comm r.mask]

/-- Settles O2: the row of what a word decodes to is in the table once, and no other row of the table has the word. -/
theorem everyWordIsOneTableRow : Obligations.EveryWordIsOneTableRow := by
  intro w
  refine ⟨?_, encodeWith_decode w⟩
  have only : ∀ r ∈ opcodeTable, r.matches w = (r == (decode w).row) := by
    intro r hr
    rw [Bool.eq_iff_iff, beq_iff_eq]
    constructor
    · exact fun inRow => eq_of_matches hr (row_mem_opcodeTable _) inRow (row_decode_matches w)
    · rintro rfl
      exact row_decode_matches w
  rw [List.filter_congr only, List.filter_beq, List.count_eq_one_of_mem opcodeTable_nodup (row_mem_opcodeTable _)]
  rfl

/-- Settles O3: the decoder computes on the thirteen words. -/
theorem sampleWordsDecode : Obligations.SampleWordsDecode := by
  exact ⟨rfl, rfl, rfl, rfl, rfl, rfl, rfl, rfl, rfl, rfl, rfl, rfl, rfl⟩

end Sys2Proof

namespace Sys2Proof.Machine

open Sys2Proof

/-! ## The legacy sigma -/

/-- R93: the clamp to 16 bits. -/
theorem sigmaUnits_cases (σ : Rat) :
    ((100 * σ).floor < 0 ∧ sigmaUnits σ = 0) ∨ (65535 < (100 * σ).floor ∧ sigmaUnits σ = 65535)
      ∨ (0 ≤ (100 * σ).floor ∧ (100 * σ).floor ≤ 65535 ∧ (sigmaUnits σ : Int) = (100 * σ).floor) := by
  unfold sigmaUnits clamp
  split
  · exact .inl ⟨by assumption, rfl⟩
  · split
    · exact .inr (.inl ⟨by assumption, rfl⟩)
    · exact .inr (.inr ⟨by omega, by omega, by omega⟩)

/-- R93: inside the clamp's range an integer bound on SIGMA is a bound on 100·σ. -/
theorem le_sigmaUnits_iff (σ : Rat) {n : Nat} (pos : 0 < n) (fits : n ≤ 65535) :
    n ≤ sigmaUnits σ ↔ (n : Rat) ≤ 100 * σ := by
  have floor : (n : Int) ≤ (100 * σ).floor ↔ (n : Rat) ≤ 100 * σ := by
    rw [Rat.le_floor_iff, Int.cast_natCast]
  rw [← floor]
  rcases sigmaUnits_cases σ with ⟨_, units⟩ | ⟨_, units⟩ | ⟨_, _, units⟩
  all_goals omega

/-- R181: the three values of the shim, each with its range of SIGMA. -/
theorem resolveStrength_legacy_iff (n : Nat) :
    (resolveStrength .legacy n = .low ↔ 180 ≤ n) ∧ (resolveStrength .legacy n = .high ↔ n < 100)
      ∧ (resolveStrength .legacy n = .medium ↔ 100 ≤ n ∧ n < 180) := by
  obtain ⟨-, -, -, low, high, medium⟩ := legacySigmaResolves n
  by_cases wide : 180 ≤ n
  · rw [low wide]
    simp
    omega
  by_cases narrow : n < 100
  · rw [high narrow]
    simp
    omega
  rw [medium (by omega) (by omega)]
  simp
  omega

/-- Settles O59: 180 and 100, the borders of the shim, are inside the clamp's range. -/
theorem sigmaEncodingIsExact : Obligations.SigmaEncodingIsExact := by
  intro σ
  have wide : 180 ≤ sigmaUnits σ ↔ (9 : Rat) / 5 ≤ σ := by
    rw [le_sigmaUnits_iff σ (by decide) (by decide), div_le_iff₀' (by norm_num)]
    constructor
    all_goals
      intro h
      push_cast at h ⊢
      linarith
  have notNarrow : 100 ≤ sigmaUnits σ ↔ 1 ≤ σ := by
    rw [le_sigmaUnits_iff σ (by decide) (by decide)]
    exact le_mul_iff_one_le_right (by norm_num)
  have bound : sigmaUnits σ ≤ 65535 := by
    rcases sigmaUnits_cases σ with ⟨_, units⟩ | ⟨_, units⟩ | ⟨_, _, units⟩
    all_goals omega
  obtain ⟨low, high, medium⟩ := resolveStrength_legacy_iff (sigmaUnits σ)
  rw [← not_le, notNarrow, not_le] at high
  rw [← not_le, notNarrow, wide, not_le] at medium
  exact ⟨bound, low.trans wide, high, medium⟩

/-! ## The percentile -/

/-- R93: the multiples of 1/10000 in the range of PCT. -/
theorem percentileUnits_eq_some_iff (p : Rat) (n : Nat) :
    percentileUnits p = some n ↔ p = (n : Rat) / 10000 ∧ n ≤ 16383 := by
  have scaled : p = (n : Rat) / 10000 ↔ p * 10000 = n := eq_div_iff (by norm_num)
  rw [scaled, percentileUnits]
  generalize p * 10000 = q
  constructor
  · intro units
    split at units
    case isTrue inRange =>
      obtain ⟨whole, nonneg, fits⟩ := inRange
      obtain rfl : q.num.toNat = n := Option.some.inj units
      refine ⟨?_, by omega⟩
      rw [← Int.cast_natCast, Int.toNat_of_nonneg nonneg, Rat.coe_int_num_of_den_eq_one whole]
    case isFalse => cases units
  · rintro ⟨rfl, fits⟩
    exact if_pos ⟨Rat.den_natCast n, by simp, by simpa using fits⟩

/-- Settles O60: a call is encoded where `percentileUnits` has a value, which is then the one n with p = n/10000. -/
theorem percentileEncoding : Obligations.PercentileEncoding := by
  intro p
  simp only [← percentileUnits_eq_some_iff]
  cases units : percentileUnits p with
  | none => simp [RsCall.command, units]
  | some m => simp [RsCall.command, units]

end Sys2Proof.Machine
end

section
/-! PROOF. Laws of the Canny units (spec/44_canny.md §4, §7): the integer thresholds are RS's on square roots, thin dilation
is the identity, every edge has N > 0, and a plane of zeros gives no edge. -/

namespace Sys2Proof.Machine

open Sys2Proof

/-! ## The double threshold on square roots -/

/-- R187: the test on squares is the test on roots. -/
theorem reaches_iff_sqrt (num den v smax : Nat) (pos : 0 < den) :
    reaches num den v smax = true ↔ (num : ℝ) / den * √smax ≤ √v := by
  have den_pos : (0 : ℝ) < (den : ℝ) ^ 2 := by positivity
  rw [reaches_iff, Real.le_sqrt (by positivity) (Nat.cast_nonneg v), mul_pow, Real.sq_sqrt (Nat.cast_nonneg smax),
    div_pow, div_mul_eq_mul_div, div_le_iff₀ den_pos, ← pow_two, ← pow_two]
  exact_mod_cast Iff.rfl

theorem classify_none (p : Preset) (smax v : Nat) :
    classify p smax v = .none ↔ ¬classify p smax v = .strong ∧ ¬classify p smax v = .weak := by
  cases classify p smax v
  all_goals decide

/-- R187: the three states on roots, for a preset whose fractions are `hi` and `lo`. -/
theorem classify_on_roots {p : Preset} {hi lo : ℝ} {smax : Nat} (v : Nat) (positive : 0 < smax) (highDen : 0 < p.highDen)
    (lowDen : 0 < p.lowDen) (high : (p.highNum : ℝ) / p.highDen = hi) (low : (p.lowNum : ℝ) / p.lowDen = lo)
    (lo_pos : 0 < lo) (lo_le_hi : lo ≤ hi) :
    (classify p smax v = .strong ↔ hi * √smax ≤ √v)
      ∧ (classify p smax v = .weak ↔ lo * √smax ≤ √v ∧ √v < hi * √smax)
      ∧ (classify p smax v = .none ↔ √v < lo * √smax) := by
  have root_pos : 0 < √(smax : ℝ) := Real.sqrt_pos.2 (Nat.cast_pos.2 positive)
  have ordered : lo * √smax ≤ hi * √smax := mul_le_mul_of_nonneg_right lo_le_hi root_pos.le
  have nonzero : lo * √smax ≤ √v → 0 < v := fun h =>
    Nat.cast_pos.1 (Real.sqrt_pos.1 ((mul_pos lo_pos root_pos).trans_le h))
  have strong : classify p smax v = .strong ↔ hi * √smax ≤ √v := by
    rw [classify_strong, reaches_iff_sqrt _ _ _ _ highDen, high, and_iff_right_iff_imp]
    exact fun h => nonzero (ordered.trans h)
  have weak : classify p smax v = .weak ↔ lo * √smax ≤ √v ∧ √v < hi * √smax := by
    rw [classify_weak, reaches_iff_sqrt _ _ _ _ highDen, reaches_iff_sqrt _ _ _ _ lowDen, high, low, not_le,
      and_comm (a := √v < _), and_iff_right_iff_imp]
    exact fun h => nonzero h.1
  refine ⟨strong, weak, ?_⟩
  rw [classify_none, strong, weak, not_and, not_lt, not_le]
  constructor
  · rintro ⟨below, notWeak⟩
    by_contra reached
    exact absurd (notWeak (not_lt.1 reached)) (not_le.2 below)
  · exact fun below => ⟨below.trans_le ordered, fun reached => absurd reached (not_le.2 below)⟩

/-- Settles O48: the presets' fractions are RS's decimals. -/
theorem thresholdsAreExactOnRoots : Obligations.ThresholdsAreExactOnRoots := by
  intro st v smax positive
  cases st
  all_goals
    exact classify_on_roots v positive (by decide) (by decide) (by norm_num [presetTable]) (by norm_num [presetTable])
      (by norm_num) (by norm_num)

/-! ## The mask -/

/-- R186: Smax bounds the plane, also where it has no element. -/
theorem get_le_planeMax (N : Plane Nat) (y x : Nat) : Plane.get N y x ≤ planeMax N := by
  rw [planeMax_eq_foldr, Plane.get]
  by_cases hy : y < N.length
  · rw [List.getD_eq_getElem _ _ hy]
    by_cases hx : x < N[y].length
    · rw [List.getD_eq_getElem _ _ hx]
      exact List.le_max_of_le' 0 (List.mem_flatten.2 ⟨N[y], List.getElem_mem hy, List.getElem_mem hx⟩) le_rfl
    · rw [List.getD_eq_default _ _ (not_lt.1 hx)]
      exact Nat.zero_le _
  · rw [List.getD_eq_default _ _ (not_lt.1 hy)]
    exact Nat.zero_le _

/-- R187 to R190: the mask before thickening, for any plane N. -/
theorem cannyMask_iff_linked (st : Strength) {W H : Nat} (N : Plane Nat) {y x : Nat} (hy : y < H) (hx : x < W) :
    Plane.get (cannyMask st W H N) y x = true
      ↔ LinkedFrom W H (fun v u => classify (presetTable st) (planeMax N) (Plane.get N v u)) y x := by
  rw [cannyMask, edgeMask, Plane.get_tabulate _ _ _ hy hx, decide_eq_true_iff]
  exact (hysteresisIsLinkedSet W H _ y x hy hx).1

/-- 44_canny.md §7 (d): strong and weak pixels have N > 0. -/
theorem pos_of_cannyMask {st : Strength} {W H : Nat} {N : Plane Nat} {y x : Nat} (hy : y < H) (hx : x < W)
    (edge : Plane.get (cannyMask st W H N) y x = true) : 0 < Plane.get N y x := by
  cases (cannyMask_iff_linked st N hy hx).1 edge with
  | seed _ _ _ _ strong => exact ((classify_strong ..).1 strong).1
  | grow _ _ _ _ _ _ _ _ weak => exact ((classify_weak ..).1 weak).1

/-- Settles O51: the window of radius 0 is the pixel itself, and an edge needs a value between 1 and Smax. -/
theorem cannyMaskLaws : Obligations.CannyMaskLaws := by
  intro st W H N y x hy hx M
  have dilated (r : Nat) : Plane.get (dilate r W H M) y x = true
      ↔ Ref.dilated W H r (fun v u => Plane.get M v u = true) y x := dilate_iff (fun _ _ _ _ => Iff.rfl) hy hx
  refine ⟨?thin, pos_of_cannyMask hy hx, fun zero k => ?empty⟩
  case thin =>
    rw [Bool.eq_iff_iff, dilated]
    constructor
    · rintro ⟨v, u, -, -, above, below, left, right, edge⟩
      obtain rfl : v = y := Nat.le_antisymm above below
      obtain rfl : u = x := Nat.le_antisymm left right
      exact edge
    · exact fun edge => ⟨y, x, hy, hx, le_rfl, le_rfl, le_rfl, le_rfl, edge⟩
  case empty =>
    rw [← Bool.not_eq_true, dilated]
    rintro ⟨v, u, hv, hu, -, -, -, -, edge⟩
    have := pos_of_cannyMask hv hu edge
    have := get_le_planeMax N v u
    omega

end Sys2Proof.Machine
end

section
/-! PROOF. What a command's result depends on (spec/30_encoding.md R88; spec/20_memory.md R62): the registers it reads, the
parameters and the input bytes of its buffer. -/

namespace Sys2Proof.Machine

open Sys2Proof

section
variable {i : Instr} {l l' : ConfigRegs} (same : Ref.sameOperands i l l')
include same

theorem bufAddr_eq_of_sameOperands : l'.bufAddr = l.bufAddr := same.1

theorem w_eq_of_sameOperands : l'.w = l.w := by
  obtain ⟨-, -, width, -⟩ := same
  exact congrArg BitVec.toInt width

theorem h_eq_of_sameOperands : l'.h = l.h := by
  obtain ⟨-, -, -, height, -⟩ := same
  exact congrArg BitVec.toInt height

theorem req_eq_of_sameOperands : req i l' = req i l := by
  rw [req_eq_scratchFactor, req_eq_scratchFactor, w_eq_of_sameOperands same, h_eq_of_sameOperands same]

/-- R88, R223: the checks read no other register; with no requirement they do not read the scratch registers. -/
theorem check_eq_of_sameOperands (p : Params) : check i p l' = check i p l := by
  have width := w_eq_of_sameOperands same
  have height := h_eq_of_sameOperands same
  have need := req_eq_of_sameOperands same
  obtain ⟨bufAddr, bufLen, -, -, scratch, -⟩ := same
  unfold check
  rw [width, height, need, bufAddr, bufLen]
  rcases Nat.eq_zero_or_pos (Ref.scratchFactor i) with zero | positive
  · have none : req i l = 0 := by rw [req_eq_scratchFactor, zero, Nat.zero_mul]
    simp [none]
  · obtain ⟨scrAddr, scrLen⟩ := scratch positive
    rw [scrAddr, scrLen]

/-- R88: a command's rule reads PCT, FTHR or SIGMA only where its row of the table says so. -/
theorem workOf_eq_of_sameOperands : workOf i l' = workOf i l := by
  obtain ⟨-, -, -, -, -, pct, fthr, sigma⟩ := same
  cases i
  case sobelP => rw [workOf, workOf, pct rfl]
  case sobelF => rw [workOf, workOf, fthr rfl]
  case cannyThin f | cannyMedium f | cannyThick f =>
    cases f
    case legacy => rw [workOf, workOf, sigma rfl]
    all_goals rfl
  all_goals rfl

end

/-- R62: the bytes of a pixel of the image lie in the buffer. -/
theorem inBuffer_pixelAddr (s : State) {y x c : Nat} (hy : y < s.latched.h.toNat) (hx : x < s.latched.w.toNat)
    (hc : c < 4) : Ref.inBuffer s (s.latched.pixelAddr y x + c) := by
  have row : y * s.latched.w.toNat + x < s.latched.w.toNat * s.latched.h.toNat := by
    calc y * s.latched.w.toNat + x < (y + 1) * s.latched.w.toNat := by rw [Nat.succ_mul]; omega
      _ ≤ s.latched.w.toNat * s.latched.h.toNat := by rw [Nat.mul_comm]; exact Nat.mul_le_mul_left _ hy
  unfold Ref.inBuffer ConfigRegs.pixelAddr
  omega

/-- R62: the input planes are the input bytes of the buffer. -/
theorem inputPlane_eq_of_sameInput {i : Instr} {s s' : State} (same : Ref.sameOperands i s.latched s'.latched)
    (input : ∀ a, Ref.inBuffer s a → s'.inputByte a = s.inputByte a) : s'.inputPlane = s.inputPlane := by
  have width := w_eq_of_sameOperands same
  rw [State.inputPlane, State.inputPlane, width, h_eq_of_sameOperands same]
  refine Plane.tabulate_congr fun y x hy hx => ?_
  have addr : s'.latched.pixelAddr y x = s.latched.pixelAddr y x := by
    rw [ConfigRegs.pixelAddr, ConfigRegs.pixelAddr, width, bufAddr_eq_of_sameOperands same]
  have byte (c : Nat) (hc : c < 4) :
      s'.inputByte (s.latched.pixelAddr y x + c) = s.inputByte (s.latched.pixelAddr y x + c) :=
    input _ (inBuffer_pixelAddr s hy hx hc)
  rw [State.inputPixel, State.inputPixel, addr, Pixel.mk.injEq]
  exact ⟨byte 0 (by decide), byte 1 (by decide), byte 2 (by decide), byte 3 (by decide)⟩

/-- Settles O52: the two completions have the same output image and result. -/
theorem resultDependsOnInputOnly : Obligations.ResultDependsOnInputOnly := by
  intro i s s' params same
  have checked : check i s'.params s'.latched = check i s.params s.latched := by
    rw [params, check_eq_of_sameOperands same]
  refine ⟨checked, fun ⟨passed, untouched⟩ untouched' input => ?_⟩
  have passed' := checked.trans passed
  have ran' := exec_completes i s' passed'
  rw [workOf_eq_of_sameOperands same, w_eq_of_sameOperands same, h_eq_of_sameOperands same,
    inputPlane_eq_of_sameInput same input] at ran'
  refine ⟨_, _, exec_completes i s passed, ran', rfl, fun a inBuffer => ?_⟩
  have inBuffer' : Ref.inBuffer s' a := by
    unfold Ref.inBuffer
    rw [bufAddr_eq_of_sameOperands same, w_eq_of_sameOperands same, h_eq_of_sameOperands same]
    exact inBuffer
  rw [State.complete_mem, State.complete_mem, State.byteAt_writeBack_untouched _ passed untouched inBuffer,
    State.byteAt_writeBack_untouched _ passed' untouched' inBuffer',
    bufAddr_eq_of_sameOperands same]

end Sys2Proof.Machine
end
